-- ==== Sys2Proof/Word.lean ====
section
/-! DEFINITION. The word types of the block's messages and wires (spec/00_scope.md R10, R17). -/

namespace Sys2Proof

/-- A byte is 8 bits (R10). -/
abbrev Byte := BitVec 8

/-- `u16` of R10: window coordinates and pixel colors. -/
abbrev U16 := BitVec 16

/-- A byte list, first byte first on the wire or in the message (R11). -/
abbrev Bytes := List Byte

end Sys2Proof
end

