-- ==== Sys2Proof/Syntax.lean ====
section
/-! DEFINITION. The instructions: one constructor per row of spec/opcode_table.json, the 14 host requests
(spec/30_encoding.md R94) and the 12 wire frames and patterns (R120, R122). -/

namespace Sys2Proof

/-- The encoding layer a word belongs to: the host request port, or one of the block's own wires
(the two layers of 30_encoding.md; the wire layer by device and direction). -/
inductive Layer where
  | request    -- a host request message (R90)
  | display    -- a display command: its byte, then its operand bytes (R120)
  | adcOut     -- bytes shifted out to the ADC (R200, R215)
  | adcIn      -- bytes received from the ADC (R202)
  | muxLines   -- the four address lines as a number, A0 lowest (R241)
  deriving DecidableEq, Repr

inductive Instr where
  /-- `DISP_RESET` (R161). -/
  | dispReset
  /-- `DISP_INIT` (R165). -/
  | dispInit
  /-- `DISP_SET_WINDOW` (R170): format W, the operands in message order. -/
  | dispSetWindow (x0 y0 x1 y1 : U16)
  /-- `DISP_WRITE_FRAME` (R174). -/
  | dispWriteFrame
  /-- `DISP_CLEAR` (R177): an RGB565 pixel value. -/
  | dispClear (color : U16)
  /-- `DISP_SET_BACKLIGHT` (R179): signed Q16.16. -/
  | dispSetBacklight (frac : BitVec 32)
  /-- `BTN_READ` (R180). -/
  | btnRead
  /-- `LED_WRITE` (R183): the L8 operand byte, bits 2:0 are `rgb`. -/
  | ledWrite (rgb : Byte)
  /-- `ADC_READ` (R205). -/
  | adcRead (ch : Byte)
  /-- `ADC_READ_ALL` (R211). -/
  | adcReadAll
  /-- `ADC_SELFTEST` (R215). -/
  | adcSelftest
  /-- `MUX_SELECT` (R242). -/
  | muxSelect (ch : Byte)
  /-- `MUX_ENABLE` (R245). -/
  | muxEnable
  /-- `MUX_DISABLE` (R246). -/
  | muxDisable
  /-- `DCS_SWRESET`, software reset (R120). -/
  | dcsSwreset
  /-- `DCS_SLPOUT`, sleep-out (R120). -/
  | dcsSlpout
  /-- `DCS_COLMOD`, color mode; its data byte is fixed at 0x55 (R120). -/
  | dcsColmod
  /-- `DCS_MADCTL`, memory access control; its data byte is fixed at 0x00 (R120). -/
  | dcsMadctl
  /-- `DCS_DISPON`, display on (R120). -/
  | dcsDispon
  /-- `DCS_CASET`, column-address-set (R120). -/
  | dcsCaset (x0 x1 : U16)
  /-- `DCS_RASET`, row-address-set (R120). -/
  | dcsRaset (y0 y1 : U16)
  /-- `DCS_RAMWR`, memory write; its data is the whole frame buffer (R120). -/
  | dcsRamwr
  /-- `ADC_FRAME`, the 3-byte request frame of channel `ch` (R200). -/
  | adcFrame (ch : Byte)
  /-- `ADC_RESPONSE`, the three received bytes (R202). -/
  | adcResponse (rx0 rx1 rx2 : Byte)
  /-- `ADC_SELFTEST_FRAME`, two bytes of ones (R215). -/
  | adcSelftestFrame
  /-- `MUX_ADDRESS`, the line pattern of channel `ch` (R241). -/
  | muxAddress (ch : Byte)
  deriving DecidableEq, Repr

/-- The layer an instruction's word is read in. -/
def Instr.layer : Instr → Layer
  | .dispReset | .dispInit | .dispSetWindow .. | .dispWriteFrame | .dispClear _ | .dispSetBacklight _
  | .btnRead | .ledWrite _ | .adcRead _ | .adcReadAll | .adcSelftest | .muxSelect _ | .muxEnable
  | .muxDisable => .request
  | .dcsSwreset | .dcsSlpout | .dcsColmod | .dcsMadctl | .dcsDispon | .dcsCaset .. | .dcsRaset ..
  | .dcsRamwr => .display
  | .adcFrame _ | .adcSelftestFrame => .adcOut
  | .adcResponse .. => .adcIn
  | .muxAddress _ => .muxLines

end Sys2Proof
end

