-- ==== Sys2Proof/Machine/Event.lean ====
section
/-! DEFINITION. The devices, lines, events, bus outcomes and status codes of the spec
(spec/00_scope.md R13, spec/10_state.md R31 and R34, spec/40_transaction.md R130 and R131,
spec/30_encoding.md R111). -/

namespace Sys2Proof.Machine

/-- The two devices on the bus (R130). -/
inductive Device where
  | disp
  | adc
  deriving DecidableEq, Repr, Inhabited

/-- The output lines `SetLine` drives (R31). -/
inductive Line where
  | dc | rst | muxA0 | muxA1 | muxA2 | muxA3 | muxEnN | ledR | ledG | ledB
  deriving DecidableEq, Repr

/-- One entry of the observable trace (R13). -/
inductive Event where
  | cs (d : Device) (b : Bool)
  | line (l : Line) (b : Bool)
  | bl (duty : Nat)
  | xfer (d : Device) (tx rx : Bytes)
  | xferFail (d : Device) (tx : Bytes)
  | wait (ms : Nat)
  | req (msg : Bytes)
  | resp (msg : Bytes)
  | reset
  deriving DecidableEq, Repr

/-- The three outcomes of a logical transfer (R131). -/
inductive Reply where
  | ok (rx : Bytes)
  | fail
  | hang
  deriving DecidableEq, Repr, Inhabited

/-- The status of a response (R111). -/
inductive Status where
  | ok | range | bus | state | illegal
  deriving DecidableEq, Repr

/-- The first byte of every response (R111); codes 0x05 to 0xFF are never emitted. -/
def Status.code : Status → Byte
  | .ok => 0x00
  | .range => 0x01
  | .bus => 0x02
  | .state => 0x03
  | .illegal => 0x04

end Sys2Proof.Machine
end

