-- ==== Sys2Proof/Config.lean ====
section
/-! DEFINITION. The block's parameters (spec/00_scope.md R8) and its free values. A parameter the spec calls OPEN
and every draw is a constant without a body: nothing in Lean can compute it or prove a value of it. -/

namespace Sys2Proof.Config

open Sys2Proof.Machine

/-- `WIDTH` (R8, fixed). -/
def width : Nat := 320

/-- `HEIGHT` (R8, fixed). -/
def height : Nat := 240

/-- `WIDTH*HEIGHT`, the number of pixels. -/
def pixels : Nat := width * height

/-- `FB_SIZE` (R8, fixed): 153600 bytes. -/
def fbSize : Nat := width * height * 2

/-- `HAS_MUX_EN` (R8, OPEN; the spec's default is `true`). -/
opaque hasMuxEn : Bool

/-- `PWM_MAX - 1`: the parameter is any positive integer (R8, OPEN). -/
opaque pwmMaxPred : Nat

/-- `PWM_MAX` (R8, OPEN): a positive integer. -/
def pwmMax : Nat := pwmMaxPred + 1

/-- One less than the numerator of `VREF` (R8, OPEN). -/
opaque vrefNumPred : Nat

/-- One less than the denominator of `VREF` (R8, OPEN). -/
opaque vrefDenPred : Nat

/-- `VREF` in volts (R8, OPEN): any positive rational. -/
def vref : Rat := ((vrefNumPred + 1 : Nat) : Rat) / ((vrefDenPred + 1 : Nat) : Rat)

/-- Clock polarity, clock phase and clock rate of one device on the bus (R8 `SPI_MODE_*`, `SPI_HZ_*`). -/
structure SpiConfig where
  polarity : Bool
  phase : Bool
  hz : Nat
  deriving DecidableEq, Repr, Inhabited

/-- The bus configuration of each device (R8, OPEN; no rule of the model depends on it, R141). -/
opaque spi : Device → SpiConfig

/-- FREE VALUE. The device whose configuration the bus has while both chip-selects are deasserted, after the history: R141
lets the bus take a device's configuration at any moment of that gap (log entry 13). -/
opaque gapDevice : List Event → Device

/-- `CS_ACTIVE_LEVEL` (R8, decided low by D8): the electrical level of an asserted chip-select. -/
def csActiveLevel : Bool := false

/-- FREE VALUE. A frame-buffer byte that nothing has written: a draw fixed at power-up (R43, R44, D35). -/
opaque fbPowerUp : Nat → Byte

/-- FREE VALUE. The bus oracle: it sees the history, the device and the bytes sent (R131). -/
opaque busReply : List Event → Device → Bytes → Reply

/-- FREE VALUE. Byte `i` on MISO during the transfer that follows the history, where no listed reply gives it (R132). -/
opaque misoByte : List Event → Nat → Byte

/-- FREE VALUE. The raw level of sample `i` of the request that the history ends with (R34). -/
opaque buttonLevel : List Event → Nat → Bool

/-- FREE VALUE. A frame-buffer or streamed byte at an offset the host wrote during a request that uses it (R74). -/
opaque racedByte : List Event → Nat → Byte

/-- FREE VALUE. The byte a host read returns while a request that uses the frame buffer runs; the number counts the reads
so far (R74, 93_implementation_defined H2). -/
opaque racedRead : List Event → Nat → Byte

end Sys2Proof.Config
end

