-- ==== Sys2Proof/WellFormed.lean ====
section
/-! DEFINITION. Which instructions are well formed: the operand domains an encoding of spec/30_encoding.md R93, R173,
spec/42_adc.md R200 and spec/43_mux.md R241 can carry. A request's channel and window operands are not limited here:
the request checks them when it runs (R96, R97). -/

namespace Sys2Proof

/-- The ordered pair of one axis of a window (R171). -/
def axisOk (lo hi : U16) (extent : Nat) : Bool :=
  decide (lo.toNat ≤ hi.toNat) && decide (hi.toNat < extent)

/-- The operand domains of the encodings. -/
def Instr.wf : Instr → Bool
  | .ledWrite rgb => decide (rgb.toNat < 8)                  -- L8: bits 7:3 must be 0 (R93)
  | .dcsCaset x0 x1 => axisOk x0 x1 Config.width             -- every coordinate sent is in the window (R173)
  | .dcsRaset y0 y1 => axisOk y0 y1 Config.height
  | .adcFrame ch => decide (ch.toNat < 8)                    -- `ch ∈ [0, 7]` (R200)
  | .muxAddress ch => decide (ch.toNat < 16)                 -- `ch ∈ [0, 15]` (R241)
  | .dispReset | .dispInit | .dispSetWindow .. | .dispWriteFrame | .dispClear _ | .dispSetBacklight _
  | .btnRead | .adcRead _ | .adcReadAll | .adcSelftest | .muxSelect _ | .muxEnable | .muxDisable
  | .dcsSwreset | .dcsSlpout | .dcsColmod | .dcsMadctl | .dcsDispon | .dcsRamwr | .adcResponse ..
  | .adcSelftestFrame => true

end Sys2Proof
end

