-- ==== Sys2Proof/Decode.lean ====
section
/-! DEFINITION. Decoding and encoding: host request messages (spec/30_encoding.md R90 to R99) and the wire frames
(R120, spec/42_adc.md R200, R202, R215, spec/43_mux.md R241). Total on every byte list, refusing by name. -/

namespace Sys2Proof

/-- `enc16(v) = [v[15:8], v[7:0]]`, big-endian (R11, R173). -/
def enc16 (v : U16) : Bytes := [v.extractLsb' 8 8, v.extractLsb' 0 8]

/-- The 32-bit operand, big-endian (R92). -/
def enc32 (v : BitVec 32) : Bytes :=
  [v.extractLsb' 24 8, v.extractLsb' 16 8, v.extractLsb' 8 8, v.extractLsb' 0 8]

/-- `{hi, lo}` (R10, R96). -/
def dec16 (hi lo : Byte) : U16 := hi ++ lo

/-- `{b3, b2, b1, b0}` (R96). -/
def dec32 (b3 b2 b1 b0 : Byte) : BitVec 32 := b3 ++ b2 ++ b1 ++ b0

/-- `adcFrame(ch)` of R200. -/
def adcFrame (ch : Byte) : Bytes := [0x06 ||| ((ch &&& 4) >>> 2), (ch &&& 3) <<< 6, 0x00]

/-- The two bytes of the self-test exchange (R215). -/
def selftestFrame : Bytes := [0xFF, 0xFF]

/-- Why a word is refused: the causes of R95, and a wire word that is none of the block's frames. -/
inductive Illegal where
  | emptyMessage
  | unassignedOpcode (op : Byte)
  | wrongLength (op : Byte) (got : Nat)
  | reservedBits (operand : Byte)
  | unknownFrame
  deriving DecidableEq, Repr

/-- The request formats (R93). -/
inductive Format where
  | n | c8 | w | p16 | q32 | l8
  deriving DecidableEq, Repr

/-- The message length of a format (R93). -/
def formatLength : Format → Nat
  | .n => 1
  | .c8 => 2
  | .w => 9
  | .p16 => 3
  | .q32 => 5
  | .l8 => 2

/-- The format of each assigned opcode (R94). -/
def opcodeMap : List (Byte × Format) :=
  [(0x01, .n), (0x02, .n), (0x03, .w), (0x04, .n), (0x05, .p16), (0x06, .q32), (0x07, .n), (0x08, .l8),
   (0x10, .c8), (0x11, .n), (0x12, .n), (0x20, .c8), (0x21, .n), (0x22, .n)]

/-- The format an opcode selects, none where it is unassigned (R94, R98). -/
def formatOf (op : Byte) : Option Format := (opcodeMap.find? fun row => row.1 == op).map (·.2)

/-- The request an opcode and its operand bytes stand for (R94, R96); the operand bytes follow `OP` in order. -/
def assemble (op : Byte) (operands : Bytes) : Option Instr :=
  match operands with
  | [] =>
    if op = 0x01 then some .dispReset
    else if op = 0x02 then some .dispInit
    else if op = 0x04 then some .dispWriteFrame
    else if op = 0x07 then some .btnRead
    else if op = 0x11 then some .adcReadAll
    else if op = 0x12 then some .adcSelftest
    else if op = 0x21 then some .muxEnable
    else if op = 0x22 then some .muxDisable
    else none
  | [b] =>
    if op = 0x08 then some (.ledWrite b)
    else if op = 0x10 then some (.adcRead b)
    else if op = 0x20 then some (.muxSelect b)
    else none
  | [b1, b0] => if op = 0x05 then some (.dispClear (dec16 b1 b0)) else none
  | [b3, b2, b1, b0] => if op = 0x06 then some (.dispSetBacklight (dec32 b3 b2 b1 b0)) else none
  | [x0h, x0l, y0h, y0l, x1h, x1l, y1h, y1l] =>
    if op = 0x03 then
      some (.dispSetWindow (dec16 x0h x0l) (dec16 y0h y0l) (dec16 x1h x1l) (dec16 y1h y1l))
    else none
  | _ => none

/-- Are the reserved bits 7:3 of an L8 operand set (R93, R98)? -/
def reservedSet (operands : Bytes) : Bool :=
  match operands with
  | [b] => decide (8 ≤ b.toNat)
  | _ => false

/-- `decode(m)` of R95, the tests in its order. -/
def decodeRequest (m : Bytes) : Except Illegal Instr :=
  match m with
  | [] => .error .emptyMessage
  | op :: operands =>
    match formatOf op with
    | none => .error (.unassignedOpcode op)
    | some f =>
      if (op :: operands).length ≠ formatLength f then .error (.wrongLength op (operands.length + 1))
      else if f = .l8 ∧ reservedSet operands = true then .error (.reservedBits (operands.headD 0))
      else
        match assemble op operands with
        | some i => .ok i
        | none => .error (.unassignedOpcode op)

/-- The display frame a command byte and its operand bytes stand for (R120): the fixed data bytes of COLMOD and MADCTL
and the frame buffer of RAMWR are no operands. -/
def decodeDisplay (word : Bytes) : Except Illegal Instr :=
  match word with
  | [c] =>
    if c = 0x01 then .ok .dcsSwreset
    else if c = 0x11 then .ok .dcsSlpout
    else if c = 0x3A then .ok .dcsColmod
    else if c = 0x36 then .ok .dcsMadctl
    else if c = 0x29 then .ok .dcsDispon
    else if c = 0x2C then .ok .dcsRamwr
    else .error .unknownFrame
  | [c, ah, al, bh, bl] =>
    if c = 0x2A then
      if axisOk (dec16 ah al) (dec16 bh bl) Config.width then .ok (.dcsCaset (dec16 ah al) (dec16 bh bl))
      else .error .unknownFrame
    else if c = 0x2B then
      if axisOk (dec16 ah al) (dec16 bh bl) Config.height then .ok (.dcsRaset (dec16 ah al) (dec16 bh bl))
      else .error .unknownFrame
    else .error .unknownFrame
  | _ => .error .unknownFrame

/-- The channel an ADC request frame's first two bytes name: `{byte0[0], byte1[7:6]}` (R200). -/
def adcFrameChannel (b0 b1 : Byte) : Byte := ((b0 &&& 1) <<< 2) ||| (b1 >>> 6)

/-- The frames the block shifts out to the ADC (R200, R215). -/
def decodeAdcOut (word : Bytes) : Except Illegal Instr :=
  match word with
  | [b0, b1, b2] =>
    if adcFrame (adcFrameChannel b0 b1) = [b0, b1, b2] then .ok (.adcFrame (adcFrameChannel b0 b1))
    else .error .unknownFrame
  | [b0, b1] => if [b0, b1] = selftestFrame then .ok .adcSelftestFrame else .error .unknownFrame
  | _ => .error .unknownFrame

/-- The three bytes received during an ADC frame (R202): every value of them is a response. -/
def decodeAdcIn (word : Bytes) : Except Illegal Instr :=
  match word with
  | [rx0, rx1, rx2] => .ok (.adcResponse rx0 rx1 rx2)
  | _ => .error .unknownFrame

/-- The multiplexer's line pattern as a number, line `A0` its bit 0 (R241). -/
def decodeMuxLines (word : Bytes) : Except Illegal Instr :=
  match word with
  | [p] => if p.toNat < 16 then .ok (.muxAddress p) else .error .unknownFrame
  | _ => .error .unknownFrame

/-- The instruction a word of a layer stands for. -/
def decode (layer : Layer) (word : Bytes) : Except Illegal Instr :=
  match layer with
  | .request => decodeRequest word
  | .display => decodeDisplay word
  | .adcOut => decodeAdcOut word
  | .adcIn => decodeAdcIn word
  | .muxLines => decodeMuxLines word

/-- The word of an instruction in its own layer, written from R93, R94, R120, R200, R202, R215 and R241. -/
def encode (i : Instr) : Bytes :=
  match i with
  | .dispReset => [0x01]
  | .dispInit => [0x02]
  | .dispSetWindow x0 y0 x1 y1 => 0x03 :: (enc16 x0 ++ enc16 y0 ++ enc16 x1 ++ enc16 y1)
  | .dispWriteFrame => [0x04]
  | .dispClear color => 0x05 :: enc16 color
  | .dispSetBacklight frac => 0x06 :: enc32 frac
  | .btnRead => [0x07]
  | .ledWrite rgb => [0x08, rgb]
  | .adcRead ch => [0x10, ch]
  | .adcReadAll => [0x11]
  | .adcSelftest => [0x12]
  | .muxSelect ch => [0x20, ch]
  | .muxEnable => [0x21]
  | .muxDisable => [0x22]
  | .dcsSwreset => [0x01]
  | .dcsSlpout => [0x11]
  | .dcsColmod => [0x3A]
  | .dcsMadctl => [0x36]
  | .dcsDispon => [0x29]
  | .dcsCaset x0 x1 => 0x2A :: (enc16 x0 ++ enc16 x1)
  | .dcsRaset y0 y1 => 0x2B :: (enc16 y0 ++ enc16 y1)
  | .dcsRamwr => [0x2C]
  | .adcFrame ch => adcFrame ch
  | .adcResponse rx0 rx1 rx2 => [rx0, rx1, rx2]
  | .adcSelftestFrame => selftestFrame
  | .muxAddress ch => [ch]

/-- `n` bytes of `w`, the lowest-numbered first. -/
def bytesUp : Nat → Nat → Bytes
  | 0, _ => []
  | n + 1, w => BitVec.ofNat 8 w :: bytesUp n (w / 256)

/-- The length of a request whose opcode is `op`, and of an unassigned one the bytes given. -/
def requestLength (op : Byte) (given : Nat) : Nat :=
  match formatOf op with
  | some f => max given (formatLength f)
  | none => given

/-- The ways to lay out `nbits` bits of an opcode-table row, in the order they are tried: as a request message (first byte
lowest, the operand bytes above `nbits` zero), as a display command (operand bytes zero), as bytes shifted out to the ADC
and received from it (the table writes these rows with the first byte highest), and as the multiplexer's lines. -/
def tableLayouts (nbits w : Nat) : List (Layer × Bytes) :=
  let given := (nbits + 7) / 8
  let v := w % 2 ^ nbits
  let op : Byte := BitVec.ofNat 8 v
  [(.request, bytesUp (requestLength op given) v),
   (.display, if given = 1 then [op] else []),
   (.display, if given = 1 then [op, 0, 0, 0, 0] else []),
   (.adcOut, (bytesUp given v).reverse),
   (.adcIn, (bytesUp given v).reverse),
   (.muxLines, if given ≤ 1 then [op] else [])]

/-- The first layout of a table row's bits that the layer's decoder takes, with the instruction it reads. A row's bits do
not name their layer: where a request and a wire frame share a word (0x01 and 0x11), the request is read. -/
def readTableWord (nbits w : Nat) : Option (Layer × Bytes × Instr) :=
  (tableLayouts nbits w).findSome? fun lw =>
    match decode lw.1 lw.2 with
    | .ok i => some (lw.1, lw.2, i)
    | .error _ => none

/-- The instruction the decoder reads from a word numbered as spec/opcode_table.json numbers it. -/
def decodeTableWord (nbits w : Nat) : Option Instr := (readTableWord nbits w).map fun r => r.2.2

end Sys2Proof
end

