-- ==== Sys2Proof/Machine/State.lean ====
section
/-! DEFINITION. The block's state as plain data (spec/10_state.md R21 to R43, spec/00_scope.md R13), what it and the host
still have ahead of them (R35), the state after reset, and the reasons a step can stop. -/

namespace Sys2Proof.Machine

open Sys2Proof

/-- `DSTATE` (R24); the codes 6 and 7 are never held. -/
inductive DState where
  | uninit | resetting | awakening | colormode | addrmode | on
  deriving DecidableEq, Repr

/-- `SEQ_PHASE` (R21): `req` is the request being served and `step` counts the micro-operations it has started
(the numbering is the model's, log entry 9; DESIGN CHOICE). -/
inductive SeqPhase where
  | idle
  | busy (req : Instr) (step : Nat)
  deriving DecidableEq, Repr

/-- A sample (R204): the abstract response carries the voltage beside the raw value (R113). -/
structure Sample where
  channel : Byte
  raw : BitVec 12
  voltage : Rat
  deriving DecidableEq, Repr

/-- A response: the status, the payload bytes after it (R110, R112), and the samples of R113. -/
structure Response where
  status : Status
  payload : Bytes
  samples : List Sample
  deriving DecidableEq, Repr

/-- A host access to the frame buffer at a byte offset (R64). -/
inductive Access where
  | write (off : Nat) (v : Byte)
  | read (off : Nat)
  deriving DecidableEq, Repr

/-- What reaches the block from outside while it waits (R35, R37, R64, R300). A request or frame brings with it what the
outside does while it is busy: the frame-buffer accesses the host makes beside it (R74), and after how many of its
micro-operations block reset arrives, none where it does not (R302; log entries 4 and 5; DESIGN CHOICE). `frame` makes
the block issue one wire frame by itself, which no rule of the spec asks of it: it is the model's way to run a wire row of
the opcode table alone (log entry 8; DESIGN CHOICE). -/
inductive Move where
  | request (m : Bytes) (racing : List Access) (resetIn : Option Nat)
  | frame (l : Layer) (word : Bytes) (racing : List Access) (resetIn : Option Nat)
  | access (a : Access)
  | takeResponse
  | blockReset
  deriving DecidableEq, Repr

/-- What the outside will do, as far as a run fixes it (log entries 2 to 5 and 7; DESIGN CHOICE). -/
structure Env where
  /-- What reaches the waiting block next, oldest first. -/
  agenda : List Move := []
  /-- The bus oracle's next outcomes (R131); when none is left, `Config.busReply` answers. -/
  replies : List Reply := []
  /-- The next raw button levels (R34); when none is left, `Config.buttonLevel` answers. -/
  buttons : List Bool := []
  /-- The frame-buffer accesses the host makes while the running request is busy (R74), oldest first. -/
  racing : List Access := []
  /-- Block reset arrives after this many more micro-operations of the running request (R302). -/
  resetIn : Option Nat := none
  deriving DecidableEq, Repr

/-- The variables of the running request's pseudocode: `rx` and `ch` and `out` of R205 and R211, `p` of R180.
They live no longer than the request (R38). -/
structure Work where
  rx : Bytes := []
  ch : Byte := 0
  out : List Sample := []
  p : Byte := 0
  deriving DecidableEq, Repr

/-- The state. Each field's docstring names its element of R23 and the rule that describes it. -/
structure State where
  /-- `SEQ_PHASE` (R21). -/
  phase : SeqPhase
  /-- `DSTATE` (R24). -/
  dstate : DState
  /-- `CS_DISP`, logical: true is asserted (R26). -/
  csDisp : Bool
  /-- `CS_ADC`, logical: true is asserted (R26). -/
  csAdc : Bool
  /-- `DC`: false is command, true is data (R27). -/
  dc : Bool
  /-- `RST`, electrical: false holds the panel in reset (R28). -/
  rst : Bool
  /-- `MUX_A[3:0]` (R29). -/
  muxA : BitVec 4
  /-- `MUX_EN_N`, active low (R30); without an enable line it keeps its reset value (log entry 12). -/
  muxEnN : Bool
  /-- `LED_R` (R32). -/
  ledR : Bool
  /-- `LED_G` (R32). -/
  ledG : Bool
  /-- `LED_B` (R32). -/
  ledB : Bool
  /-- `BL_DUTY`, 0 to `PWM_MAX` (R33). -/
  blDuty : Nat
  /-- `TIMER`: the milliseconds of the wait in progress, none when idle (R42, R281). -/
  timer : Option Nat
  /-- `FB`, the frame buffer: its listed bytes in the canonical form of `Memory.wf` (R36, R62). -/
  fb : List Host.Cell
  /-- The host request port: the request being served (R37). -/
  reqPort : Option Bytes
  /-- The host response port: the last response until the host takes it (R37, R292). -/
  respPort : Option Response
  /-- The event history, oldest first (R13). -/
  history : List Event
  /-- The running request's variables (the model's own, log entry 10). -/
  work : Work
  /-- The bytes the frame-buffer port has returned to the host, oldest first (the model's own, log entry 20). -/
  fbReads : List Byte
  /-- The outside (the model's own). -/
  env : Env
  deriving DecidableEq, Repr

/-- Why the machine stops. -/
inductive Fault where
  /-- Raised by `step` when a transfer has hung and no input is left: the block has no further step (R270). Safe: the
  model stops where the block stops. -/
  | hungTransfer
  /-- Raised by a meaning that starts a transaction while a chip-select is asserted, which R135's `require` excludes and no
  run from reset reaches (R136). Safe. -/
  | chipSelectHeld
  deriving DecidableEq, Repr

/-- What the model gives no step. -/
inductive Refusal where
  /-- Raised by `exec` for an instruction without a meaning; every instruction has one. Safe. -/
  | notModelled (mnemonic : String)
  /-- Raised by `step` for a host access at an offset beyond the frame buffer (R64). Safe: the spec admits no such access. -/
  | frameBufferRange (off : Nat)
  /-- Raised by `step` when the host presents a request to a busy (hung) block (R291). Safe for hosts that keep the duty. -/
  | requestWhileBusy
  /-- Raised by `step` when it is told to issue a wire word that is no frame of the block (R121). Safe. -/
  | undecodedFrame
  deriving DecidableEq, Repr

/-- The state after the first block reset: the table of R43. The frame buffer lists nothing, so every byte is the draw
`Config.fbPowerUp` (R44). The history is empty and nothing is fixed of the outside. -/
def State.reset : State where
  phase := .idle
  dstate := .uninit
  csDisp := false
  csAdc := false
  dc := false
  rst := true
  muxA := 0
  muxEnN := true
  ledR := false
  ledG := false
  ledB := false
  blDuty := 0
  timer := none
  fb := []
  reqPort := none
  respPort := none
  history := []
  work := {}
  fbReads := []
  env := {}

end Sys2Proof.Machine
end

