-- ==== Sys2Proof/Machine/Flags.lean ====
section
/-! DEFINITION. The block has no flags (spec/10_state.md R22): the one condition it reports is the status byte. Here are
the conditions that decide it (spec/60_exceptions.md R261, R262, R269) and the status message (spec/30_encoding.md R110). -/

namespace Sys2Proof.Machine

open Sys2Proof

/-- `validWindow` (R171). -/
def validWindow (x0 y0 x1 y1 : U16) : Bool := axisOk x0 x1 Config.width && axisOk y0 y1 Config.height

/-- Is an ADC channel operand in its domain 0 to 7 (R205, R261)? -/
def adcChannelOk (ch : Byte) : Bool := decide (ch.toNat ≤ 7)

/-- Is a multiplexer channel operand in its domain 0 to 15 (R242, R261)? -/
def muxChannelOk (ch : Byte) : Bool := decide (ch.toNat ≤ 15)

/-- The checks a request makes before any event, in the priority of R269: `STATE`, then `RANGE`. None where it may run. -/
def precheck (i : Instr) (d : DState) : Option Status :=
  match i with
  | .dispInit => if d = .resetting then none else some .state
  | .dispSetWindow x0 y0 x1 y1 =>
    if d ≠ .on then some .state else if validWindow x0 y0 x1 y1 then none else some .range
  | .dispWriteFrame => if d = .on then none else some .state
  | .adcRead ch => if adcChannelOk ch then none else some .range
  | .muxSelect ch => if muxChannelOk ch then none else some .range
  | .dispReset | .dispClear _ | .dispSetBacklight _ | .btnRead | .ledWrite _ | .adcReadAll
  | .adcSelftest | .muxEnable | .muxDisable => none
  | .dcsSwreset | .dcsSlpout | .dcsColmod | .dcsMadctl | .dcsDispon | .dcsCaset .. | .dcsRaset ..
  | .dcsRamwr | .adcFrame _ | .adcResponse .. | .adcSelftestFrame | .muxAddress _ => none

/-- The response message `[status] ++ payload` (R110). -/
def Response.message (r : Response) : Bytes := r.status.code :: r.payload

end Sys2Proof.Machine
end

