-- ==== Sys2Proof/Machine/Memory.lean ====
section
/-! DEFINITION. The frame buffer (spec/20_memory.md R62 to R67): one canonical list of written bytes, an unlisted
offset reading as the power-up draw of spec/10_state.md R44. -/

namespace Sys2Proof.Machine

open Sys2Proof

/-- The frame buffer's listed bytes. -/
abbrev Memory := List Host.Cell

/-- The canonical form: offsets strictly rising and inside the buffer, and no byte listed that equals what its offset
reads as unlisted. -/
abbrev Memory.wf (m : Memory) : Prop :=
  m.Pairwise (fun x y => x.1 < y.1) ∧ ∀ c ∈ m, c.1 < Config.fbSize ∧ c.2 ≠ Config.fbPowerUp c.1

/-- The byte at an offset (R65). -/
def Memory.read (m : Memory) (a : Nat) : Byte :=
  match m with
  | [] => Config.fbPowerUp a
  | (b, v) :: t => if b = a then v else Memory.read t a

/-- List a byte in front of later offsets, unless the unlisted offset reads as that byte anyway. -/
def Memory.listed (a : Nat) (v : Byte) (t : Memory) : Memory :=
  if v = Config.fbPowerUp a then t else (a, v) :: t

/-- Put a byte into its place. -/
def Memory.put (m : Memory) (a : Nat) (v : Byte) : Memory :=
  match m with
  | [] => Memory.listed a v []
  | (b, w) :: t =>
    if a < b then Memory.listed a v ((b, w) :: t)
    else if a = b then Memory.listed a v t
    else (b, w) :: Memory.put t a v

/-- Write one byte (R65). There is no byte beyond `FB_SIZE` (R71): the host port refuses such an access before it gets
here, and the block makes none. -/
def Memory.write (m : Memory) (a : Nat) (v : Byte) : Memory :=
  if a < Config.fbSize then Memory.put m a v else m

/-- `MemRead(a, n)` (R65): the bytes at `a` to `a+n-1` in ascending order. -/
def Memory.readList (m : Memory) (a n : Nat) : Bytes := (List.range' a n).map (Memory.read m)

/-- `MemWrite(a, n, v)` (R65): the bytes of `v` to `a`, `a+1` and so on. -/
def Memory.writeList (m : Memory) (a : Nat) (v : Bytes) : Memory :=
  match v with
  | [] => m
  | b :: bs => Memory.writeList (Memory.write m a b) (a + 1) bs

/-- The offset of the pixel at column `x` and row `y` (R62). -/
def pixelOffset (x y : Nat) : Nat := 2 * (y * Config.width + x)

/-- The pixel at column `x` and row `y`: its two bytes, big-endian (R61, R62). -/
def Memory.pixel (m : Memory) (x y : Nat) : U16 :=
  dec16 (Memory.read m (pixelOffset x y)) (Memory.read m (pixelOffset x y + 1))

end Sys2Proof.Machine
end

