-- ==== Sys2Proof/Machine/Operands.lean ====
section
/-! DEFINITION. The values the requests compute from their operands and from received bytes: window bytes
(spec/41_display.md R170), the backlight duty (R179), the ADC decode and voltage (spec/42_adc.md R202, R203), sample
records (spec/30_encoding.md R113) and multiplexer bits (spec/43_mux.md R241). -/

namespace Sys2Proof.Machine

open Sys2Proof

/-- The four data bytes of a column- or row-address-set: the pair in order, each 16-bit big-endian (R173). -/
def windowBytes (lo hi : U16) : Bytes := enc16 lo ++ enc16 hi

/-- The last column as a coordinate, `WIDTH-1` (R174). -/
def lastColumn : U16 := BitVec.ofNat 16 (Config.width - 1)

/-- The last row as a coordinate, `HEIGHT-1` (R174). -/
def lastRow : U16 := BitVec.ofNat 16 (Config.height - 1)

/-- The backlight fraction clamped to [0.0, 1.0], that is to 0 to 65536 (R179). -/
def clampFraction (frac : BitVec 32) : Nat := (min (max frac.toInt 0) 65536).toNat

/-- `floor(qc * PWM_MAX / 65536)`, computed exactly (R179). -/
def dutyOf (pwmMax : Nat) (frac : BitVec 32) : Nat := clampFraction frac * pwmMax / 65536

/-- `decodeRaw(rx)`: `{rx[1][3:0], rx[2]}` (R202). -/
def decodeRaw (rx : Bytes) : BitVec 12 := (rx.getD 1 0).extractLsb' 0 4 ++ rx.getD 2 0

/-- `voltage(raw) = raw * VREF / 4095`, exact (R203). -/
def voltage (vref : Rat) (raw : BitVec 12) : Rat := (raw.toNat : Rat) * vref / 4095

/-- The sample of a channel's received bytes (R204). -/
def sampleOf (ch : Byte) (rx : Bytes) : Sample := ⟨ch, decodeRaw rx, voltage Config.vref (decodeRaw rx)⟩

/-- The sample record `[ch, zext_8(raw[11:8]), raw[7:0]]` (R113). -/
def sampleRecord (x : Sample) : Bytes := [x.channel, (x.raw.extractLsb' 8 4).setWidth 8, x.raw.extractLsb' 0 8]

/-- `bit_i(ch) = (ch >> i) & 1` (R241). -/
def channelBit (ch : Byte) (i : Nat) : Bool := ch.getLsbD i

/-- `v` with bit `i` replaced by `b`. -/
def withBit (n : Nat) (v : BitVec n) (i : Nat) (b : Bool) : BitVec n :=
  (v &&& ~~~(1#n <<< i)) ||| ((if b then 1#n else 0#n) <<< i)

/-- The three-bit code of `DSTATE` (R24). -/
def dstateCode : DState → BitVec 3
  | .uninit => 0
  | .resetting => 1
  | .awakening => 2
  | .colormode => 3
  | .addrmode => 4
  | .on => 5

end Sys2Proof.Machine
end

