-- ==== Sys2Proof/Machine/Ops.lean ====
section
/-! DEFINITION. The named operations: the primitives of spec/00_scope.md R12 as micro-operations, a request's
micro-sequence (spec/10_state.md R21), taking and ending a request (spec/30_encoding.md R110, spec/60_exceptions.md R266)
and block reset (spec/70_reset_and_hazards.md R302). -/

namespace Sys2Proof.Machine

open Sys2Proof

/-- Append one event to the history (R13). -/
def State.record (s : State) (e : Event) : State := { s with history := s.history ++ [e] }

/-- The state bit a line has (R31). -/
def State.drive (s : State) (l : Line) (b : Bool) : State :=
  match l with
  | .dc => { s with dc := b }
  | .rst => { s with rst := b }
  | .muxA0 => { s with muxA := withBit 4 s.muxA 0 b }
  | .muxA1 => { s with muxA := withBit 4 s.muxA 1 b }
  | .muxA2 => { s with muxA := withBit 4 s.muxA 2 b }
  | .muxA3 => { s with muxA := withBit 4 s.muxA 3 b }
  | .muxEnN => { s with muxEnN := b }
  | .ledR => { s with ledR := b }
  | .ledG => { s with ledG := b }
  | .ledB => { s with ledB := b }

/-- `SetLine(L, b)` (R31): the event is recorded even when the line keeps its level. -/
def State.setLine (s : State) (l : Line) (b : Bool) : State := (s.drive l b).record (.line l b)

/-- The chip-select of a device, asserted or not. -/
def State.select (s : State) (d : Device) (b : Bool) : State :=
  match d with
  | .disp => { s with csDisp := b }
  | .adc => { s with csAdc := b }

/-- `CsAssert(d)` and `CsDeassert(d)` (R133). -/
def State.setCs (s : State) (d : Device) (b : Bool) : State := (s.select d b).record (.cs d b)

/-- The bus oracle's answer to a transfer (R131): the next listed reply, else the free one, which sees the history, the
device and the bytes sent. -/
def State.answer (s : State) (d : Device) (tx : Bytes) : Reply :=
  match s.env.replies with
  | r :: _ => r
  | [] => Config.busReply s.history d tx

/-- The bytes on MISO while `tx` is shifted out: one for each byte of `tx` (R131, R132). `given` are the bytes the reply
lists; a byte it does not list is free (log entry 21). -/
def received (h : List Event) (i : Nat) (tx given : Bytes) : Bytes :=
  match tx, given with
  | [], _ => []
  | _ :: tx, g :: gs => g :: received h (i + 1) tx gs
  | _ :: tx, [] => Config.misoByte h i :: received h (i + 1) tx []

/-- Why a micro-sequence stops before its end. -/
inductive Stop where
  | bus    -- a transfer failed; its chip-select is released (R135)
  | hung   -- a transfer hangs; its chip-select stays asserted (R137)
  | cut    -- block reset arrived (R302)
  deriving DecidableEq, Repr

/-- What running micro-operations leaves. -/
inductive Ran where
  | done (s : State)
  | stop (why : Stop) (s : State)
  deriving DecidableEq, Repr

/-- `step` of `BUSY(req, step)` counts one more micro-operation (R21). -/
def SeqPhase.next (p : SeqPhase) : SeqPhase :=
  match p with
  | .idle => .idle
  | .busy req k => .busy req (k + 1)

/-- The sequencer starts one micro-operation, and a coming block reset is one nearer. -/
def State.tick (s : State) : State :=
  { s with phase := s.phase.next, env := { s.env with resetIn := s.env.resetIn.map (· - 1) } }

/-- `Xfer(d, tx)` (R131) with the failure path of its transaction (R135): a failed transfer records `XFER_FAIL`, and then
its chip-select is released as one more micro-operation, unless block reset arrives first (R302). The bytes received are
`rx` of the pseudocode. -/
def State.xfer (s : State) (d : Device) (tx : Bytes) : Ran :=
  let t := { s with env := { s.env with replies := s.env.replies.tail } }
  match s.answer d tx with
  | .ok given =>
    let rx := received s.history 0 tx given
    .done ({ t with work := { t.work with rx := rx } }.record (.xfer d tx rx))
  | .fail =>
    if t.env.resetIn = some 0 then .stop .cut (t.record (.xferFail d tx))
    else .stop .bus ((t.record (.xferFail d tx)).tick.setCs d false)
  | .hang => .stop .hung t

/-- The offsets the host writes while the running request is busy (R74). -/
def racedOffsets (accesses : List Access) : List Nat :=
  accesses.filterMap fun a =>
    match a with
    | .write off _ => some off
    | .read _ => none

/-- The byte `DISP_WRITE_FRAME` streams for an offset: any value where the host wrote it meanwhile (R74, R175).
`DCS_RAMWR` issued alone streams the same, with the accesses its own move brings (log entry 8; DESIGN CHOICE). -/
def State.streamByte (s : State) (a : Nat) : Byte :=
  if a ∈ racedOffsets s.env.racing then Config.racedByte s.history a else Memory.read s.fb a

/-- `MemRead(0, FB_SIZE)` as it is streamed (R174, R175). -/
def State.frameBytes (s : State) : Bytes := (List.range' 0 Config.fbSize).map s.streamByte

/-- The next raw button level (R34): the next listed one, else a free one. -/
def State.rawButton (s : State) (i : Nat) : Bool :=
  match s.env.buttons with
  | b :: _ => b
  | [] => Config.buttonLevel s.history i

/-- One step of a request's micro-sequence (R21): the primitives of R12 and the assignments of the pseudocode. -/
inductive Op where
  | dstate (d : DState)                -- `DSTATE <- d`
  | line (l : Line) (b : Bool)         -- `SetLine`
  | cs (d : Device) (b : Bool)         -- `CsAssert`, `CsDeassert`
  | xfer (d : Device) (tx : Bytes)     -- `rx <- Xfer(d, tx)`
  | stream                             -- `Xfer(DISP, MemRead(0, FB_SIZE))`
  | arm (ms : Nat)                     -- `Wait(n)` begins
  | elapse                             -- `Wait(n)` is over
  | duty (n : Nat)                     -- `BL_DUTY <- n`
  | pixel (i : Nat) (color : U16)      -- `MemWrite(2*i, 2, enc16(color))`
  | channel (ch : Byte)                -- `ch`
  | sample                             -- `raw <- decodeRaw(rx)`, `out <- out ++ sample`
  | button (i : Nat)                   -- `p[i] <- NOT SampleLine(BTN_i)`
  deriving DecidableEq, Repr

/-- `WAIT` is recorded and `TIMER` idle again when the wait is over (R42, R281; log entry 15). -/
def State.elapse (s : State) : State :=
  match s.timer with
  | some ms => { s with timer := none }.record (.wait ms)
  | none => s

/-- `p[i] <- NOT SampleLine(BTN_i)`: no event, the level used up (R34, R180). -/
def State.sampleButton (s : State) (i : Nat) : State :=
  { s with
    work := { s.work with p := withBit 8 s.work.p i (!s.rawButton i) }
    env := { s.env with buttons := s.env.buttons.tail } }

/-- Append the sample of the received bytes to `out` (R205, R211). -/
def State.takeSample (s : State) : State :=
  { s with work := { s.work with out := s.work.out ++ [sampleOf s.work.ch s.work.rx] } }

/-- The effect of one micro-operation. -/
def Op.run (op : Op) (s : State) : Ran :=
  match op with
  | .dstate d => .done { s with dstate := d }
  | .line l b => .done (s.setLine l b)
  | .cs d b => .done (s.setCs d b)
  | .xfer d tx => s.xfer d tx
  | .stream => s.xfer .disp s.frameBytes
  | .arm ms => .done { s with timer := some ms }
  | .elapse => .done s.elapse
  | .duty n => .done ({ s with blDuty := n }.record (.bl n))
  | .pixel i color => .done { s with fb := Memory.writeList s.fb (2 * i) (enc16 color) }
  | .channel ch => .done { s with work := { s.work with ch := ch } }
  | .sample => .done s.takeSample
  | .button i => .done (s.sampleButton i)

/-- Run a micro-sequence in order (R21, R73) until its end, a failing or hanging transfer, or block reset. -/
def runOps (ops : List Op) (s : State) : Ran :=
  match ops with
  | [] => .done s
  | op :: rest =>
    if s.env.resetIn = some 0 then .stop .cut s
    else
      match op.run s.tick with
      | .done t => runOps rest t
      | .stop why t => .stop why t

/-- The byte a host read returns: while `DISP_CLEAR` runs, any value (R64, R74). While `DISP_WRITE_FRAME` runs or hangs
R74 forbids the read and names no outcome; the model returns any value there too, and for `DCS_RAMWR` alone (log entry 4;
DESIGN CHOICE). -/
def State.portRead (s : State) (off : Nat) : Byte :=
  match s.phase with
  | .busy (.dispClear _) _ => Config.racedRead s.history s.fbReads.length
  | .busy .dispWriteFrame _ => Config.racedRead s.history s.fbReads.length
  | .busy .dcsRamwr _ => Config.racedRead s.history s.fbReads.length
  | _ => Memory.read s.fb off

/-- A host access to the frame buffer (R64). A write lands whatever the block does, at one hung in `DISP_WRITE_FRAME` too
(log entry 4; DEDUCED). -/
def State.hostAccess (s : State) (a : Access) : State :=
  match a with
  | .write off v => { s with fb := Memory.write s.fb off v }
  | .read off => { s with fbReads := s.fbReads ++ [s.portRead off] }

/-- The accesses the host makes while the request is busy, in their order (R74). -/
def State.hostRaces (s : State) : State := s.env.racing.foldl State.hostAccess s

/-- The block takes a request (R37, R90): the port holds it, `REQ` is recorded, `SEQ_PHASE` is BUSY. -/
def State.take (s : State) (i : Instr) : State :=
  (({ s with phase := .busy i 0, reqPort := some (encode i), work := {} }).record (.req (encode i))).hostRaces

/-- A free byte at each of the offsets (R74). -/
def Memory.scramble (m : Memory) (h : List Event) (offsets : List Nat) : Memory :=
  offsets.foldl (fun m off => Memory.write m off (Config.racedByte h off)) m

/-- After `DISP_CLEAR`, every byte at an offset the host wrote meanwhile is any value (R74). After `DISP_WRITE_FRAME` it is the
host's byte: R74 calls the streamed byte unspecified there, and the model reads R312 as saying no more (log entry 4; DEDUCED). -/
def State.settleRaces (s : State) : State :=
  match s.phase with
  | .busy (.dispClear _) _ => { s with fb := Memory.scramble s.fb s.history (racedOffsets s.env.racing) }
  | _ => s

/-- `respond(status, payload)` (R110): the message goes to the response port, replacing the last one (R292). What the
outside did beside this request is over; the next request brings its own (log entries 4 and 5). -/
def State.respond (s : State) (r : Response) : State :=
  { s with
    history := s.history ++ [.resp r.message]
    respPort := some r
    reqPort := none
    phase := .idle
    work := {}
    env := { s.env with racing := [], resetIn := none } }

/-- Block reset (R43, R300, R302): every element at its reset value, no `LINE` and no `CS` event, one `RESET` in the
history; the frame buffer keeps its bytes. What is ahead of the block outside it stays; what the outside did beside the cut
request is over, and a later request may be cut by a block reset of its own (log entry 5). -/
def State.blockReset (s : State) : State :=
  { State.reset with
    fb := s.fb
    history := s.history ++ [.reset]
    fbReads := s.fbReads
    env := { s.env with racing := [], resetIn := none } }

/-- The request ends with a response, unless block reset arrives first (R302). -/
def State.conclude (s : State) (r : Response) : State :=
  if s.env.resetIn = some 0 then s.settleRaces.blockReset else s.settleRaces.respond r

/-- The response without a payload (R110). -/
def bare (e : Status) : Response := ⟨e, [], []⟩

/-- The abort rule of the running request: only `DISP_INIT` has one, for `BUS` (R166, R266). -/
def State.abortRule (s : State) (e : Status) : State :=
  match s.phase, e with
  | .busy .dispInit _, .bus => { s with dstate := .uninit }
  | _, _ => s

/-- `raise E` (R266): the abort rule, then a response of the status alone. Chip-selects are released by now (R137). -/
def State.raise (s : State) (e : Status) : State := (s.abortRule e).conclude (bare e)

/-- How a request's micro-sequence ends: at its end by `onDone`, after a failed transfer by `onBus`; hung for good (R270);
or cut by block reset (R302). -/
def Ran.finish (r : Ran) (onDone onBus : State → State) : State :=
  match r with
  | .done t => onDone t
  | .stop .bus t => onBus t
  | .stop .hung t => t
  | .stop .cut t => t.settleRaces.blockReset

/-- Serve a request that raises `BUS` when a transfer fails (R263) and answers `OK` otherwise. -/
def State.serve (s : State) (i : Instr) (ops : List Op) (result : State → Response) : State :=
  (runOps ops (s.take i)).finish (fun t => t.conclude (result t)) (fun t => t.raise .bus)

/-- A request refused before any event but its own (R261, R262). -/
def State.reject (s : State) (i : Instr) (e : Status) : State := (s.take i).raise e

/-- A message that does not decode: `ILLEGAL`, no effect, only `REQ` and `RESP` recorded (R95, R264). -/
def State.rejectMessage (s : State) (m : Bytes) : State :=
  ((s.record (.req m)).hostRaces).conclude (bare .illegal)

/-- `OK` without a payload (R112). -/
def okResponse (_ : State) : Response := bare .ok

/-- `OK` with the samples gathered, as records and as samples (R112, R113). -/
def samplesResponse (s : State) : Response := ⟨.ok, s.work.out.flatMap sampleRecord, s.work.out⟩

/-- The outcome of a meaning: a next state. -/
abbrev Outcome := Host.Outcome State Fault Refusal

/-- A transaction begins only while both chip-selects are deasserted (R135, R136). -/
def State.guarded (s t : State) : Outcome := if s.csDisp || s.csAdc then .fault .chipSelectHeld else .next t

/-- A request that uses the bus: refused by its checks, else served (R269). -/
def State.busRequest (s : State) (i : Instr) (ops : List Op) (result : State → Response) : Outcome :=
  match precheck i s.dstate with
  | some e => .next (s.reject i e)
  | none => s.guarded (s.serve i ops result)

/-- A request that uses no bus: refused by its checks, else served. -/
def State.lineRequest (s : State) (i : Instr) (ops : List Op) (result : State → Response) : Outcome :=
  match precheck i s.dstate with
  | some e => .next (s.reject i e)
  | none => .next (s.serve i ops result)

/-- A wire frame begins by itself: no request, so no `REQ`; the host's accesses beside it are made (log entries 4 and 8). -/
def State.begin (s : State) (i : Instr) : State := ({ s with phase := .busy i 0 } : State).hostRaces

/-- A wire frame ends by itself: no response, unless block reset arrives first (log entry 8, R302). -/
def State.retire (s : State) : State :=
  if s.env.resetIn = some 0 then s.blockReset
  else { s with phase := .idle, env := { s.env with racing := [], resetIn := none } }

/-- The block issues one wire frame by itself; a failed transfer has no one to report to (log entry 8). -/
def State.issue (s : State) (i : Instr) (ops : List Op) : State :=
  (runOps ops (s.begin i)).finish State.retire State.retire

/-- `Txn(d, body)` (R135): one chip-select window around the transfers of `body`. -/
def txn (d : Device) (body : List Bytes) : List Op := .cs d true :: (body.map (Op.xfer d) ++ [.cs d false])

/-- The data phase of a display command: nothing without data (R145). -/
def dataPhase (data : Bytes) : List Op := if data = [] then [] else .line .dc true :: txn .disp [data]

/-- `SendCommand(cmd, data)` (R145), `DCS_CS_MODE = SPLIT`. -/
def sendCommand (cmd : Byte) (data : Bytes) : List Op := (.line .dc false :: txn .disp [[cmd]]) ++ dataPhase data

/-- `Wait(n)` (R281). -/
def wait (ms : Nat) : List Op := [.arm ms, .elapse]

end Sys2Proof.Machine
end

