-- ==== Sys2Proof/Machine/Adc.lean ====
section
/-! DEFINITION. The ADC requests and frames (spec/42_adc.md). -/

namespace Sys2Proof.Machine

open Sys2Proof

/-- The 3-byte exchange of a channel in one chip-select window (R200, R205). -/
def adcExchange (ch : Byte) : List Op := .channel ch :: txn .adc [adcFrame ch]

/-- Read one channel: the exchange, then the decode (R202, R205). -/
def readChannel (ch : Byte) : List Op := adcExchange ch ++ [Op.sample]

/-- Channels 0 to 7, ascending, one window each (R211). -/
def sweep : List Op := [0, 1, 2, 3, 4, 5, 6, 7].flatMap fun (ch : Byte) => readChannel ch

/-- The self-test exchange in one window (R215). -/
def selftestExchange : List Op := txn .adc [selftestFrame]

/-- The self-test's answer is always `OK`; its payload says pass or fail (R112, R215). -/
def verdict (pass : Bool) : Response := ⟨.ok, [if pass then 0x01 else 0x00], []⟩

/-- `ADC_READ` (R205). -/
def execAdcRead (ch : Byte) (s : State) : Outcome := s.busRequest (.adcRead ch) (readChannel ch) samplesResponse

/-- `ADC_READ_ALL` (R211). -/
def execAdcReadAll (s : State) : Outcome := s.busRequest .adcReadAll sweep samplesResponse

/-- `ADC_SELFTEST` (R215): a failed transfer is caught and becomes the verdict 0x00 (R217, R272). -/
def execAdcSelftest (s : State) : Outcome :=
  s.guarded <|
    (runOps selftestExchange (s.take .adcSelftest)).finish
      (fun t => t.conclude (verdict (decide (t.work.rx = [0xFF, 0xFF]))))
      (fun t => t.conclude (verdict false))

/-- `ADC_FRAME` by itself: the exchange, its bytes received but not decoded (R200, R205). -/
def execAdcFrame (ch : Byte) (s : State) : Outcome := s.guarded (s.issue (.adcFrame ch) (adcExchange ch))

/-- `ADC_RESPONSE`: the decode of three received bytes, as a sample of the channel of the last request frame, appended to
the samples being gathered (R202, R204, R211). -/
def execAdcResponse (rx0 rx1 rx2 : Byte) (s : State) : Outcome :=
  .next (({ s with work := { s.work with rx := [rx0, rx1, rx2] } }).issue (.adcResponse rx0 rx1 rx2) [.sample])

/-- `ADC_SELFTEST_FRAME` by itself (R215). -/
def execAdcSelftestFrame (s : State) : Outcome := s.guarded (s.issue .adcSelftestFrame selftestExchange)

end Sys2Proof.Machine
end

