-- ==== Sys2Proof/Machine/Display.lean ====
section
/-! DEFINITION. The display requests (spec/41_display.md) and the display command frames (spec/30_encoding.md R120). -/

namespace Sys2Proof.Machine

open Sys2Proof

/-- Software reset, no data (R120). -/
def swreset : List Op := sendCommand 0x01 []

/-- Sleep-out, no data (R120). -/
def slpout : List Op := sendCommand 0x11 []

/-- Color mode, data 0x55: 16 bpp (R120). -/
def colmod : List Op := sendCommand 0x3A [0x55]

/-- Memory access control, data 0x00: default orientation (R120). -/
def madctl : List Op := sendCommand 0x36 [0x00]

/-- Display on, no data (R120). -/
def dispon : List Op := sendCommand 0x29 []

/-- Column-address-set (R120, R170). -/
def caset (x0 x1 : U16) : List Op := sendCommand 0x2A (windowBytes x0 x1)

/-- Row-address-set (R120, R170). -/
def raset (y0 y1 : U16) : List Op := sendCommand 0x2B (windowBytes y0 y1)

/-- Memory write: the command phase, then the whole frame buffer in one window and one transfer (R120, R139, R174). -/
def ramwr : List Op := sendCommand 0x2C [] ++ [Op.line .dc true, Op.cs .disp true, Op.stream, Op.cs .disp false]

/-- `EmitWindow` (R170). -/
def emitWindow (x0 y0 x1 y1 : U16) : List Op := caset x0 x1 ++ raset y0 y1

/-- The reset pulse (R161). -/
def resetSequence : List Op :=
  [Op.dstate .resetting, Op.line .rst false] ++ wait 50 ++ [Op.line .rst true] ++ wait 50

/-- The power-up command sequence with its delays and `DSTATE` (R165, R167). -/
def initSequence : List Op :=
  swreset ++ wait 150 ++ [Op.dstate .awakening] ++ slpout ++ wait 10 ++ [Op.dstate .colormode] ++ colmod ++
  [Op.dstate .addrmode] ++ madctl ++ dispon ++ wait 100 ++ [Op.dstate .on]

/-- The full-panel window, then the frame (R174). -/
def frameSequence : List Op := emitWindow 0 0 lastColumn lastRow ++ ramwr

/-- Write every pixel in ascending order (R177). -/
def clearSequence (color : U16) : List Op := (List.range' 0 Config.pixels).map fun i => .pixel i color

/-- The lines of the indicator, R then G then B (R183). -/
def ledSequence (rgb : Byte) : List Op :=
  [.line .ledR (rgb.getLsbD 0), .line .ledG (rgb.getLsbD 1), .line .ledB (rgb.getLsbD 2)]

/-- The four buttons, each sampled once, in order (R180). -/
def buttonSequence : List Op := [.button 0, .button 1, .button 2, .button 3]

/-- `OK` with the pressed bits (R112, R180). -/
def buttonsResponse (s : State) : Response := ⟨.ok, [s.work.p], []⟩

/-- `DISP_RESET` (R161). -/
def execDispReset (s : State) : Outcome := s.lineRequest .dispReset resetSequence okResponse

/-- `DISP_INIT` (R165, R166). -/
def execDispInit (s : State) : Outcome := s.busRequest .dispInit initSequence okResponse

/-- `DISP_SET_WINDOW` (R170). -/
def execDispSetWindow (x0 y0 x1 y1 : U16) (s : State) : Outcome :=
  s.busRequest (.dispSetWindow x0 y0 x1 y1) (emitWindow x0 y0 x1 y1) okResponse

/-- `DISP_WRITE_FRAME` (R174). -/
def execDispWriteFrame (s : State) : Outcome := s.busRequest .dispWriteFrame frameSequence okResponse

/-- `DISP_CLEAR` (R177). -/
def execDispClear (color : U16) (s : State) : Outcome := s.lineRequest (.dispClear color) (clearSequence color) okResponse

/-- `DISP_SET_BACKLIGHT` (R179). -/
def execDispSetBacklight (frac : BitVec 32) (s : State) : Outcome :=
  s.lineRequest (.dispSetBacklight frac) [.duty (dutyOf Config.pwmMax frac)] okResponse

/-- `BTN_READ` (R180). -/
def execBtnRead (s : State) : Outcome := s.lineRequest .btnRead buttonSequence buttonsResponse

/-- `LED_WRITE` (R183). -/
def execLedWrite (rgb : Byte) (s : State) : Outcome := s.lineRequest (.ledWrite rgb) (ledSequence rgb) okResponse

/-- `DCS_SWRESET` by itself (R120, R145). -/
def execDcsSwreset (s : State) : Outcome := s.guarded (s.issue .dcsSwreset swreset)

/-- `DCS_SLPOUT` by itself (R120, R145). -/
def execDcsSlpout (s : State) : Outcome := s.guarded (s.issue .dcsSlpout slpout)

/-- `DCS_COLMOD` by itself (R120, R145). -/
def execDcsColmod (s : State) : Outcome := s.guarded (s.issue .dcsColmod colmod)

/-- `DCS_MADCTL` by itself (R120, R145). -/
def execDcsMadctl (s : State) : Outcome := s.guarded (s.issue .dcsMadctl madctl)

/-- `DCS_DISPON` by itself (R120, R145). -/
def execDcsDispon (s : State) : Outcome := s.guarded (s.issue .dcsDispon dispon)

/-- `DCS_CASET` by itself (R120, R145, R173). -/
def execDcsCaset (x0 x1 : U16) (s : State) : Outcome := s.guarded (s.issue (.dcsCaset x0 x1) (caset x0 x1))

/-- `DCS_RASET` by itself (R120, R145, R173). -/
def execDcsRaset (y0 y1 : U16) (s : State) : Outcome := s.guarded (s.issue (.dcsRaset y0 y1) (raset y0 y1))

/-- `DCS_RAMWR` by itself: the data is the whole frame buffer (R120, R174). -/
def execDcsRamwr (s : State) : Outcome := s.guarded (s.issue .dcsRamwr ramwr)

end Sys2Proof.Machine
end

