-- ==== Sys2Proof/Machine/Mux.lean ====
section
/-! DEFINITION. The multiplexer requests and its address pattern (spec/43_mux.md). -/

namespace Sys2Proof.Machine

open Sys2Proof

/-- The four address lines, least-significant bit first (R241, R242). -/
def muxSequence (ch : Byte) : List Op :=
  [.line .muxA0 (channelBit ch 0), .line .muxA1 (channelBit ch 1), .line .muxA2 (channelBit ch 2),
   .line .muxA3 (channelBit ch 3)]

/-- The enable line driven to a level, where there is one (R244). -/
def enableSequence (hasMuxEn level : Bool) : List Op := if hasMuxEn then [.line .muxEnN level] else []

/-- `MUX_SELECT` (R242, R243). -/
def execMuxSelect (ch : Byte) (s : State) : Outcome := s.lineRequest (.muxSelect ch) (muxSequence ch) okResponse

/-- `MUX_ENABLE` (R244, R245): the enable is active-low. -/
def execMuxEnable (s : State) : Outcome := s.lineRequest .muxEnable (enableSequence Config.hasMuxEn false) okResponse

/-- `MUX_DISABLE` (R244, R246). -/
def execMuxDisable (s : State) : Outcome := s.lineRequest .muxDisable (enableSequence Config.hasMuxEn true) okResponse

/-- `MUX_ADDRESS` by itself: the line pattern of a channel (R241). -/
def execMuxAddress (ch : Byte) (s : State) : Outcome := .next (s.issue (.muxAddress ch) (muxSequence ch))

end Sys2Proof.Machine
end

