-- ==== Sys2Proof/Machine/Dispatch.lean ====
section
/-! DEFINITION. One arm per instruction (spec/opcode_table.json). -/

namespace Sys2Proof.Machine

open Sys2Proof

def exec (i : Instr) (s : State) : Host.Outcome State Fault Refusal :=
  match i with
  -- host requests, display unit
  | .dispReset => Sys2Proof.Machine.execDispReset s
  | .dispInit => Sys2Proof.Machine.execDispInit s
  | .dispSetWindow x0 y0 x1 y1 => Sys2Proof.Machine.execDispSetWindow x0 y0 x1 y1 s
  | .dispWriteFrame => Sys2Proof.Machine.execDispWriteFrame s
  | .dispClear color => Sys2Proof.Machine.execDispClear color s
  | .dispSetBacklight frac => Sys2Proof.Machine.execDispSetBacklight frac s
  | .btnRead => Sys2Proof.Machine.execBtnRead s
  | .ledWrite rgb => Sys2Proof.Machine.execLedWrite rgb s
  -- host requests, ADC unit
  | .adcRead ch => Sys2Proof.Machine.execAdcRead ch s
  | .adcReadAll => Sys2Proof.Machine.execAdcReadAll s
  | .adcSelftest => Sys2Proof.Machine.execAdcSelftest s
  -- host requests, multiplexer unit
  | .muxSelect ch => Sys2Proof.Machine.execMuxSelect ch s
  | .muxEnable => Sys2Proof.Machine.execMuxEnable s
  | .muxDisable => Sys2Proof.Machine.execMuxDisable s
  -- wire frames
  | .dcsSwreset => Sys2Proof.Machine.execDcsSwreset s
  | .dcsSlpout => Sys2Proof.Machine.execDcsSlpout s
  | .dcsColmod => Sys2Proof.Machine.execDcsColmod s
  | .dcsMadctl => Sys2Proof.Machine.execDcsMadctl s
  | .dcsDispon => Sys2Proof.Machine.execDcsDispon s
  | .dcsCaset x0 x1 => Sys2Proof.Machine.execDcsCaset x0 x1 s
  | .dcsRaset y0 y1 => Sys2Proof.Machine.execDcsRaset y0 y1 s
  | .dcsRamwr => Sys2Proof.Machine.execDcsRamwr s
  | .adcFrame ch => Sys2Proof.Machine.execAdcFrame ch s
  | .adcResponse rx0 rx1 rx2 => Sys2Proof.Machine.execAdcResponse rx0 rx1 rx2 s
  | .adcSelftestFrame => Sys2Proof.Machine.execAdcSelftestFrame s
  | .muxAddress ch => Sys2Proof.Machine.execMuxAddress ch s

end Sys2Proof.Machine
end

