-- ==== Sys2Proof/Machine/Port.lean ====
section
/-! DEFINITION. What the block does with what reaches it from outside: requests and frame-buffer accesses while idle
(spec/10_state.md R37, spec/20_memory.md R64), and what a hung block still does (spec/60_exceptions.md R270). -/

namespace Sys2Proof.Machine

open Sys2Proof

/-- The offset of an access. -/
def accessOffset (a : Access) : Nat :=
  match a with
  | .write off _ => off
  | .read off => off

/-- The first access of a list that is not admitted, beyond `FB_SIZE` (R64). -/
def notAdmitted (accesses : List Access) : Option Access :=
  accesses.find? fun a => decide (Config.fbSize ≤ accessOffset a)

/-- A request message at an idle block (R95): decoded and served, or answered `ILLEGAL`. The host's accesses meanwhile
must be admitted ones (R64). -/
def State.present (s : State) (m : Bytes) : Outcome :=
  match notAdmitted s.env.racing with
  | some a => .refused (.frameBufferRange (accessOffset a))
  | none =>
    match decodeRequest m with
    | .ok i => exec i s
    | .error _ => .next (s.rejectMessage m)

/-- A wire word the block is told to issue by itself. The host's accesses meanwhile must be admitted ones (R64). -/
def State.presentFrame (s : State) (l : Layer) (word : Bytes) : Outcome :=
  if l = .request then .refused .undecodedFrame
  else
    match notAdmitted s.env.racing with
    | some a => .refused (.frameBufferRange (accessOffset a))
    | none =>
      match decode l word with
      | .ok i => exec i s
      | .error _ => .refused .undecodedFrame

/-- A frame-buffer access through the host port (R64). -/
def State.presentAccess (s : State) (a : Access) : Outcome :=
  if Config.fbSize ≤ accessOffset a then .refused (.frameBufferRange (accessOffset a)) else .next (s.hostAccess a)

/-- What the outside does beside the request or frame that comes next (R74, R302). -/
def State.beside (s : State) (racing : List Access) (resetIn : Option Nat) : State :=
  { s with env := { s.env with racing := racing, resetIn := resetIn } }

/-- One move from outside at an idle block. -/
def State.whileIdle (s : State) (mv : Move) : Outcome :=
  match mv with
  | .request m racing resetIn => (s.beside racing resetIn).present m
  | .frame l word racing resetIn => (s.beside racing resetIn).presentFrame l word
  | .access a => s.presentAccess a
  | .takeResponse => .next { s with respPort := none }
  | .blockReset => .next s.blockReset

/-- One move from outside at a busy block, which between steps is a hung one (R270): it takes no request (R291), and only
block reset ends the hang (R316). -/
def State.whileHung (s : State) (mv : Move) : Outcome :=
  match mv with
  | .request _ _ _ => .refused .requestWhileBusy
  | .frame _ _ _ _ => .refused .requestWhileBusy
  | .access a => s.presentAccess a
  | .takeResponse => .next { s with respPort := none }
  | .blockReset => .next s.blockReset

/-- The state with the first move taken off the agenda. -/
def State.afterMove (s : State) (rest : List Move) : State := { s with env := { s.env with agenda := rest } }

/-- An idle block with nothing presented stays as it is (R301); a hung one has no step (R270). -/
def State.advance (s : State) : Outcome :=
  match s.phase, s.env.agenda with
  | .idle, [] => .next s
  | .idle, mv :: rest => (s.afterMove rest).whileIdle mv
  | .busy _ _, [] => .fault .hungTransfer
  | .busy _ _, mv :: rest => (s.afterMove rest).whileHung mv

/-- The move that presents an opcode-table word: a message at the request port, or a wire frame to issue, nothing from
outside beside it. -/
def tableMove (nbits w : Nat) : Move :=
  match readTableWord nbits w with
  | some (.request, word, _) => .request word [] none
  | some (l, word, _) => .frame l word [] none
  | none => .request (bytesUp ((nbits + 7) / 8) w) [] none

/-- The state with a move presented to an idle block before all else. -/
def State.withMove (s : State) (mv : Move) : State :=
  { s with phase := .idle, env := { s.env with agenda := mv :: s.env.agenda } }

end Sys2Proof.Machine
end

