-- ==== Sys2Proof/Machine/Step.lean ====
section
/-! DEFINITION. The step: the block serves what is presented to it next, a whole request at a time
(spec/10_state.md R37, spec/20_memory.md R75). -/

namespace Sys2Proof.Machine

open Sys2Proof

/-- One step of the machine. -/
def step (s : State) : Host.Outcome State Fault Refusal := s.advance

/-- `s` with an opcode-table word presented where the next step takes its instruction: first on the agenda of an idle
block, nothing from outside beside it (log entries 7 and 22). -/
def State.withFetchWord (s : State) (nbits w : Nat) : State := s.withMove (tableMove nbits w)

end Sys2Proof.Machine
end

