-- ==== Sys2Proof/Laws/Memory.lean ====
section
/-! SUPPORT. The frame buffer's laws: what a read after a write gives, and that every operation keeps the canonical form. -/

namespace Sys2Proof.Machine

open Sys2Proof

@[simp] theorem Memory.read_nil (a : Nat) : Memory.read [] a = Config.fbPowerUp a := rfl

theorem Memory.read_cons (b : Nat) (v : Byte) (t : Memory) (a : Nat) :
    Memory.read ((b, v) :: t) a = if b = a then v else Memory.read t a := rfl

/-- An offset that no entry lists reads as the power-up draw. -/
theorem Memory.read_unlisted (m : Memory) (a : Nat) (h : ∀ c ∈ m, c.1 ≠ a) : Memory.read m a = Config.fbPowerUp a := by
  induction m with
  | nil => rfl
  | cons c t ih =>
    obtain ⟨b, v⟩ := c
    have hb : b ≠ a := h (b, v) (by simp)
    rw [Memory.read_cons, if_neg hb]
    exact ih fun c hc => h c (by simp [hc])

theorem Memory.read_listed (a : Nat) (v : Byte) (t : Memory) (x : Nat) (ht : ∀ c ∈ t, c.1 ≠ a) :
    Memory.read (Memory.listed a v t) x = if x = a then v else Memory.read t x := by
  unfold Memory.listed
  split
  · next hv =>
    split
    · next hx => subst hx; rw [Memory.read_unlisted t x ht, hv]
    · rfl
  · rw [Memory.read_cons]
    by_cases hx : a = x
    · simp [hx]
    · simp [hx, Ne.symm hx]

/-- A sorted list whose first offset is `b` lists only offsets from `b` on. -/
theorem Memory.sorted_ne (a b : Nat) (w : Byte) (t : Memory)
    (hs : ((b, w) :: t : Memory).Pairwise fun x y => x.1 < y.1) (hab : a < b) : ∀ c ∈ ((b, w) :: t : Memory), c.1 ≠ a := by
  intro c hc
  rcases List.mem_cons.1 hc with rfl | hc
  · exact Nat.ne_of_gt hab
  · have : b < c.1 := (List.pairwise_cons.1 hs).1 c hc
    omega

/-- Read after write, every offset at once. -/
theorem Memory.read_put (m : Memory) (a : Nat) (v : Byte) (x : Nat)
    (hs : m.Pairwise fun p q => p.1 < q.1) :
    Memory.read (Memory.put m a v) x = if x = a then v else Memory.read m x := by
  induction m with
  | nil => exact Memory.read_listed a v [] x (by simp)
  | cons c t ih =>
    obtain ⟨b, w⟩ := c
    have ht := (List.pairwise_cons.1 hs)
    unfold Memory.put
    split
    · next hab => exact Memory.read_listed a v _ x (Memory.sorted_ne a b w t hs hab)
    · split
      · next hab =>
        subst hab
        rw [Memory.read_listed a v t x fun c hc => Nat.ne_of_gt (ht.1 c hc), Memory.read_cons]
        by_cases hx : x = a
        · simp [hx]
        · simp [hx, Ne.symm hx]
      · next hab hne =>
        rw [Memory.read_cons, Memory.read_cons, ih ht.2]
        by_cases hb : b = x
        · subst hb; simp [Ne.symm hne]
        · simp [hb]

theorem Memory.mem_listed (a : Nat) (v : Byte) (t : Memory) (c : Host.Cell) (h : c ∈ Memory.listed a v t) :
    c ∈ t ∨ (c = (a, v) ∧ v ≠ Config.fbPowerUp a) := by
  unfold Memory.listed at h
  split at h
  · exact .inl h
  · next hv =>
    rcases List.mem_cons.1 h with rfl | h
    · exact .inr ⟨rfl, hv⟩
    · exact .inl h

theorem Memory.mem_put (m : Memory) (a : Nat) (v : Byte) (c : Host.Cell) (h : c ∈ Memory.put m a v) :
    c ∈ m ∨ (c = (a, v) ∧ v ≠ Config.fbPowerUp a) := by
  induction m with
  | nil => exact Memory.mem_listed a v [] c h
  | cons d t ih =>
    obtain ⟨b, w⟩ := d
    unfold Memory.put at h
    split at h
    · exact Memory.mem_listed a v _ c h
    · split at h
      · rcases Memory.mem_listed a v _ c h with h | h
        · exact .inl (List.mem_cons_of_mem _ h)
        · exact .inr h
      · rcases List.mem_cons.1 h with rfl | h
        · exact .inl (by simp)
        · rcases ih h with h | h
          · exact .inl (List.mem_cons_of_mem _ h)
          · exact .inr h

theorem Memory.sorted_listed (a : Nat) (v : Byte) (t : Memory) (ht : t.Pairwise fun x y => x.1 < y.1)
    (hlt : ∀ c ∈ t, a < c.1) : (Memory.listed a v t).Pairwise fun x y => x.1 < y.1 := by
  unfold Memory.listed
  split
  · exact ht
  · exact List.pairwise_cons.2 ⟨hlt, ht⟩

theorem Memory.sorted_put (m : Memory) (a : Nat) (v : Byte) (hs : m.Pairwise fun x y => x.1 < y.1) :
    (Memory.put m a v).Pairwise fun x y => x.1 < y.1 := by
  induction m with
  | nil => exact Memory.sorted_listed a v [] .nil (by simp)
  | cons d t ih =>
    obtain ⟨b, w⟩ := d
    have ht := List.pairwise_cons.1 hs
    unfold Memory.put
    split
    · next hab =>
      refine Memory.sorted_listed a v _ hs fun c hc => ?_
      rcases List.mem_cons.1 hc with rfl | hc
      · exact hab
      · exact Nat.lt_trans hab (ht.1 c hc)
    · split
      · next hab => subst hab; exact Memory.sorted_listed a v t ht.2 ht.1
      · next hab hne =>
        refine List.pairwise_cons.2 ⟨fun c hc => ?_, ih ht.2⟩
        rcases Memory.mem_put t a v c hc with hc | ⟨rfl, -⟩
        · exact ht.1 c hc
        · exact Nat.lt_of_le_of_ne (Nat.le_of_not_lt hab) (Ne.symm hne)

/-- A write keeps the canonical form. -/
theorem Memory.wf_write (m : Memory) (a : Nat) (v : Byte) (h : Memory.wf m) : Memory.wf (Memory.write m a v) := by
  unfold Memory.write
  split
  · next ha =>
    refine ⟨Memory.sorted_put m a v h.1, fun c hc => ?_⟩
    rcases Memory.mem_put m a v c hc with hc | ⟨rfl, hv⟩
    · exact h.2 c hc
    · exact ⟨ha, hv⟩
  · exact h

/-- Read after write: the written offset gives the byte, every other offset what it gave. -/
theorem Memory.read_write (m : Memory) (a : Nat) (v : Byte) (x : Nat) (h : Memory.wf m) (ha : a < Config.fbSize) :
    Memory.read (Memory.write m a v) x = if x = a then v else Memory.read m x := by
  rw [Memory.write, if_pos ha, Memory.read_put m a v x h.1]

/-- A write to one offset leaves every other offset alone, in range or not. -/
theorem Memory.read_write_other (m : Memory) (a : Nat) (v : Byte) (x : Nat) (h : Memory.wf m) (hx : x ≠ a) :
    Memory.read (Memory.write m a v) x = Memory.read m x := by
  unfold Memory.write
  split
  · rw [Memory.read_put m a v x h.1, if_neg hx]
  · rfl

/-- Writing a list keeps the canonical form. -/
theorem Memory.wf_writeList (m : Memory) (a : Nat) (v : Bytes) (h : Memory.wf m) : Memory.wf (Memory.writeList m a v) := by
  induction v generalizing m a with
  | nil => exact h
  | cons b bs ih => exact ih _ _ (Memory.wf_write m a b h)

/-- Writing a list leaves every offset outside it alone. -/
theorem Memory.read_writeList_other (m : Memory) (a : Nat) (v : Bytes) (x : Nat) (h : Memory.wf m)
    (hx : x < a ∨ a + v.length ≤ x) : Memory.read (Memory.writeList m a v) x = Memory.read m x := by
  induction v generalizing m a with
  | nil => rfl
  | cons b bs ih =>
    simp only [List.length_cons] at hx
    rw [Memory.writeList, ih _ _ (Memory.wf_write m a b h) (by omega), Memory.read_write_other m a b x h (by omega)]

/-- The two bytes of a pixel after it is written (R62, R177). -/
theorem Memory.read_writePixel (m : Memory) (a : Nat) (hi lo : Byte) (h : Memory.wf m) (ha : a + 1 < Config.fbSize) :
    Memory.read (Memory.writeList m a [hi, lo]) a = hi ∧ Memory.read (Memory.writeList m a [hi, lo]) (a + 1) = lo := by
  have h1 := Memory.wf_write m a hi h
  simp only [Memory.writeList]
  rw [Memory.read_write _ _ _ _ h1 ha, Memory.read_write _ _ _ _ h1 ha, Memory.read_write _ _ _ _ h (by omega)]
  simp

@[simp] theorem Memory.length_readList (m : Memory) (a n : Nat) : (Memory.readList m a n).length = n := by
  simp [Memory.readList]

end Sys2Proof.Machine
end

