-- ==== Sys2Proof/Laws/State.lean ====
section
/-! SUPPORT. One lemma per field and update, so that no proof unfolds a record update. -/

namespace Sys2Proof.Machine

open Sys2Proof

@[simp] theorem State.record_phase (s : State) (e : Event) : (s.record e).phase = s.phase := rfl
@[simp] theorem State.record_dstate (s : State) (e : Event) : (s.record e).dstate = s.dstate := rfl
@[simp] theorem State.record_csDisp (s : State) (e : Event) : (s.record e).csDisp = s.csDisp := rfl
@[simp] theorem State.record_csAdc (s : State) (e : Event) : (s.record e).csAdc = s.csAdc := rfl
@[simp] theorem State.record_dc (s : State) (e : Event) : (s.record e).dc = s.dc := rfl
@[simp] theorem State.record_rst (s : State) (e : Event) : (s.record e).rst = s.rst := rfl
@[simp] theorem State.record_muxA (s : State) (e : Event) : (s.record e).muxA = s.muxA := rfl
@[simp] theorem State.record_muxEnN (s : State) (e : Event) : (s.record e).muxEnN = s.muxEnN := rfl
@[simp] theorem State.record_ledR (s : State) (e : Event) : (s.record e).ledR = s.ledR := rfl
@[simp] theorem State.record_ledG (s : State) (e : Event) : (s.record e).ledG = s.ledG := rfl
@[simp] theorem State.record_ledB (s : State) (e : Event) : (s.record e).ledB = s.ledB := rfl
@[simp] theorem State.record_blDuty (s : State) (e : Event) : (s.record e).blDuty = s.blDuty := rfl
@[simp] theorem State.record_timer (s : State) (e : Event) : (s.record e).timer = s.timer := rfl
@[simp] theorem State.record_fb (s : State) (e : Event) : (s.record e).fb = s.fb := rfl
@[simp] theorem State.record_reqPort (s : State) (e : Event) : (s.record e).reqPort = s.reqPort := rfl
@[simp] theorem State.record_respPort (s : State) (e : Event) : (s.record e).respPort = s.respPort := rfl
@[simp] theorem State.record_history (s : State) (e : Event) : (s.record e).history = s.history ++ [e] := rfl
@[simp] theorem State.record_work (s : State) (e : Event) : (s.record e).work = s.work := rfl
@[simp] theorem State.record_fbReads (s : State) (e : Event) : (s.record e).fbReads = s.fbReads := rfl
@[simp] theorem State.record_env (s : State) (e : Event) : (s.record e).env = s.env := rfl

@[simp] theorem State.tick_phase (s : State) : (s.tick).phase = s.phase.next := rfl
@[simp] theorem State.tick_dstate (s : State) : (s.tick).dstate = s.dstate := rfl
@[simp] theorem State.tick_csDisp (s : State) : (s.tick).csDisp = s.csDisp := rfl
@[simp] theorem State.tick_csAdc (s : State) : (s.tick).csAdc = s.csAdc := rfl
@[simp] theorem State.tick_dc (s : State) : (s.tick).dc = s.dc := rfl
@[simp] theorem State.tick_rst (s : State) : (s.tick).rst = s.rst := rfl
@[simp] theorem State.tick_muxA (s : State) : (s.tick).muxA = s.muxA := rfl
@[simp] theorem State.tick_muxEnN (s : State) : (s.tick).muxEnN = s.muxEnN := rfl
@[simp] theorem State.tick_ledR (s : State) : (s.tick).ledR = s.ledR := rfl
@[simp] theorem State.tick_ledG (s : State) : (s.tick).ledG = s.ledG := rfl
@[simp] theorem State.tick_ledB (s : State) : (s.tick).ledB = s.ledB := rfl
@[simp] theorem State.tick_blDuty (s : State) : (s.tick).blDuty = s.blDuty := rfl
@[simp] theorem State.tick_timer (s : State) : (s.tick).timer = s.timer := rfl
@[simp] theorem State.tick_fb (s : State) : (s.tick).fb = s.fb := rfl
@[simp] theorem State.tick_reqPort (s : State) : (s.tick).reqPort = s.reqPort := rfl
@[simp] theorem State.tick_respPort (s : State) : (s.tick).respPort = s.respPort := rfl
@[simp] theorem State.tick_history (s : State) : (s.tick).history = s.history := rfl
@[simp] theorem State.tick_work (s : State) : (s.tick).work = s.work := rfl
@[simp] theorem State.tick_fbReads (s : State) : (s.tick).fbReads = s.fbReads := rfl

@[simp] theorem State.tick_agenda (s : State) : s.tick.env.agenda = s.env.agenda := rfl
@[simp] theorem State.tick_replies (s : State) : s.tick.env.replies = s.env.replies := rfl
@[simp] theorem State.tick_buttons (s : State) : s.tick.env.buttons = s.env.buttons := rfl
@[simp] theorem State.tick_racing (s : State) : s.tick.env.racing = s.env.racing := rfl
@[simp] theorem State.tick_resetIn (s : State) : s.tick.env.resetIn = s.env.resetIn.map (· - 1) := rfl

@[simp] theorem State.respond_phase (s : State) (r : Response) : (s.respond r).phase = .idle := rfl
@[simp] theorem State.respond_dstate (s : State) (r : Response) : (s.respond r).dstate = s.dstate := rfl
@[simp] theorem State.respond_csDisp (s : State) (r : Response) : (s.respond r).csDisp = s.csDisp := rfl
@[simp] theorem State.respond_csAdc (s : State) (r : Response) : (s.respond r).csAdc = s.csAdc := rfl
@[simp] theorem State.respond_dc (s : State) (r : Response) : (s.respond r).dc = s.dc := rfl
@[simp] theorem State.respond_rst (s : State) (r : Response) : (s.respond r).rst = s.rst := rfl
@[simp] theorem State.respond_muxA (s : State) (r : Response) : (s.respond r).muxA = s.muxA := rfl
@[simp] theorem State.respond_muxEnN (s : State) (r : Response) : (s.respond r).muxEnN = s.muxEnN := rfl
@[simp] theorem State.respond_ledR (s : State) (r : Response) : (s.respond r).ledR = s.ledR := rfl
@[simp] theorem State.respond_ledG (s : State) (r : Response) : (s.respond r).ledG = s.ledG := rfl
@[simp] theorem State.respond_ledB (s : State) (r : Response) : (s.respond r).ledB = s.ledB := rfl
@[simp] theorem State.respond_blDuty (s : State) (r : Response) : (s.respond r).blDuty = s.blDuty := rfl
@[simp] theorem State.respond_timer (s : State) (r : Response) : (s.respond r).timer = s.timer := rfl
@[simp] theorem State.respond_fb (s : State) (r : Response) : (s.respond r).fb = s.fb := rfl
@[simp] theorem State.respond_reqPort (s : State) (r : Response) : (s.respond r).reqPort = none := rfl
@[simp] theorem State.respond_respPort (s : State) (r : Response) : (s.respond r).respPort = some r := rfl
@[simp] theorem State.respond_history (s : State) (r : Response) : (s.respond r).history = s.history ++ [.resp r.message] := rfl
@[simp] theorem State.respond_work (s : State) (r : Response) : (s.respond r).work = {} := rfl
@[simp] theorem State.respond_fbReads (s : State) (r : Response) : (s.respond r).fbReads = s.fbReads := rfl

@[simp] theorem State.respond_agenda (s : State) (r : Response) : (s.respond r).env.agenda = s.env.agenda := rfl
@[simp] theorem State.respond_replies (s : State) (r : Response) : (s.respond r).env.replies = s.env.replies := rfl
@[simp] theorem State.respond_buttons (s : State) (r : Response) : (s.respond r).env.buttons = s.env.buttons := rfl
@[simp] theorem State.respond_resetIn (s : State) (r : Response) : (s.respond r).env.resetIn = none := rfl
@[simp] theorem State.respond_racing (s : State) (r : Response) : (s.respond r).env.racing = [] := rfl

@[simp] theorem State.afterMove_phase (s : State) (rest : List Move) : (s.afterMove rest).phase = s.phase := rfl
@[simp] theorem State.afterMove_dstate (s : State) (rest : List Move) : (s.afterMove rest).dstate = s.dstate := rfl
@[simp] theorem State.afterMove_csDisp (s : State) (rest : List Move) : (s.afterMove rest).csDisp = s.csDisp := rfl
@[simp] theorem State.afterMove_csAdc (s : State) (rest : List Move) : (s.afterMove rest).csAdc = s.csAdc := rfl
@[simp] theorem State.afterMove_dc (s : State) (rest : List Move) : (s.afterMove rest).dc = s.dc := rfl
@[simp] theorem State.afterMove_rst (s : State) (rest : List Move) : (s.afterMove rest).rst = s.rst := rfl
@[simp] theorem State.afterMove_muxA (s : State) (rest : List Move) : (s.afterMove rest).muxA = s.muxA := rfl
@[simp] theorem State.afterMove_muxEnN (s : State) (rest : List Move) : (s.afterMove rest).muxEnN = s.muxEnN := rfl
@[simp] theorem State.afterMove_ledR (s : State) (rest : List Move) : (s.afterMove rest).ledR = s.ledR := rfl
@[simp] theorem State.afterMove_ledG (s : State) (rest : List Move) : (s.afterMove rest).ledG = s.ledG := rfl
@[simp] theorem State.afterMove_ledB (s : State) (rest : List Move) : (s.afterMove rest).ledB = s.ledB := rfl
@[simp] theorem State.afterMove_blDuty (s : State) (rest : List Move) : (s.afterMove rest).blDuty = s.blDuty := rfl
@[simp] theorem State.afterMove_timer (s : State) (rest : List Move) : (s.afterMove rest).timer = s.timer := rfl
@[simp] theorem State.afterMove_fb (s : State) (rest : List Move) : (s.afterMove rest).fb = s.fb := rfl
@[simp] theorem State.afterMove_reqPort (s : State) (rest : List Move) : (s.afterMove rest).reqPort = s.reqPort := rfl
@[simp] theorem State.afterMove_respPort (s : State) (rest : List Move) : (s.afterMove rest).respPort = s.respPort := rfl
@[simp] theorem State.afterMove_history (s : State) (rest : List Move) : (s.afterMove rest).history = s.history := rfl
@[simp] theorem State.afterMove_work (s : State) (rest : List Move) : (s.afterMove rest).work = s.work := rfl
@[simp] theorem State.afterMove_fbReads (s : State) (rest : List Move) : (s.afterMove rest).fbReads = s.fbReads := rfl

@[simp] theorem State.afterMove_replies (s : State) (rest : List Move) : (s.afterMove rest).env.replies = s.env.replies := rfl
@[simp] theorem State.afterMove_buttons (s : State) (rest : List Move) : (s.afterMove rest).env.buttons = s.env.buttons := rfl
@[simp] theorem State.afterMove_racing (s : State) (rest : List Move) : (s.afterMove rest).env.racing = s.env.racing := rfl
@[simp] theorem State.afterMove_resetIn (s : State) (rest : List Move) : (s.afterMove rest).env.resetIn = s.env.resetIn := rfl
@[simp] theorem State.afterMove_agenda (s : State) (rest : List Move) : (s.afterMove rest).env.agenda = rest := rfl

@[simp] theorem State.beside_phase (s : State) (l : List Access) (k : Option Nat) : (s.beside l k).phase = s.phase := rfl
@[simp] theorem State.beside_dstate (s : State) (l : List Access) (k : Option Nat) : (s.beside l k).dstate = s.dstate := rfl
@[simp] theorem State.beside_csDisp (s : State) (l : List Access) (k : Option Nat) : (s.beside l k).csDisp = s.csDisp := rfl
@[simp] theorem State.beside_csAdc (s : State) (l : List Access) (k : Option Nat) : (s.beside l k).csAdc = s.csAdc := rfl
@[simp] theorem State.beside_dc (s : State) (l : List Access) (k : Option Nat) : (s.beside l k).dc = s.dc := rfl
@[simp] theorem State.beside_rst (s : State) (l : List Access) (k : Option Nat) : (s.beside l k).rst = s.rst := rfl
@[simp] theorem State.beside_muxA (s : State) (l : List Access) (k : Option Nat) : (s.beside l k).muxA = s.muxA := rfl
@[simp] theorem State.beside_muxEnN (s : State) (l : List Access) (k : Option Nat) : (s.beside l k).muxEnN = s.muxEnN := rfl
@[simp] theorem State.beside_ledR (s : State) (l : List Access) (k : Option Nat) : (s.beside l k).ledR = s.ledR := rfl
@[simp] theorem State.beside_ledG (s : State) (l : List Access) (k : Option Nat) : (s.beside l k).ledG = s.ledG := rfl
@[simp] theorem State.beside_ledB (s : State) (l : List Access) (k : Option Nat) : (s.beside l k).ledB = s.ledB := rfl
@[simp] theorem State.beside_blDuty (s : State) (l : List Access) (k : Option Nat) : (s.beside l k).blDuty = s.blDuty := rfl
@[simp] theorem State.beside_timer (s : State) (l : List Access) (k : Option Nat) : (s.beside l k).timer = s.timer := rfl
@[simp] theorem State.beside_fb (s : State) (l : List Access) (k : Option Nat) : (s.beside l k).fb = s.fb := rfl
@[simp] theorem State.beside_reqPort (s : State) (l : List Access) (k : Option Nat) : (s.beside l k).reqPort = s.reqPort := rfl
@[simp] theorem State.beside_respPort (s : State) (l : List Access) (k : Option Nat) : (s.beside l k).respPort = s.respPort := rfl
@[simp] theorem State.beside_history (s : State) (l : List Access) (k : Option Nat) : (s.beside l k).history = s.history := rfl
@[simp] theorem State.beside_work (s : State) (l : List Access) (k : Option Nat) : (s.beside l k).work = s.work := rfl
@[simp] theorem State.beside_fbReads (s : State) (l : List Access) (k : Option Nat) : (s.beside l k).fbReads = s.fbReads := rfl

@[simp] theorem State.beside_agenda (s : State) (l : List Access) (k : Option Nat) : (s.beside l k).env.agenda = s.env.agenda := rfl
@[simp] theorem State.beside_replies (s : State) (l : List Access) (k : Option Nat) : (s.beside l k).env.replies = s.env.replies := rfl
@[simp] theorem State.beside_buttons (s : State) (l : List Access) (k : Option Nat) : (s.beside l k).env.buttons = s.env.buttons := rfl
@[simp] theorem State.beside_racing (s : State) (l : List Access) (k : Option Nat) : (s.beside l k).env.racing = l := rfl
@[simp] theorem State.beside_resetIn (s : State) (l : List Access) (k : Option Nat) : (s.beside l k).env.resetIn = k := rfl

@[simp] theorem State.blockReset_phase (s : State) : s.blockReset.phase = State.reset.phase := rfl
@[simp] theorem State.blockReset_dstate (s : State) : s.blockReset.dstate = State.reset.dstate := rfl
@[simp] theorem State.blockReset_csDisp (s : State) : s.blockReset.csDisp = State.reset.csDisp := rfl
@[simp] theorem State.blockReset_csAdc (s : State) : s.blockReset.csAdc = State.reset.csAdc := rfl
@[simp] theorem State.blockReset_dc (s : State) : s.blockReset.dc = State.reset.dc := rfl
@[simp] theorem State.blockReset_rst (s : State) : s.blockReset.rst = State.reset.rst := rfl
@[simp] theorem State.blockReset_muxA (s : State) : s.blockReset.muxA = State.reset.muxA := rfl
@[simp] theorem State.blockReset_muxEnN (s : State) : s.blockReset.muxEnN = State.reset.muxEnN := rfl
@[simp] theorem State.blockReset_ledR (s : State) : s.blockReset.ledR = State.reset.ledR := rfl
@[simp] theorem State.blockReset_ledG (s : State) : s.blockReset.ledG = State.reset.ledG := rfl
@[simp] theorem State.blockReset_ledB (s : State) : s.blockReset.ledB = State.reset.ledB := rfl
@[simp] theorem State.blockReset_blDuty (s : State) : s.blockReset.blDuty = State.reset.blDuty := rfl
@[simp] theorem State.blockReset_timer (s : State) : s.blockReset.timer = State.reset.timer := rfl
@[simp] theorem State.blockReset_fb (s : State) : s.blockReset.fb = s.fb := rfl
@[simp] theorem State.blockReset_reqPort (s : State) : s.blockReset.reqPort = State.reset.reqPort := rfl
@[simp] theorem State.blockReset_respPort (s : State) : s.blockReset.respPort = State.reset.respPort := rfl
@[simp] theorem State.blockReset_history (s : State) : s.blockReset.history = s.history ++ [.reset] := rfl
@[simp] theorem State.blockReset_work (s : State) : s.blockReset.work = State.reset.work := rfl
@[simp] theorem State.blockReset_fbReads (s : State) : s.blockReset.fbReads = s.fbReads := rfl
@[simp] theorem State.blockReset_agenda (s : State) : s.blockReset.env.agenda = s.env.agenda := rfl
@[simp] theorem State.blockReset_replies (s : State) : s.blockReset.env.replies = s.env.replies := rfl
@[simp] theorem State.blockReset_buttons (s : State) : s.blockReset.env.buttons = s.env.buttons := rfl
@[simp] theorem State.blockReset_racing (s : State) : s.blockReset.env.racing = [] := rfl
@[simp] theorem State.blockReset_resetIn (s : State) : s.blockReset.env.resetIn = none := rfl

@[simp] theorem State.setLine_phase (s : State) (l : Line) (b : Bool) : (s.setLine l b).phase = s.phase := by
  cases l <;> rfl
@[simp] theorem State.setLine_dstate (s : State) (l : Line) (b : Bool) : (s.setLine l b).dstate = s.dstate := by
  cases l <;> rfl
@[simp] theorem State.setLine_csDisp (s : State) (l : Line) (b : Bool) : (s.setLine l b).csDisp = s.csDisp := by
  cases l <;> rfl
@[simp] theorem State.setLine_csAdc (s : State) (l : Line) (b : Bool) : (s.setLine l b).csAdc = s.csAdc := by
  cases l <;> rfl
@[simp] theorem State.setLine_blDuty (s : State) (l : Line) (b : Bool) : (s.setLine l b).blDuty = s.blDuty := by
  cases l <;> rfl
@[simp] theorem State.setLine_timer (s : State) (l : Line) (b : Bool) : (s.setLine l b).timer = s.timer := by
  cases l <;> rfl
@[simp] theorem State.setLine_fb (s : State) (l : Line) (b : Bool) : (s.setLine l b).fb = s.fb := by
  cases l <;> rfl
@[simp] theorem State.setLine_reqPort (s : State) (l : Line) (b : Bool) : (s.setLine l b).reqPort = s.reqPort := by
  cases l <;> rfl
@[simp] theorem State.setLine_respPort (s : State) (l : Line) (b : Bool) : (s.setLine l b).respPort = s.respPort := by
  cases l <;> rfl
@[simp] theorem State.setLine_history (s : State) (l : Line) (b : Bool) : (s.setLine l b).history = s.history ++ [.line l b] := by
  cases l <;> rfl
@[simp] theorem State.setLine_work (s : State) (l : Line) (b : Bool) : (s.setLine l b).work = s.work := by
  cases l <;> rfl
@[simp] theorem State.setLine_fbReads (s : State) (l : Line) (b : Bool) : (s.setLine l b).fbReads = s.fbReads := by
  cases l <;> rfl
@[simp] theorem State.setLine_env (s : State) (l : Line) (b : Bool) : (s.setLine l b).env = s.env := by
  cases l <;> rfl
@[simp] theorem State.setLine_dc_dc (s : State) (b : Bool) : (s.setLine .dc b).dc = b := rfl
@[simp] theorem State.setLine_dc_rst (s : State) (b : Bool) : (s.setLine .dc b).rst = s.rst := rfl
@[simp] theorem State.setLine_dc_muxA (s : State) (b : Bool) : (s.setLine .dc b).muxA = s.muxA := rfl
@[simp] theorem State.setLine_dc_muxEnN (s : State) (b : Bool) : (s.setLine .dc b).muxEnN = s.muxEnN := rfl
@[simp] theorem State.setLine_dc_ledR (s : State) (b : Bool) : (s.setLine .dc b).ledR = s.ledR := rfl
@[simp] theorem State.setLine_dc_ledG (s : State) (b : Bool) : (s.setLine .dc b).ledG = s.ledG := rfl
@[simp] theorem State.setLine_dc_ledB (s : State) (b : Bool) : (s.setLine .dc b).ledB = s.ledB := rfl
@[simp] theorem State.setLine_rst_dc (s : State) (b : Bool) : (s.setLine .rst b).dc = s.dc := rfl
@[simp] theorem State.setLine_rst_rst (s : State) (b : Bool) : (s.setLine .rst b).rst = b := rfl
@[simp] theorem State.setLine_rst_muxA (s : State) (b : Bool) : (s.setLine .rst b).muxA = s.muxA := rfl
@[simp] theorem State.setLine_rst_muxEnN (s : State) (b : Bool) : (s.setLine .rst b).muxEnN = s.muxEnN := rfl
@[simp] theorem State.setLine_rst_ledR (s : State) (b : Bool) : (s.setLine .rst b).ledR = s.ledR := rfl
@[simp] theorem State.setLine_rst_ledG (s : State) (b : Bool) : (s.setLine .rst b).ledG = s.ledG := rfl
@[simp] theorem State.setLine_rst_ledB (s : State) (b : Bool) : (s.setLine .rst b).ledB = s.ledB := rfl
@[simp] theorem State.setLine_muxA0_dc (s : State) (b : Bool) : (s.setLine .muxA0 b).dc = s.dc := rfl
@[simp] theorem State.setLine_muxA0_rst (s : State) (b : Bool) : (s.setLine .muxA0 b).rst = s.rst := rfl
@[simp] theorem State.setLine_muxA0_muxA (s : State) (b : Bool) : (s.setLine .muxA0 b).muxA = withBit 4 s.muxA 0 b := rfl
@[simp] theorem State.setLine_muxA0_muxEnN (s : State) (b : Bool) : (s.setLine .muxA0 b).muxEnN = s.muxEnN := rfl
@[simp] theorem State.setLine_muxA0_ledR (s : State) (b : Bool) : (s.setLine .muxA0 b).ledR = s.ledR := rfl
@[simp] theorem State.setLine_muxA0_ledG (s : State) (b : Bool) : (s.setLine .muxA0 b).ledG = s.ledG := rfl
@[simp] theorem State.setLine_muxA0_ledB (s : State) (b : Bool) : (s.setLine .muxA0 b).ledB = s.ledB := rfl
@[simp] theorem State.setLine_muxA1_dc (s : State) (b : Bool) : (s.setLine .muxA1 b).dc = s.dc := rfl
@[simp] theorem State.setLine_muxA1_rst (s : State) (b : Bool) : (s.setLine .muxA1 b).rst = s.rst := rfl
@[simp] theorem State.setLine_muxA1_muxA (s : State) (b : Bool) : (s.setLine .muxA1 b).muxA = withBit 4 s.muxA 1 b := rfl
@[simp] theorem State.setLine_muxA1_muxEnN (s : State) (b : Bool) : (s.setLine .muxA1 b).muxEnN = s.muxEnN := rfl
@[simp] theorem State.setLine_muxA1_ledR (s : State) (b : Bool) : (s.setLine .muxA1 b).ledR = s.ledR := rfl
@[simp] theorem State.setLine_muxA1_ledG (s : State) (b : Bool) : (s.setLine .muxA1 b).ledG = s.ledG := rfl
@[simp] theorem State.setLine_muxA1_ledB (s : State) (b : Bool) : (s.setLine .muxA1 b).ledB = s.ledB := rfl
@[simp] theorem State.setLine_muxA2_dc (s : State) (b : Bool) : (s.setLine .muxA2 b).dc = s.dc := rfl
@[simp] theorem State.setLine_muxA2_rst (s : State) (b : Bool) : (s.setLine .muxA2 b).rst = s.rst := rfl
@[simp] theorem State.setLine_muxA2_muxA (s : State) (b : Bool) : (s.setLine .muxA2 b).muxA = withBit 4 s.muxA 2 b := rfl
@[simp] theorem State.setLine_muxA2_muxEnN (s : State) (b : Bool) : (s.setLine .muxA2 b).muxEnN = s.muxEnN := rfl
@[simp] theorem State.setLine_muxA2_ledR (s : State) (b : Bool) : (s.setLine .muxA2 b).ledR = s.ledR := rfl
@[simp] theorem State.setLine_muxA2_ledG (s : State) (b : Bool) : (s.setLine .muxA2 b).ledG = s.ledG := rfl
@[simp] theorem State.setLine_muxA2_ledB (s : State) (b : Bool) : (s.setLine .muxA2 b).ledB = s.ledB := rfl
@[simp] theorem State.setLine_muxA3_dc (s : State) (b : Bool) : (s.setLine .muxA3 b).dc = s.dc := rfl
@[simp] theorem State.setLine_muxA3_rst (s : State) (b : Bool) : (s.setLine .muxA3 b).rst = s.rst := rfl
@[simp] theorem State.setLine_muxA3_muxA (s : State) (b : Bool) : (s.setLine .muxA3 b).muxA = withBit 4 s.muxA 3 b := rfl
@[simp] theorem State.setLine_muxA3_muxEnN (s : State) (b : Bool) : (s.setLine .muxA3 b).muxEnN = s.muxEnN := rfl
@[simp] theorem State.setLine_muxA3_ledR (s : State) (b : Bool) : (s.setLine .muxA3 b).ledR = s.ledR := rfl
@[simp] theorem State.setLine_muxA3_ledG (s : State) (b : Bool) : (s.setLine .muxA3 b).ledG = s.ledG := rfl
@[simp] theorem State.setLine_muxA3_ledB (s : State) (b : Bool) : (s.setLine .muxA3 b).ledB = s.ledB := rfl
@[simp] theorem State.setLine_muxEnN_dc (s : State) (b : Bool) : (s.setLine .muxEnN b).dc = s.dc := rfl
@[simp] theorem State.setLine_muxEnN_rst (s : State) (b : Bool) : (s.setLine .muxEnN b).rst = s.rst := rfl
@[simp] theorem State.setLine_muxEnN_muxA (s : State) (b : Bool) : (s.setLine .muxEnN b).muxA = s.muxA := rfl
@[simp] theorem State.setLine_muxEnN_muxEnN (s : State) (b : Bool) : (s.setLine .muxEnN b).muxEnN = b := rfl
@[simp] theorem State.setLine_muxEnN_ledR (s : State) (b : Bool) : (s.setLine .muxEnN b).ledR = s.ledR := rfl
@[simp] theorem State.setLine_muxEnN_ledG (s : State) (b : Bool) : (s.setLine .muxEnN b).ledG = s.ledG := rfl
@[simp] theorem State.setLine_muxEnN_ledB (s : State) (b : Bool) : (s.setLine .muxEnN b).ledB = s.ledB := rfl
@[simp] theorem State.setLine_ledR_dc (s : State) (b : Bool) : (s.setLine .ledR b).dc = s.dc := rfl
@[simp] theorem State.setLine_ledR_rst (s : State) (b : Bool) : (s.setLine .ledR b).rst = s.rst := rfl
@[simp] theorem State.setLine_ledR_muxA (s : State) (b : Bool) : (s.setLine .ledR b).muxA = s.muxA := rfl
@[simp] theorem State.setLine_ledR_muxEnN (s : State) (b : Bool) : (s.setLine .ledR b).muxEnN = s.muxEnN := rfl
@[simp] theorem State.setLine_ledR_ledR (s : State) (b : Bool) : (s.setLine .ledR b).ledR = b := rfl
@[simp] theorem State.setLine_ledR_ledG (s : State) (b : Bool) : (s.setLine .ledR b).ledG = s.ledG := rfl
@[simp] theorem State.setLine_ledR_ledB (s : State) (b : Bool) : (s.setLine .ledR b).ledB = s.ledB := rfl
@[simp] theorem State.setLine_ledG_dc (s : State) (b : Bool) : (s.setLine .ledG b).dc = s.dc := rfl
@[simp] theorem State.setLine_ledG_rst (s : State) (b : Bool) : (s.setLine .ledG b).rst = s.rst := rfl
@[simp] theorem State.setLine_ledG_muxA (s : State) (b : Bool) : (s.setLine .ledG b).muxA = s.muxA := rfl
@[simp] theorem State.setLine_ledG_muxEnN (s : State) (b : Bool) : (s.setLine .ledG b).muxEnN = s.muxEnN := rfl
@[simp] theorem State.setLine_ledG_ledR (s : State) (b : Bool) : (s.setLine .ledG b).ledR = s.ledR := rfl
@[simp] theorem State.setLine_ledG_ledG (s : State) (b : Bool) : (s.setLine .ledG b).ledG = b := rfl
@[simp] theorem State.setLine_ledG_ledB (s : State) (b : Bool) : (s.setLine .ledG b).ledB = s.ledB := rfl
@[simp] theorem State.setLine_ledB_dc (s : State) (b : Bool) : (s.setLine .ledB b).dc = s.dc := rfl
@[simp] theorem State.setLine_ledB_rst (s : State) (b : Bool) : (s.setLine .ledB b).rst = s.rst := rfl
@[simp] theorem State.setLine_ledB_muxA (s : State) (b : Bool) : (s.setLine .ledB b).muxA = s.muxA := rfl
@[simp] theorem State.setLine_ledB_muxEnN (s : State) (b : Bool) : (s.setLine .ledB b).muxEnN = s.muxEnN := rfl
@[simp] theorem State.setLine_ledB_ledR (s : State) (b : Bool) : (s.setLine .ledB b).ledR = s.ledR := rfl
@[simp] theorem State.setLine_ledB_ledG (s : State) (b : Bool) : (s.setLine .ledB b).ledG = s.ledG := rfl
@[simp] theorem State.setLine_ledB_ledB (s : State) (b : Bool) : (s.setLine .ledB b).ledB = b := rfl

@[simp] theorem State.setCs_phase (s : State) (d : Device) (b : Bool) : (s.setCs d b).phase = s.phase := by
  cases d <;> rfl
@[simp] theorem State.setCs_dstate (s : State) (d : Device) (b : Bool) : (s.setCs d b).dstate = s.dstate := by
  cases d <;> rfl
@[simp] theorem State.setCs_dc (s : State) (d : Device) (b : Bool) : (s.setCs d b).dc = s.dc := by
  cases d <;> rfl
@[simp] theorem State.setCs_rst (s : State) (d : Device) (b : Bool) : (s.setCs d b).rst = s.rst := by
  cases d <;> rfl
@[simp] theorem State.setCs_muxA (s : State) (d : Device) (b : Bool) : (s.setCs d b).muxA = s.muxA := by
  cases d <;> rfl
@[simp] theorem State.setCs_muxEnN (s : State) (d : Device) (b : Bool) : (s.setCs d b).muxEnN = s.muxEnN := by
  cases d <;> rfl
@[simp] theorem State.setCs_ledR (s : State) (d : Device) (b : Bool) : (s.setCs d b).ledR = s.ledR := by
  cases d <;> rfl
@[simp] theorem State.setCs_ledG (s : State) (d : Device) (b : Bool) : (s.setCs d b).ledG = s.ledG := by
  cases d <;> rfl
@[simp] theorem State.setCs_ledB (s : State) (d : Device) (b : Bool) : (s.setCs d b).ledB = s.ledB := by
  cases d <;> rfl
@[simp] theorem State.setCs_blDuty (s : State) (d : Device) (b : Bool) : (s.setCs d b).blDuty = s.blDuty := by
  cases d <;> rfl
@[simp] theorem State.setCs_timer (s : State) (d : Device) (b : Bool) : (s.setCs d b).timer = s.timer := by
  cases d <;> rfl
@[simp] theorem State.setCs_fb (s : State) (d : Device) (b : Bool) : (s.setCs d b).fb = s.fb := by
  cases d <;> rfl
@[simp] theorem State.setCs_reqPort (s : State) (d : Device) (b : Bool) : (s.setCs d b).reqPort = s.reqPort := by
  cases d <;> rfl
@[simp] theorem State.setCs_respPort (s : State) (d : Device) (b : Bool) : (s.setCs d b).respPort = s.respPort := by
  cases d <;> rfl
@[simp] theorem State.setCs_history (s : State) (d : Device) (b : Bool) : (s.setCs d b).history = s.history ++ [.cs d b] := by
  cases d <;> rfl
@[simp] theorem State.setCs_work (s : State) (d : Device) (b : Bool) : (s.setCs d b).work = s.work := by
  cases d <;> rfl
@[simp] theorem State.setCs_fbReads (s : State) (d : Device) (b : Bool) : (s.setCs d b).fbReads = s.fbReads := by
  cases d <;> rfl
@[simp] theorem State.setCs_env (s : State) (d : Device) (b : Bool) : (s.setCs d b).env = s.env := by
  cases d <;> rfl
@[simp] theorem State.setCs_disp_csDisp (s : State) (b : Bool) : (s.setCs .disp b).csDisp = b := rfl
@[simp] theorem State.setCs_disp_csAdc (s : State) (b : Bool) : (s.setCs .disp b).csAdc = s.csAdc := rfl
@[simp] theorem State.setCs_adc_csDisp (s : State) (b : Bool) : (s.setCs .adc b).csDisp = s.csDisp := rfl
@[simp] theorem State.setCs_adc_csAdc (s : State) (b : Bool) : (s.setCs .adc b).csAdc = b := rfl

end Sys2Proof.Machine
end

