-- ==== Sys2Proof/Machine/Observe.lean ====
section
/-! DEFINITION. Views of the state and of the history that the spec speaks of but that are no state of their own:
electrical levels (spec/30_encoding.md R123), the bus configuration (spec/40_transaction.md R141), bit order
(spec/20_memory.md R60), the waits (spec/70_reset_and_hazards.md R320) and the multiplexer's addresses (R313). -/

namespace Sys2Proof.Machine

open Sys2Proof

/-- Is a device's chip-select asserted (R26)? -/
def State.selected (s : State) (d : Device) : Bool :=
  match d with
  | .disp => s.csDisp
  | .adc => s.csAdc

/-- The electrical level of a chip-select line (R26, R123). -/
def State.csLevel (s : State) (d : Device) : Bool := if s.selected d then Config.csActiveLevel else !Config.csActiveLevel

/-- The device whose window is open, none between transactions (R135, R142). -/
def State.openWindow (s : State) : Option Device := if s.csDisp then some .disp else if s.csAdc then some .adc else none

/-- The bus configuration in force (R45, R141): in a window that of the selected device, which the bus took before the
chip-select. Between windows it is one of the two devices', and which one is free, because R141 fixes no moment of the change
(log entry 13; DESIGN CHOICE). -/
def State.busConfig (s : State) : Config.SpiConfig := Config.spi (s.openWindow.getD (Config.gapDevice s.history))

/-- The state's chip-selects and history as they are after one more event (R26, R133, R302). -/
def State.afterEvent (s : State) (e : Event) : State :=
  match e with
  | .cs d b => (s.select d b).record e
  | .reset => { s with csDisp := false, csAdc := false }.record e
  | _ => s.record e

/-- The state's chip-selects and history as they are after some more events, its other elements as they were: what a
view of them sees in the middle of a request. -/
def State.replay (s : State) (events : List Event) : State := events.foldl State.afterEvent s

/-- The bits of a byte in the order they are shifted, most-significant first (R60, D9). -/
def shiftedBits (b : Byte) : List Bool := (List.range' 0 8).map fun i => b.getLsbD (7 - i)

/-- The bits of a transfer in the order they are shifted (R60). -/
def wireBits (tx : Bytes) : List Bool := tx.flatMap shiftedBits

/-- The sum of the waits' lower bounds in a history, in milliseconds (R281, R320). -/
def waitTotal (h : List Event) : Nat :=
  match h with
  | [] => 0
  | .wait ms :: t => ms + waitTotal t
  | _ :: t => waitTotal t

/-- The address after one event (R241). -/
def addressAfter (a : BitVec 4) (e : Event) : BitVec 4 :=
  match e with
  | .line .muxA0 b => withBit 4 a 0 b
  | .line .muxA1 b => withBit 4 a 1 b
  | .line .muxA2 b => withBit 4 a 2 b
  | .line .muxA3 b => withBit 4 a 3 b
  | _ => a

/-- The addresses the multiplexer sees while a list of events happens, from the one it had before (R313). -/
def addressTrail (a : BitVec 4) (h : List Event) : List (BitVec 4) :=
  match h with
  | [] => []
  | e :: t => addressAfter a e :: addressTrail (addressAfter a e) t

/-- The level of `DC` after one event (R27, R43). -/
def dcAfter (dc : Bool) (e : Event) : Bool :=
  match e with
  | .line .dc b => b
  | .reset => false
  | _ => dc

/-- The bytes an event sends to a device, whole or in part (R131). -/
def sentTo (d : Device) (e : Event) : Option Bytes :=
  match e with
  | .xfer d' tx _ => if d' = d then some tx else none
  | .xferFail d' tx => if d' = d then some tx else none
  | _ => none

/-- What a history sends to the display, each transfer with the level of `DC` it has (R121, R145). -/
def displayTransfers (dc : Bool) (h : List Event) : List (Bool × Bytes) :=
  match h with
  | [] => []
  | e :: t =>
    match sentTo .disp e with
    | some tx => (dc, tx) :: displayTransfers dc t
    | none => displayTransfers (dcAfter dc e) t

end Sys2Proof.Machine
end

