-- ==== Sys2Proof/Safety.lean ====
section
/-! DEFINITION. What counts as a good state and a good history: the chip-select discipline of spec/40_transaction.md
(R134 to R138), the canonical frame buffer, and the states a waiting block may be in. The words the statements use for a
request that runs undisturbed. -/

namespace Sys2Proof.Machine

open Sys2Proof

/-- The window after one event, none where the event breaks the discipline: a chip-select is asserted only while none is;
transfers of a device lie in its window (R134), are not empty and receive as many bytes as they send (R131); no other event
lies in a window (R138); block reset ends any window without a `CS` event (R302). -/
def windowAfter (w : Option Device) (e : Event) : Option (Option Device) :=
  match e with
  | .cs d true => if w = none then some (some d) else none
  | .cs d false => if w = some d then some none else none
  | .xfer d tx rx => if w = some d ∧ tx ≠ [] ∧ rx.length = tx.length then some w else none
  | .xferFail d tx => if w = some d ∧ tx ≠ [] then some w else none
  | .line _ _ => if w = none then some none else none
  | .bl _ => if w = none then some none else none
  | .wait _ => if w = none then some none else none
  | .req _ => if w = none then some none else none
  | .resp _ => if w = none then some none else none
  | .reset => some none

/-- The window after a list of events, from the one before it. -/
def windowTrail (w : Option Device) (h : List Event) : Option (Option Device) :=
  match h with
  | [] => some w
  | e :: t =>
    match windowAfter w e with
    | some v => windowTrail v t
    | none => none

/-- The states between requests (R24): the middle ones exist only while `DISP_INIT` runs. -/
def restingState (d : DState) : Prop := d = .uninit ∨ d = .resetting ∨ d = .on

/-- The invariant of the machine. -/
structure Invariant (s : State) : Prop where
  /-- The history keeps the discipline, and the open window is that of the asserted chip-select. -/
  windowed : windowTrail none s.history = some s.openWindow
  /-- At most one chip-select is asserted (R136). -/
  exclusive : ¬(s.csDisp = true ∧ s.csAdc = true)
  /-- A waiting block has released both (R135, R137), waits for nothing and holds no request (R37). -/
  resting : s.phase = .idle →
    s.csDisp = false ∧ s.csAdc = false ∧ s.timer = none ∧ s.reqPort = none ∧ restingState s.dstate
  /-- The frame buffer is in canonical form. -/
  canonical : Memory.wf s.fb
  /-- `BL_DUTY` is in 0 to `PWM_MAX` (R33). -/
  dutyBounded : s.blDuty ≤ Config.pwmMax

/-- Nothing from outside reaches the block inside the next request: no frame-buffer access (R74), no block reset (R302). -/
def Quiet (s : State) : Prop := s.env.racing = [] ∧ s.env.resetIn = none

/-- Both chip-selects are deasserted (R135). -/
def BusFree (s : State) : Prop := s.csDisp = false ∧ s.csAdc = false

/-- What an undisturbed request leaves on a state whose other fields already have its effect: its events between `REQ` and
`RESP`, its response at the port, the block idle (R110). -/
def State.served (s : State) (i : Instr) (events : List Event) (r : Response) : State :=
  { s with
    history := s.history ++ (.req (encode i) :: events ++ [.resp r.message])
    respPort := some r
    reqPort := none
    phase := .idle
    work := {} }

/-- The state with `n` replies of the bus oracle used up. -/
def State.afterReplies (s : State) (n : Nat) : State := { s with env := { s.env with replies := s.env.replies.drop n } }

/-- The events of a transaction with one transfer that succeeds (R135). -/
def windowEvents (d : Device) (tx rx : Bytes) : List Event := [.cs d true, .xfer d tx rx, .cs d false]

/-- The events of a transaction whose transfer fails (R135, R137). -/
def failedWindow (d : Device) (tx : Bytes) : List Event := [.cs d true, .xferFail d tx, .cs d false]

/-- The events of a command phase (R145, R148). -/
def commandPhase (cmd : Byte) (rx : Bytes) : List Event := .line .dc false :: windowEvents .disp [cmd] rx

/-- The events of a data phase (R145, R148). -/
def dataEvents (data rx : Bytes) : List Event := .line .dc true :: windowEvents .disp data rx

/-- The events of a display command with data (R148). -/
def commandEvents (cmd : Byte) (data rc rd : Bytes) : List Event := commandPhase cmd rc ++ dataEvents data rd

/-- The events of `EmitWindow` (R170). -/
def windowProtocol (x0 y0 x1 y1 : U16) (r1 r2 r3 r4 : Bytes) : List Event :=
  commandEvents 0x2A (windowBytes x0 x1) r1 r2 ++ commandEvents 0x2B (windowBytes y0 y1) r3 r4

/-- What an undisturbed wire frame leaves on a state whose other fields already have its effect: its events, the bytes of
its last transfer, the block idle. -/
def State.issued (s : State) (events : List Event) (rx : Bytes) : State :=
  { s with history := s.history ++ events, work := { s.work with rx := rx }, phase := .idle }

/-- Bit `i` is the inverse of raw level `i`, bits 7:4 are 0 (R112, R180). -/
def pressedByte (raw : Nat → Bool) : Byte :=
  BitVec.ofNat 8 ((if raw 0 then 0 else 1) + (if raw 1 then 0 else 2) + (if raw 2 then 0 else 4) + (if raw 3 then 0 else 8))

/-- The events of the exchanges of an ADC sweep, from a channel on (R211). -/
def sweepEvents (ch : Nat) (replies : List Bytes) : List Event :=
  match replies with
  | [] => []
  | rx :: rest => windowEvents .adc (adcFrame (BitVec.ofNat 8 ch)) rx ++ sweepEvents (ch + 1) rest

/-- The samples of an ADC sweep, from a channel on (R211). -/
def sweepSamples (ch : Nat) (replies : List Bytes) : List Sample :=
  match replies with
  | [] => []
  | rx :: rest => sampleOf (BitVec.ofNat 8 ch) rx :: sweepSamples (ch + 1) rest

/-- The transfers an instruction makes when it runs to its end, in order, with the frame buffer it streams (R120, R165,
R170, R174, R200, R205, R211, R215; R148 for the wire frames). -/
def transfersOf (i : Instr) (fb : Memory) : List (Device × Bytes) :=
  match i with
  | .dispInit =>
    [(.disp, [0x01]), (.disp, [0x11]), (.disp, [0x3A]), (.disp, [0x55]), (.disp, [0x36]), (.disp, [0x00]), (.disp, [0x29])]
  | .dispSetWindow x0 y0 x1 y1 =>
    [(.disp, [0x2A]), (.disp, enc16 x0 ++ enc16 x1), (.disp, [0x2B]), (.disp, enc16 y0 ++ enc16 y1)]
  | .dispWriteFrame =>
    [(.disp, [0x2A]), (.disp, [0x00, 0x00, 0x01, 0x3F]), (.disp, [0x2B]), (.disp, [0x00, 0x00, 0x00, 0xEF]),
     (.disp, [0x2C]), (.disp, Memory.readList fb 0 Config.fbSize)]
  | .adcRead ch => [(.adc, adcFrame ch)]
  | .adcReadAll => [0, 1, 2, 3, 4, 5, 6, 7].map fun (ch : Byte) => (.adc, adcFrame ch)
  | .adcSelftest => [(.adc, [0xFF, 0xFF])]
  | .dispReset | .dispClear _ | .dispSetBacklight _ | .btnRead | .ledWrite _ | .muxSelect _ | .muxEnable
  | .muxDisable => []
  | .dcsSwreset => [(.disp, [0x01])]
  | .dcsSlpout => [(.disp, [0x11])]
  | .dcsColmod => [(.disp, [0x3A]), (.disp, [0x55])]
  | .dcsMadctl => [(.disp, [0x36]), (.disp, [0x00])]
  | .dcsDispon => [(.disp, [0x29])]
  | .dcsCaset x0 x1 => [(.disp, [0x2A]), (.disp, enc16 x0 ++ enc16 x1)]
  | .dcsRaset y0 y1 => [(.disp, [0x2B]), (.disp, enc16 y0 ++ enc16 y1)]
  | .dcsRamwr => [(.disp, [0x2C]), (.disp, Memory.readList fb 0 Config.fbSize)]
  | .adcFrame ch => [(.adc, adcFrame ch)]
  | .adcSelftestFrame => [(.adc, [0xFF, 0xFF])]
  | .adcResponse .. | .muxAddress _ => []

/-- The transfer that an event shows completed (R131). -/
def completedTransfer (e : Event) : Option (Device × Bytes) :=
  match e with
  | .xfer d tx _ => some (d, tx)
  | _ => none

/-- What an instruction records first: a request its `REQ`, a wire frame nothing (R110; log entry 8). -/
def opening (i : Instr) : List Event := if i.layer = .request then [.req (encode i)] else []

/-- What an instruction whose transfer failed answers: a request its response, a wire frame nothing (R215, R263; log
entry 8). -/
def failureResponse (i : Instr) : Option Response :=
  if i.layer ≠ .request then none
  else if i = .adcSelftest then some ⟨.ok, [0x00], []⟩
  else some ⟨.bus, [], []⟩

/-- `DSTATE` while `DISP_INIT` makes its transfer number `n`, from 0 (the table of R167). -/
def initState (n : Nat) : DState :=
  if n = 0 then .resetting else if n = 1 then .awakening else if n ≤ 3 then .colormode else .addrmode

/-- The frame buffer after host accesses that nothing races with, in their order (R64, R74). -/
def writtenBy (m : Memory) (accesses : List Access) : Memory :=
  match accesses with
  | [] => m
  | .write off v :: rest => writtenBy (Memory.write m off v) rest
  | .read _ :: rest => writtenBy m rest

/-- The bytes that host accesses return where nothing races with them, in their order (R64, R74). -/
def readBy (m : Memory) (accesses : List Access) : Bytes :=
  match accesses with
  | [] => []
  | .write off v :: rest => readBy (Memory.write m off v) rest
  | .read off :: rest => Memory.read m off :: readBy m rest

/-- The last byte that host accesses write to an offset, none where they write none. -/
def lastWritten (a : Nat) (accesses : List Access) : Option Byte :=
  match accesses with
  | [] => none
  | .write off v :: rest => (lastWritten a rest).or (if off = a then some v else none)
  | .read _ :: rest => lastWritten a rest

/-- The statuses a request that decodes can return (the table of R265). -/
def statusesOf (i : Instr) : List Status :=
  match i with
  | .dispInit => [.ok, .bus, .state]
  | .dispSetWindow .. => [.ok, .range, .bus, .state]
  | .dispWriteFrame => [.ok, .bus, .state]
  | .adcRead _ => [.ok, .range, .bus]
  | .adcReadAll => [.ok, .bus]
  | .muxSelect _ => [.ok, .range]
  | .dispReset | .dispClear _ | .dispSetBacklight _ | .btnRead | .ledWrite _ | .adcSelftest | .muxEnable
  | .muxDisable => [.ok]
  | .dcsSwreset | .dcsSlpout | .dcsColmod | .dcsMadctl | .dcsDispon | .dcsCaset .. | .dcsRaset .. | .dcsRamwr
  | .adcFrame _ | .adcResponse .. | .adcSelftestFrame | .muxAddress _ => []

/-- The eight command bytes of R120. -/
def commandSet : Bytes := [0x01, 0x11, 0x3A, 0x36, 0x29, 0x2A, 0x2B, 0x2C]

end Sys2Proof.Machine
end

