-- ==== Sys2Proof/Laws/Ops.lean ====
section
/-! SUPPORT. What each shared operation does, said once: micro-operations, micro-sequences, transactions, and how a
request begins and ends. -/

namespace Sys2Proof.Machine

open Sys2Proof

/-! ### Received bytes -/

@[simp] theorem received_length (h : List Event) (i : Nat) (tx given : Bytes) : (received h i tx given).length = tx.length := by
  induction tx generalizing i given with
  | nil => rfl
  | cons b tx ih => cases given <;> simp [received, ih]

/-- A reply that lists a byte for each byte sent is what is received. -/
theorem received_eq (h : List Event) (i : Nat) (tx given : Bytes) (hl : given.length = tx.length) :
    received h i tx given = given := by
  induction tx generalizing i given with
  | nil => simpa [received] using (List.length_eq_zero_iff.1 hl).symm
  | cons b tx ih =>
    cases given with
    | nil => simp at hl
    | cons g gs => simp only [received, ih (i + 1) gs (by simpa using hl)]

/-! ### Micro-sequences -/

/-- The state micro-operations leave, however they stop. -/
def Ran.state (r : Ran) : State :=
  match r with
  | .done t => t
  | .stop _ t => t

@[simp] theorem Ran.state_done (t : State) : (Ran.done t).state = t := rfl
@[simp] theorem Ran.state_stop (why : Stop) (t : State) : (Ran.stop why t).state = t := rfl

@[simp] theorem runOps_nil (s : State) : runOps [] s = .done s := rfl

theorem runOps_cut (op : Op) (rest : List Op) (s : State) (h : s.env.resetIn = some 0) :
    runOps (op :: rest) s = .stop .cut s := by
  simp [runOps, h]

/-- Without a block reset the next micro-operation runs. -/
theorem runOps_cons (op : Op) (rest : List Op) (s : State) (h : s.env.resetIn ≠ some 0) :
    runOps (op :: rest) s =
      match op.run s.tick with
      | .done t => runOps rest t
      | .stop why t => .stop why t :=
  if_neg h

/-- A sequence in two parts. -/
theorem runOps_append (a b : List Op) (s : State) :
    runOps (a ++ b) s =
      match runOps a s with
      | .done t => runOps b t
      | .stop why t => .stop why t := by
  induction a generalizing s with
  | nil => rfl
  | cons op rest ih =>
    simp only [List.cons_append, runOps]
    split
    · rfl
    · cases op.run s.tick with
      | done t => exact ih t
      | stop why t => rfl

/-- A property that every micro-operation of a sequence keeps holds of what the sequence leaves. -/
theorem runOps_keeps (P : State → Prop) (ops : List Op) (s : State)
    (hop : ∀ op ∈ ops, ∀ s, P s → P (op.run s.tick).state) (hs : P s) : P (runOps ops s).state := by
  induction ops generalizing s with
  | nil => exact hs
  | cons op rest ih =>
    rw [runOps]
    split
    · exact hs
    · have h1 := hop op (by simp) s hs
      cases hr : op.run s.tick with
      | done t => exact ih t (fun o ho => hop o (by simp [ho])) (by simpa [hr] using h1)
      | stop why t => simpa [hr] using h1

/-! ### Undisturbed runs -/

theorem State.tick_quiet (s : State) (h : s.env.resetIn = none) : s.tick = { s with phase := s.phase.next } := by
  cases s with
  | mk phase dstate csDisp csAdc dc rst muxA muxEnN ledR ledG ledB blDuty timer fb reqPort respPort history work fbReads env =>
    cases env
    simp only at h
    subst h
    rfl

theorem State.hostRaces_quiet (s : State) (h : s.env.racing = []) : s.hostRaces = s := by
  simp [State.hostRaces, h]

theorem State.take_quiet (s : State) (i : Instr) (h : s.env.racing = []) :
    s.take i = ({ s with phase := .busy i 0, reqPort := some (encode i), work := {} }).record (.req (encode i)) :=
  State.hostRaces_quiet _ h

theorem State.settleRaces_quiet (s : State) (h : s.env.racing = []) : s.settleRaces = s := by
  unfold State.settleRaces
  split
  · simp [h, racedOffsets, Memory.scramble]
  · rfl

theorem State.conclude_quiet (s : State) (r : Response) (h : Quiet s) : s.conclude r = s.respond r := by
  simp [State.conclude, h.2, State.settleRaces_quiet s h.1]

/-- Host accesses change the frame buffer and the bytes returned, nothing else. -/
theorem State.hostRaces_frame (s : State) : ∃ m rs, s.hostRaces = { s with fb := m, fbReads := rs } := by
  have key : ∀ (l : List Access) (s : State), ∃ m rs, l.foldl State.hostAccess s = { s with fb := m, fbReads := rs } := by
    intro l
    induction l with
    | nil => exact fun s => ⟨s.fb, s.fbReads, rfl⟩
    | cons a l ih =>
      intro s
      obtain ⟨m, rs, h⟩ := ih (s.hostAccess a)
      refine ⟨m, rs, ?_⟩
      rw [List.foldl_cons, h]
      cases a <;> rfl
  exact key _ s

/-! ### Transfers -/

theorem State.xfer_ok (s : State) (d : Device) (tx given : Bytes) (h : s.answer d tx = .ok given) :
    s.xfer d tx = .done (({ s with
      env := { s.env with replies := s.env.replies.tail }
      work := { s.work with rx := received s.history 0 tx given } }).record
        (.xfer d tx (received s.history 0 tx given))) := by
  simp [State.xfer, h]

theorem State.xfer_fail (s : State) (d : Device) (tx : Bytes) (h : s.answer d tx = .fail) (hr : s.env.resetIn ≠ some 0) :
    s.xfer d tx = .stop .bus
      ((({ s with env := { s.env with replies := s.env.replies.tail } }).record (.xferFail d tx)).tick.setCs d false) := by
  simp [State.xfer, h, hr]

theorem State.xfer_fail_cut (s : State) (d : Device) (tx : Bytes) (h : s.answer d tx = .fail) (hr : s.env.resetIn = some 0) :
    s.xfer d tx = .stop .cut (({ s with env := { s.env with replies := s.env.replies.tail } }).record (.xferFail d tx)) := by
  simp [State.xfer, h, hr]

theorem State.xfer_hang (s : State) (d : Device) (tx : Bytes) (h : s.answer d tx = .hang) :
    s.xfer d tx = .stop .hung { s with env := { s.env with replies := s.env.replies.tail } } := by
  simp [State.xfer, h]

theorem State.answer_listed (s : State) (d : Device) (tx : Bytes) (r : Reply) (rest : List Reply)
    (h : s.env.replies = r :: rest) : s.answer d tx = r := by
  simp [State.answer, h]

/-- What a transfer can do: receive, fail with its chip-select released or with block reset in between, or hang. -/
theorem State.xfer_cases (s : State) (d : Device) (tx : Bytes) :
    (∃ rx, rx.length = tx.length ∧ s.xfer d tx = .done (({ s with
      env := { s.env with replies := s.env.replies.tail }
      work := { s.work with rx := rx } }).record (.xfer d tx rx))) ∨
    s.xfer d tx = .stop .bus
      ((({ s with env := { s.env with replies := s.env.replies.tail } }).record (.xferFail d tx)).tick.setCs d false) ∨
    s.xfer d tx = .stop .cut (({ s with env := { s.env with replies := s.env.replies.tail } }).record (.xferFail d tx)) ∨
    s.xfer d tx = .stop .hung { s with env := { s.env with replies := s.env.replies.tail } } := by
  cases h : s.answer d tx with
  | ok given => exact .inl ⟨_, received_length _ _ _ _, State.xfer_ok s d tx given h⟩
  | fail =>
    by_cases hr : s.env.resetIn = some 0
    · exact .inr (.inr (.inl (State.xfer_fail_cut s d tx h hr)))
    · exact .inr (.inl (State.xfer_fail s d tx h hr))
  | hang => exact .inr (.inr (.inr (State.xfer_hang s d tx h)))

/-- Without races the stream is the frame buffer (R175). -/
theorem State.frameBytes_quiet (s : State) (h : s.env.racing = []) : s.frameBytes = Memory.readList s.fb 0 Config.fbSize := by
  have : s.streamByte = Memory.read s.fb := by funext a; simp [State.streamByte, h, racedOffsets]
  simp only [State.frameBytes, Memory.readList, this]

@[simp] theorem State.frameBytes_length (s : State) : s.frameBytes.length = Config.fbSize := by simp [State.frameBytes]

/-! ### The frame buffer's canonical form -/

/-- The frame buffer of reset is in canonical form. -/
theorem State.reset_fb_wf : Memory.wf State.reset.fb := ⟨.nil, by simp [State.reset]⟩

/-- Free bytes at raced offsets keep it. -/
theorem Memory.wf_scramble (m : Memory) (h : List Event) (offsets : List Nat) (hm : Memory.wf m) :
    Memory.wf (Memory.scramble m h offsets) := by
  induction offsets generalizing m with
  | nil => exact hm
  | cons a l ih => exact ih _ (Memory.wf_write _ _ _ hm)

/-- A host access keeps it. -/
theorem State.hostAccess_wf (s : State) (a : Access) (h : Memory.wf s.fb) : Memory.wf (s.hostAccess a).fb := by
  cases a with
  | write off v => exact Memory.wf_write _ _ _ h
  | read off => exact h

/-- The host's accesses inside a request keep it. -/
theorem State.hostRaces_wf (s : State) (h : Memory.wf s.fb) : Memory.wf s.hostRaces.fb := by
  have key : ∀ (l : List Access) (s : State), Memory.wf s.fb → Memory.wf (l.foldl State.hostAccess s).fb := by
    intro l
    induction l with
    | nil => exact fun s h => h
    | cons a l ih => exact fun s h => ih _ (State.hostAccess_wf s a h)
  exact key _ s h

/-- Settling the races keeps it. -/
theorem State.settleRaces_wf (s : State) (h : Memory.wf s.fb) : Memory.wf s.settleRaces.fb := by
  unfold State.settleRaces
  split
  · exact Memory.wf_scramble _ _ _ h
  · exact h

/-! ### How a request begins and ends -/

/-- Taking a request records `REQ` and makes the block busy; the host's accesses change the frame buffer and the bytes
returned only. -/
theorem State.take_cases (s : State) (i : Instr) : ∃ m rs, s.take i =
    { s with phase := .busy i 0, reqPort := some (encode i), work := {}, history := s.history ++ [.req (encode i)], fb := m, fbReads := rs } := by
  obtain ⟨m, rs, h⟩ := State.hostRaces_frame
    (({ s with phase := .busy i 0, reqPort := some (encode i), work := {} } : State).record (.req (encode i)))
  exact ⟨m, rs, h⟩

/-- Settling the races changes the frame buffer only. -/
theorem State.settleRaces_frame (s : State) : ∃ m, s.settleRaces = { s with fb := m } := by
  unfold State.settleRaces
  split
  · exact ⟨_, rfl⟩
  · exact ⟨s.fb, rfl⟩

/-- A request ends with its response or with block reset. -/
theorem State.conclude_cases (s : State) (r : Response) :
    (s.env.resetIn = some 0 ∧ s.conclude r = s.settleRaces.blockReset) ∨
    (s.env.resetIn ≠ some 0 ∧ s.conclude r = s.settleRaces.respond r) := by
  unfold State.conclude
  split
  · next h => exact .inl ⟨h, rfl⟩
  · next h => exact .inr ⟨h, rfl⟩

/-- A wire frame begins by making the block busy; the host's accesses change the frame buffer and the bytes returned only. -/
theorem State.begin_cases (s : State) (i : Instr) : ∃ m rs, s.begin i = { s with phase := .busy i 0, fb := m, fbReads := rs } :=
  State.hostRaces_frame { s with phase := .busy i 0 }

theorem State.begin_quiet (s : State) (i : Instr) (h : s.env.racing = []) : s.begin i = { s with phase := .busy i 0 } :=
  State.hostRaces_quiet _ h

/-- A wire frame ends idle or with block reset. -/
theorem State.retire_cases (s : State) :
    (s.env.resetIn = some 0 ∧ s.retire = s.blockReset) ∨
    (s.env.resetIn ≠ some 0 ∧ s.retire = { s with phase := .idle, env := { s.env with racing := [], resetIn := none } }) := by
  unfold State.retire
  split
  · next h => exact .inl ⟨h, rfl⟩
  · next h => exact .inr ⟨h, rfl⟩

theorem State.retire_quiet (s : State) (h : Quiet s) : s.retire = { s with phase := .idle } := by
  unfold State.retire
  rw [if_neg (by simp [h.2])]
  obtain ⟨h1, h2⟩ := h
  cases s with
  | mk phase dstate csDisp csAdc dc rst muxA muxEnN ledR ledG ledB blDuty timer fb reqPort respPort history work fbReads env =>
    cases env
    simp only at h1 h2
    subst h1 h2
    rfl

/-- A request that is no `DISP_INIT` has no abort rule (R266). -/
theorem State.abortRule_other (s : State) (i : Instr) (k : Nat) (e : Status) (h : s.phase = .busy i k) (hi : i ≠ .dispInit) :
    s.abortRule e = s := by
  unfold State.abortRule
  rw [h]
  split
  · next h1 => exact absurd (by injection h1) hi
  · rfl

/-- The four ways a micro-sequence ends. -/
theorem Ran.finish_cases (r : Ran) (onDone onBus : State → State) :
    (∃ t, r = .done t ∧ r.finish onDone onBus = onDone t) ∨
    (∃ t, r = .stop .bus t ∧ r.finish onDone onBus = onBus t) ∨
    (∃ t, r = .stop .hung t ∧ r.finish onDone onBus = t) ∨
    (∃ t, r = .stop .cut t ∧ r.finish onDone onBus = t.settleRaces.blockReset) := by
  match r with
  | .done t => exact .inl ⟨t, rfl, rfl⟩
  | .stop .bus t => exact .inr (.inl ⟨t, rfl, rfl⟩)
  | .stop .hung t => exact .inr (.inr (.inl ⟨t, rfl, rfl⟩))
  | .stop .cut t => exact .inr (.inr (.inr ⟨t, rfl, rfl⟩))

/-- A bus request is refused by its checks, faults with a chip-select held, or is served. -/
theorem State.busRequest_cases (s t : State) (i : Instr) (ops : List Op) (result : State → Response)
    (h : s.busRequest i ops result = .next t) :
    (∃ e, precheck i s.dstate = some e ∧ t = s.reject i e) ∨
    (precheck i s.dstate = none ∧ s.csDisp = false ∧ s.csAdc = false ∧ t = s.serve i ops result) := by
  unfold State.busRequest at h
  split at h
  · next e he => exact .inl ⟨e, he, by injection h with h; exact h.symm⟩
  · next he =>
    unfold State.guarded at h
    split at h
    · cases h
    · next hc =>
      simp only [Bool.or_eq_true, not_or, Bool.not_eq_true] at hc
      exact .inr ⟨he, hc.1, hc.2, by injection h with h; exact h.symm⟩

/-- A request without a bus is refused by its checks or served. -/
theorem State.lineRequest_cases (s t : State) (i : Instr) (ops : List Op) (result : State → Response)
    (h : s.lineRequest i ops result = .next t) :
    (∃ e, precheck i s.dstate = some e ∧ t = s.reject i e) ∨
    (precheck i s.dstate = none ∧ t = s.serve i ops result) := by
  unfold State.lineRequest at h
  split at h
  · next e he => exact .inl ⟨e, he, by injection h with h; exact h.symm⟩
  · next he => exact .inr ⟨he, by injection h with h; exact h.symm⟩

/-- With both chip-selects deasserted the guard lets a meaning through. -/
theorem State.guarded_free (s t : State) (h : BusFree s) : s.guarded t = .next t := by
  simp [State.guarded, h.1, h.2]

/-! ### The host's accesses beside a request (R74) -/

/-- They leave the frame buffer as the host wrote it. -/
theorem State.hostAccesses_fb (l : List Access) (s : State) : (l.foldl State.hostAccess s).fb = writtenBy s.fb l := by
  induction l generalizing s with
  | nil => rfl
  | cons a l ih => cases a <;> simp [ih, State.hostAccess, writtenBy]

theorem State.hostRaces_fb (s : State) : s.hostRaces.fb = writtenBy s.fb s.env.racing := State.hostAccesses_fb _ _

/-- Where no read is raced, the reads return the bytes that are there. -/
theorem State.hostAccesses_reads (l : List Access) (s : State) (h : ∀ s' : State, s'.phase = s.phase → ∀ a, s'.portRead a = Memory.read s'.fb a) :
   (l.foldl State.hostAccess s).fbReads = s.fbReads ++ readBy s.fb l := by
  induction l generalizing s with
  | nil => simp [readBy]
  | cons a l ih =>
    rw [List.foldl_cons, ih _ (by cases a <;> exact h)]
    cases a with
    | write => rfl
    | read off => simp [State.hostAccess, readBy, h s rfl]

/-- Every read returns one byte. -/
theorem State.hostAccesses_length (l : List Access) (s : State)  :
   ∃ r, (l.foldl State.hostAccess s).fbReads = s.fbReads ++ r ∧ r.length = (readBy s.fb l).length := by
  induction l generalizing s with
  | nil => exact ⟨[], by simp, rfl⟩
  | cons a l ih =>
    rw [List.foldl_cons]
    obtain ⟨r, h1, h2⟩ := ih (s.hostAccess a)
    cases a with
    | write => exact ⟨r, h1, h2⟩
    | read off => exact ⟨s.portRead off :: r, by rw [h1]; simp [State.hostAccess], by simp [readBy, h2, State.hostAccess]⟩

/-- An offset holds the last byte the host wrote to it. -/
theorem read_writtenBy (l : List Access) (m : Memory) (hm : Memory.wf m) (a) (ha : a < Config.fbSize) : Memory.read (writtenBy m l) a = (lastWritten a l).getD (Memory.read m a) := by
  induction l generalizing m with
  | nil => rfl
  | cons x l ih =>
    cases x with
    | read o => exact ih m hm
    | write o v =>
      simp only [writtenBy, lastWritten]
      rw [ih _ (Memory.wf_write m o v hm)]
      cases lastWritten a l with
      | some z => rfl
      | none =>
        simp only [Option.none_or, Option.getD_none]
        by_cases h : o = a
        · subst h; rw [Memory.read_write _ _ _ _ hm ha]; simp
        · rw [Memory.read_write_other _ _ _ _ hm (Ne.symm h)]; simp [h]

/-! ### The histories of operations -/

theorem windowTrail_append (w : Option Device) (a b : List Event) :
    windowTrail w (a ++ b) = (windowTrail w a).bind fun v => windowTrail v b := by
  induction a generalizing w with
  | nil => rfl
  | cons e t ih =>
    simp only [List.cons_append, windowTrail]
    cases windowAfter w e with
    | none => rfl
    | some v => exact ih v

/-- `w` is the open window and no other chip-select is asserted. -/
def State.opens (s : State) (w : Option Device) : Prop := s.csDisp = decide (w = some .disp) ∧ s.csAdc = decide (w = some .adc)

theorem State.opens_busFree (s : State) : s.opens none ↔ BusFree s := by simp [State.opens, BusFree]

theorem State.opens_window (s : State) (w) (h : s.opens w) : s.openWindow = w := by
  obtain ⟨h1, h2⟩ := h
  cases w with
  | none => simp [State.openWindow, h1, h2]
  | some d => cases d <;> simp [State.openWindow, h1, h2]

/-- One event of the discipline. -/
theorem State.afterEvent_opens (s : State) (w v) (e) (h : s.opens w) (he : windowAfter w e = some v) : (s.afterEvent e).opens v := by
  obtain ⟨h1, h2⟩ := h
  cases e with
  | cs d b =>
    cases b <;> simp only [windowAfter] at he <;> split at he <;> cases he <;> rename_i hw <;> subst hw <;> cases d <;>
      simp_all [State.opens, State.afterEvent, State.select, State.record]
  | reset => cases he; simp [State.opens, State.afterEvent, State.record]
  | _ => simp only [windowAfter] at he; split at he <;> cases he <;> simp_all [State.opens, State.afterEvent, State.record]

/-- A list of events that keeps the discipline leaves the window it says. -/
theorem State.replay_opens (s : State) (w v) (made) (h : s.opens w) (he : windowTrail w made = some v) : (s.replay made).opens v := by
  induction made generalizing s w with
  | nil => cases he; exact h
  | cons e t ih =>
    simp only [windowTrail] at he
    cases hw : windowAfter w e with
    | none => rw [hw] at he; cases he
    | some x => rw [hw] at he; exact ih (s.afterEvent e) x (s.afterEvent_opens w x e h hw) he

/-! ### Bits of bytes -/

@[simp] theorem dec16_enc16 (v : U16) : dec16 (v.extractLsb' 8 8) (v.extractLsb' 0 8) = v := by
  simp only [dec16]
  ext i hi
  simp only [BitVec.getElem_append, BitVec.getElem_extractLsb']
  split
  · simp [BitVec.getLsbD_eq_getElem hi]
  · rw [← BitVec.getLsbD_eq_getElem]; congr 1; omega

theorem withBit_getLsbD (n : Nat) (v : BitVec n) (i : Nat) (b : Bool) (j : Nat) (hi : i < n) :
    (withBit n v i b).getLsbD j = if j = i then b else v.getLsbD j := by
  by_cases hj : j < n
  · by_cases hji : j = i
    · subst hji
      cases b <;> simp [withBit, hj]
    · by_cases hlt : j < i
      · cases b <;> simp [withBit, hj, hji, hlt]
      · have : ¬ j - i = 0 := by omega
        cases b <;> simp [withBit, hj, hji, hlt, this]
  · have h1 : (withBit n v i b).getLsbD j = false := BitVec.getLsbD_of_ge _ _ (by omega)
    have h2 : v.getLsbD j = false := BitVec.getLsbD_of_ge _ _ (by omega)
    rw [h1, h2, if_neg (by omega)]

/-- Driving the four address lines in turn gives the channel (R241). -/
theorem address_of_lines (v : BitVec 4) (ch : Byte) :
    withBit 4 (withBit 4 (withBit 4 (withBit 4 v 0 (channelBit ch 0)) 1 (channelBit ch 1)) 2 (channelBit ch 2)) 3
      (channelBit ch 3) = ch.setWidth 4 := by
  apply BitVec.eq_of_getLsbD_eq
  intro i hi
  rw [withBit_getLsbD _ _ _ _ _ (by omega), withBit_getLsbD _ _ _ _ _ (by omega), withBit_getLsbD _ _ _ _ _ (by omega),
    withBit_getLsbD _ _ _ _ _ (by omega)]
  simp only [BitVec.getLsbD_setWidth, hi, channelBit]
  interval_cases i <;> simp

end Sys2Proof.Machine
end

