-- ==== Sys2Proof/Laws/Reset.lean ====
section
/-! SUPPORT. Block reset inside an instruction (spec/70_reset_and_hazards.md R302): what a micro-operation, a
micro-sequence and a whole request or wire frame do with a block reset coming, against the same run without it. -/

namespace Sys2Proof.Machine

open Sys2Proof

/-- The state with a block reset coming. -/
abbrev State.coming (s : State) (r : Option Nat) : State := s.beside s.env.racing r

theorem State.tick_coming (s : State) (k : Nat) : (s.coming (some k)).tick = s.tick.coming (some (k - 1)) := rfl

/-- `w` is `s` after the events `before`, as far as block reset keeps it. -/
structure CutAt (s w : State) (before : List Event) : Prop where
  hist : w.history = s.history ++ before
  reads : w.fbReads = s.fbReads
  agenda : w.env.agenda = s.env.agenda
  racing : w.env.racing = s.env.racing

/-- Is it no pixel's write, the one micro-operation that changes the frame buffer? -/
def Op.leavesBuffer (op : Op) : Prop := ∀ i c, op ≠ .pixel i c

/-- What one micro-operation does with and without a block reset coming: it is done, stops for the bus, or hangs. -/
def Op.ResetCases (op : Op) (v : State) : Prop :=
  ∃ made, (∀ e ∈ made, ∀ r, e ≠ Event.resp r) ∧
  ((∃ t, op.run v = .done t ∧ t.env.resetIn = none ∧ CutAt v t made ∧ (Op.leavesBuffer op → t.fb = v.fb) ∧ made.length ≤ 1 ∧
     (∀ k, op.run (v.coming (some k)) = .done (t.coming (some k)))) ∨
   (∃ t, op.run v = .stop .bus t ∧ t.env.resetIn = none ∧ CutAt v t made ∧ t.fb = v.fb ∧
     (∀ k, op.run (v.coming (some (k+1))) = .stop .bus (t.coming (some k))) ∧
     ∃ w a b, made = [a, b] ∧ op.run (v.coming (some 0)) = .stop .cut w ∧ CutAt v w [a] ∧ w.fb = v.fb) ∨
   (∃ t, op.run v = .stop .hung t ∧ t.env.resetIn = none ∧ CutAt v t made ∧ t.fb = v.fb ∧ made = [] ∧
     (∀ k, op.run (v.coming (some k)) = .stop .hung (t.coming (some k)))))

/-- A coming block reset changes nothing in a micro-operation, but for the release after a failed transfer. -/
theorem Op.run_coming (op : Op) (v : State) (h : v.env.resetIn = none) : Op.ResetCases op v := by
  have hx : ∀ (d : Device) (tx : Bytes) (op : Op), op.run v = v.xfer d tx →
      (∀ k, op.run (v.coming (some k)) = (v.coming (some k)).xfer d tx) → Op.ResetCases op v := by
    intro d tx op h1 h2
    unfold Op.ResetCases
    simp only [h1, h2]
    have ha : ∀ k, (v.coming (some k)).answer d tx = v.answer d tx := fun k => rfl
    cases hr : v.answer d tx with
    | ok g =>
      refine ⟨[.xfer d tx (received v.history 0 tx g)], by simp, .inl ⟨_, State.xfer_ok v d tx g hr, h, ⟨rfl, rfl, rfl, rfl⟩, fun _ => rfl, by simp, fun k => ?_⟩⟩
      rw [State.xfer_ok _ d tx g ((ha k).trans hr)]; rfl
    | fail =>
      have e0 := State.xfer_fail v d tx hr (by simp [h])
      refine ⟨[.xferFail d tx, .cs d false], by simp, .inr (.inl ⟨_, e0, ?_, ?_, ?_, fun k => ?_, _, _, _, rfl, State.xfer_fail_cut _ d tx ((ha 0).trans hr) rfl, ⟨rfl, rfl, rfl, rfl⟩, rfl⟩)⟩
      · cases d <;> simp [State.setCs, State.select, State.record, State.tick, h]
      · cases d <;> exact ⟨by simp [State.setCs, State.select, State.record, State.tick], rfl, rfl, rfl⟩
      · cases d <;> rfl
      · rw [State.xfer_fail _ d tx ((ha (k+1)).trans hr) (by simp [State.beside])]; cases d <;> rfl
    | hang =>
      refine ⟨[], by simp, .inr (.inr ⟨_, State.xfer_hang v d tx hr, h, ⟨by simp, rfl, rfl, rfl⟩, rfl, rfl, fun k => ?_⟩)⟩
      rw [State.xfer_hang _ d tx ((ha k).trans hr)]; rfl
  cases op with
  | dstate d => exact ⟨[], by simp, .inl ⟨_, rfl, h, ⟨by simp, rfl, rfl, rfl⟩, fun _ => rfl, by simp, fun k => rfl⟩⟩
  | line l b => exact ⟨[.line l b], by simp, .inl ⟨_, rfl, by cases l <;> exact h, by cases l <;> exact ⟨rfl, rfl, rfl, rfl⟩, fun _ => by cases l <;> rfl, by simp, fun k => by cases l <;> rfl⟩⟩
  | cs d b => exact ⟨[.cs d b], by simp, .inl ⟨_, rfl, by cases d <;> exact h, by cases d <;> exact ⟨rfl, rfl, rfl, rfl⟩, fun _ => by cases d <;> rfl, by simp, fun k => by cases d <;> rfl⟩⟩
  | xfer d tx => exact hx d tx (.xfer d tx) rfl (fun k => rfl)
  | stream => exact hx .disp v.frameBytes .stream rfl (fun k => rfl)
  | arm ms => exact ⟨[], by simp, .inl ⟨_, rfl, h, ⟨by simp, rfl, rfl, rfl⟩, fun _ => rfl, by simp, fun k => rfl⟩⟩
  | elapse =>
    cases ht : v.timer with
    | none =>
      have e : ∀ v : State, v.timer = none → v.elapse = v := fun v ht => by simp [State.elapse, ht]
      refine ⟨[], by simp, .inl ⟨v, congrArg Ran.done (e v ht), h, ⟨by simp, rfl, rfl, rfl⟩, fun _ => rfl, by simp, fun k => congrArg Ran.done (e _ ht)⟩⟩
    | some ms =>
      have e : ∀ v : State, v.timer = some ms → v.elapse = ({ v with timer := none } : State).record (.wait ms) := fun v ht => by simp [State.elapse, ht]
      refine ⟨[.wait ms], by simp, .inl ⟨_, congrArg Ran.done (e v ht), h, ⟨rfl, rfl, rfl, rfl⟩, fun _ => rfl, by simp, fun k => congrArg Ran.done (e _ ht)⟩⟩
  | duty n => exact ⟨[.bl n], by simp, .inl ⟨_, rfl, h, ⟨rfl, rfl, rfl, rfl⟩, fun _ => rfl, by simp, fun k => rfl⟩⟩
  | pixel i c => exact ⟨[], by simp, .inl ⟨_, rfl, h, ⟨by simp, rfl, rfl, rfl⟩, fun hf => absurd rfl (hf i c), by simp, fun k => rfl⟩⟩
  | channel ch => exact ⟨[], by simp, .inl ⟨_, rfl, h, ⟨by simp, rfl, rfl, rfl⟩, fun _ => rfl, by simp, fun k => rfl⟩⟩
  | sample => exact ⟨[], by simp, .inl ⟨_, rfl, h, ⟨by simp [State.takeSample], rfl, rfl, rfl⟩, fun _ => rfl, by simp, fun k => rfl⟩⟩
  | button i => exact ⟨[], by simp, .inl ⟨_, rfl, h, ⟨by simp [State.sampleButton], rfl, rfl, rfl⟩, fun _ => rfl, by simp, fun k => rfl⟩⟩

/-- What micro-operations left, with a block reset coming. -/
def Ran.coming (x : Ran) (r : Option Nat) : Ran :=
  match x with
  | .done t => .done (t.coming r)
  | .stop why t => .stop why (t.coming r)

/-- The micro-operations ended in a hang. -/
def Ran.isHung (x : Ran) : Prop := ∃ t, x = .stop .hung t

theorem CutAt.trans {s t w a b} (h1 : CutAt s t a) (h2 : CutAt t w b) : CutAt s w (a ++ b) :=
  ⟨by rw [h2.hist, h1.hist, List.append_assoc], h2.reads.trans h1.reads, h2.agenda.trans h1.agenda, h2.racing.trans h1.racing⟩

/-- What a micro-sequence does without a block reset, and against that with one after `k` micro-operations. -/
structure Coming (ops : List Op) (s : State) (made : List Event) : Prop where
  noresp : ∀ e ∈ made, ∀ r, e ≠ Event.resp r
  at_ : CutAt s (runOps ops s).state made
  none_ : (runOps ops s).state.env.resetIn = none
  nocut : ∀ t, runOps ops s ≠ .stop .cut t
  fb : (∀ op ∈ ops, Op.leavesBuffer op) → (runOps ops s).state.fb = s.fb
  cut : ∀ k, (∃ w before after, made = before ++ after ∧ runOps ops (s.coming (some k)) = .stop .cut w ∧ CutAt s w before ∧
      ((∀ op ∈ ops, Op.leavesBuffer op) → w.fb = s.fb)) ∨
    ∃ k', runOps ops (s.coming (some k)) = (runOps ops s).coming (some k')
  every : ∀ before after, made = before ++ after → (after = [] → (runOps ops s).isHung) →
    ∃ k w, runOps ops (s.coming (some k)) = .stop .cut w ∧ CutAt s w before
  last : ¬ (runOps ops s).isHung → ∃ k, runOps ops (s.coming (some k)) = (runOps ops s).coming (some 0)

/-- Every micro-sequence is cut by block reset in this way (R302). -/
theorem runOps_coming (ops : List Op) (s : State) (h : s.env.resetIn = none) : ∃ made, Coming ops s made := by
  induction ops generalizing s with
  | nil =>
    refine ⟨[], by simp, ⟨by simp, rfl, rfl, rfl⟩, h, by simp, fun _ => rfl, fun k => .inr ⟨k, rfl⟩, ?_, fun _ => ⟨0, rfl⟩⟩
    intro b a hab ha
    obtain ⟨rfl, rfl⟩ : b = [] ∧ a = [] := by simpa using hab.symm
    obtain ⟨t, ht⟩ := ha rfl
    cases ht
  | cons op rest ih =>
    have hv : s.tick.env.resetIn = none := by simp [h]
    have hs : CutAt s s.tick [] := ⟨by simp, rfl, rfl, rfl⟩
    have h0 : runOps (op :: rest) (s.coming (some 0)) = .stop .cut (s.coming (some 0)) := runOps_cut _ _ _ rfl
    have c0 : CutAt s (s.coming (some 0)) [] := ⟨by simp [State.beside], rfl, rfl, rfl⟩
    have hk : ∀ k, runOps (op :: rest) (s.coming (some (k+1))) = match op.run (s.tick.coming (some k)) with
      | .done t => runOps rest t
      | .stop why t => .stop why t := fun k => runOps_cons _ _ _ (by simp [State.beside])
    have hn := runOps_cons op rest s (by simp [h])
    obtain ⟨m1, hm1, ⟨t, e1, e2, e3, e4, e5, e6⟩ | ⟨t, e1, e2, e3, e4, e5, w, a, b, rfl, e6, e7, e8⟩ | ⟨t, e1, e2, e3, e4, rfl, e6⟩⟩ := Op.run_coming op s.tick hv
    · obtain ⟨m2, I⟩ := ih t e2
      rw [e1] at hn; simp only at hn
      simp only [e6] at hk
      have e3' : CutAt s t m1 := hs.trans e3
      refine ⟨m1 ++ m2, ?_, ?_, ?_, ?_, ?_, ?_, ?_, ?_⟩
      · intro e he; rcases List.mem_append.1 he with he | he
        · exact hm1 e he
        · exact I.noresp e he
      · rw [hn]; exact e3'.trans I.at_
      · rw [hn]; exact I.none_
      · rw [hn]; exact I.nocut
      · intro hf; rw [hn, I.fb (fun o ho => hf o (by simp [ho])), e4 (hf op (by simp))]; rfl
      · intro k
        cases k with
        | zero => exact .inl ⟨_, [], m1 ++ m2, rfl, h0, c0, fun _ => rfl⟩
        | succ k =>
          rw [hk, hn]
          rcases I.cut k with ⟨w, b, a, hb, hw, hc, hf⟩ | hk'
          · exact .inl ⟨w, m1 ++ b, a, by simp [hb], hw, e3'.trans hc, fun hh => by
              rw [hf (fun o ho => hh o (by simp [ho])), e4 (hh op (by simp))]; rfl⟩
          · exact .inr hk'
      · intro b a hab ha
        rw [hn] at ha
        match m1, b, hab, e5, e3' with
        | _, [], _, _, _ => exact ⟨0, _, h0, c0⟩
        | [], b, hab, _, e3' =>
          obtain ⟨k, w, hw, hc⟩ := I.every b a (by simpa using hab) ha
          exact ⟨k+1, w, (hk k).trans hw, by simpa using e3'.trans hc⟩
        | [e], e' :: b, hab, _, e3' =>
          simp only [List.cons_append, List.nil_append, List.cons.injEq] at hab
          obtain ⟨rfl, hab⟩ := hab
          obtain ⟨k, w, hw, hc⟩ := I.every b a hab ha
          exact ⟨k+1, w, (hk k).trans hw, by simpa using e3'.trans hc⟩
        | _ :: _ :: _, _, _, hl, _ => simp at hl
      · intro hh; rw [hn] at hh ⊢
        obtain ⟨k, hk2⟩ := I.last hh
        exact ⟨k+1, (hk k).trans hk2⟩
    · rw [e1] at hn; simp only at hn
      have e3' : CutAt s t [a, b] := hs.trans e3
      refine ⟨[a, b], hm1, by rw [hn]; exact e3', by rw [hn]; exact e2, by simp [hn], fun _ => by rw [hn]; exact e4, fun k => ?_, ?_, fun _ => ⟨2, by rw [hk, e5, hn]; rfl⟩⟩
      · match k with
        | 0 => exact .inl ⟨_, [], [a, b], rfl, h0, c0, fun _ => rfl⟩
        | 1 => exact .inl ⟨w, [a], [b], rfl, by rw [hk, e6], hs.trans e7, fun _ => e8⟩
        | k+2 => exact .inr ⟨k, by rw [hk, e5, hn]; rfl⟩
      · intro b' a' hab ha
        match b', hab with
        | [], _ => exact ⟨0, _, h0, c0⟩
        | [x], hab =>
          simp only [List.cons_append, List.nil_append, List.cons.injEq] at hab
          obtain ⟨rfl, hab⟩ := hab
          exact ⟨1, w, by rw [hk, e6], hs.trans e7⟩
        | x :: y :: l, hab =>
          simp only [List.cons_append, List.cons.injEq] at hab
          obtain ⟨_, _, hab⟩ := hab
          have : a' = [] := (List.append_eq_nil_iff.1 hab.symm).2
          obtain ⟨t, ht⟩ := ha this
          rw [hn] at ht; cases ht
    · rw [e1] at hn; simp only at hn
      have e3' : CutAt s t [] := hs.trans e3
      refine ⟨[], hm1, by rw [hn]; exact e3', by rw [hn]; exact e2, by simp [hn], fun _ => by rw [hn]; exact e4, fun k => ?_, ?_, fun hh => absurd ⟨t, hn⟩ hh⟩
      · match k with
        | 0 => exact .inl ⟨_, [], [], rfl, h0, c0, fun _ => rfl⟩
        | k+1 => exact .inr ⟨k, by rw [hk, e6, hn]; rfl⟩
      · intro b' a' hab ha
        obtain ⟨rfl, rfl⟩ : b' = [] ∧ a' = [] := by simpa using hab.symm
        exact ⟨0, _, h0, c0⟩

/-- Only `DISP_CLEAR` has races to settle. -/
theorem State.settleRaces_other (s : State) (h : ∀ c k, s.phase ≠ .busy (.dispClear c) k) : s.settleRaces = s := by
  unfold State.settleRaces
  split
  · next c k hh => exact absurd hh (h c k)
  · rfl

/-- A micro-operation leaves the block busy with the same request. -/
theorem Op.run_phase (i) (op : Op) (s : State) (hs : ∃ k, s.phase = .busy i k) : ∃ k, (op.run s).state.phase = .busy i k := by
  have hx : ∀ d tx, ∃ k, (s.xfer d tx).state.phase = .busy i k := by
    intro d tx
    obtain ⟨k, hk⟩ := hs
    rcases State.xfer_cases s d tx with ⟨rx, _, e⟩ | e | e | e <;> rw [e]
    · exact ⟨k, hk⟩
    · cases d <;> exact ⟨k+1, by simp [State.setCs, State.select, State.record, State.tick, hk, SeqPhase.next]⟩
    · exact ⟨k, hk⟩
    · exact ⟨k, hk⟩
  cases op with
  | line l b => cases l <;> exact hs
  | cs d b => cases d <;> exact hs
  | xfer d tx => exact hx d tx
  | stream => exact hx _ _
  | elapse => simp only [Op.run, State.elapse]; split <;> exact hs
  | _ => exact hs

/-- So does a micro-sequence. -/
theorem runOps_phase (i) (l : List Op) (s : State) (hs : ∃ k, s.phase = .busy i k) : ∃ k, (runOps l s).state.phase = .busy i k := by
  refine runOps_keeps (fun s => ∃ k, s.phase = .busy i k) l s (fun op _ s hs => ?_) hs
  exact Op.run_phase i op s.tick (by obtain ⟨k, hk⟩ := hs; exact ⟨k+1, by simp [hk, SeqPhase.next]⟩)

/-- How a request or frame that ran to its end is closed: by block reset where it arrives now, else as without it. -/
structure Closing (i : Instr) (g : State → State) : Prop where
  cut : ∀ t : State, (∃ k, t.phase = .busy i k) → t.env.resetIn = some 0 → ∃ w : State, g t = w.settleRaces.blockReset ∧ w.env = t.env ∧ w.fb = t.fb ∧ w.history = t.history ∧ w.fbReads = t.fbReads ∧ w.phase = t.phase
  go : ∀ t : State, (∃ k, t.phase = .busy i k) → t.env.resetIn = none → ∀ k, g (t.coming (some (k+1))) = g t
  fin : ∀ t : State, (∃ k, t.phase = .busy i k) → t.env.resetIn = none → ∃ fin, (g t).history = t.history ++ fin ∧
    (i.layer = .request → ∃ r, fin = [.resp r]) ∧ (i.layer ≠ .request → fin = []) ∧ (g t).fbReads = t.fbReads ∧ (g t).phase = .idle ∧ (g t).env.resetIn = none

/-- `u` is what an instruction leaves without block reset, `f (some k)` what it leaves with one after `k` micro-operations:
it is cut at a moment of the undisturbed run or not at all, and it can be cut between any two of its events (R302). -/
def CutAnywhere (s : State) (m : Memory) (i : Instr) (u : State) (f : Option Nat → State) : Prop :=
  ∃ made, u.history = s.history ++ made ∧
      (∀ k,
        ((∃ (before after : List Event) (m' : Memory), made = before ++ after ∧ (∀ e ∈ before, ∀ r, e ≠ .resp r) ∧
            ((∀ color, i ≠ .dispClear color) → m' = m) ∧
            f (some k) = { State.reset with
              fb := m'
              history := s.history ++ before ++ [Event.reset]
              fbReads := u.fbReads
              env := { s.env with replies := (f (some k)).env.replies, buttons := (f (some k)).env.buttons, racing := [], resetIn := none } }) ∨
          ({ f (some k) with env := { (f (some k)).env with resetIn := none } } : State) = u)) ∧
      ∀ before after, made = before ++ after →
        (i.layer = .request → before ≠ [] ∧ (u.phase = .idle → after ≠ [])) →
        ∃ k, (f (some k)).history = s.history ++ before ++ [Event.reset]

theorem State.settled_reset_history (s : State) : s.settleRaces.blockReset.history = s.history ++ [.reset] := by
  obtain ⟨m, h⟩ := State.settleRaces_frame s
  rw [h]; rfl

/-- Block reset puts every element back and keeps the frame buffer, the history and the bytes returned (R43, R302). -/
theorem State.settled_reset_form (i : Instr) (s w : State) (m : Memory) (before : List Event) (reads)
  (hi : ∃ k, w.phase = .busy i k) (hh : w.history = s.history ++ before) (hr : w.fbReads = reads) (ha : w.env.agenda = s.env.agenda)
  (hm : (∀ color, i ≠ .dispClear color) → w.fb = m) :
  ∃ m', ((∀ color, i ≠ .dispClear color) → m' = m) ∧ w.settleRaces.blockReset = { State.reset with
              fb := m'
              history := s.history ++ before ++ [Event.reset]
              fbReads := reads
              env := { s.env with replies := w.settleRaces.blockReset.env.replies, buttons := w.settleRaces.blockReset.env.buttons, racing := [], resetIn := none } } := by
  obtain ⟨m1, h⟩ := State.settleRaces_frame w
  refine ⟨m1, fun hc => ?_, ?_⟩
  · rw [← hm hc]
    have := State.settleRaces_other w (fun c k hk => by obtain ⟨k', hk'⟩ := hi; rw [hk'] at hk; injection hk with hk; exact hc c hk)
    rw [h] at this
    exact congrArg State.fb this
  · rw [h]
    simp only [State.blockReset, hh, hr, ha]

/-- A moment of a request lies behind its `REQ`, a moment of a wire frame anywhere. -/
theorem opening_split (i : Instr) (opening rest before after : List Event) (h : opening ++ rest = before ++ after)
    (h1 : i.layer = .request → opening.length = 1) (h2 : i.layer ≠ .request → opening = [])
    (hb : i.layer = .request → before ≠ []) : ∃ b, before = opening ++ b := by
  by_cases hl : i.layer = .request
  · obtain ⟨e, rfl⟩ := List.length_eq_one_iff.1 (h1 hl)
    cases before with
    | nil => exact absurd rfl (hb hl)
    | cons x b =>
      simp only [List.cons_append, List.nil_append, List.cons.injEq] at h
      exact ⟨b, by rw [h.1]; rfl⟩
  · exact ⟨before, by rw [h2 hl]; rfl⟩

/-- A request or frame that runs a micro-sequence is cut by block reset in this way. -/
theorem Ran.finish_cut (i : Instr) (ops : List Op) (s v : State) (opening : List Event) (g1 g2 : State → State)
    (hf : (∀ color, i ≠ .dispClear color) → ∀ op ∈ ops, Op.leavesBuffer op)
    (hv : v.env.resetIn = none) (hp : ∃ k, v.phase = .busy i k) (ha : v.env.agenda = s.env.agenda)
    (ho : v.history = s.history ++ opening) (hor : ∀ e ∈ opening, ∀ r, e ≠ .resp r)
    (ho1 : i.layer = .request → opening.length = 1) (ho2 : i.layer ≠ .request → opening = [])
    (c1 : Closing i g1) (c2 : Closing i g2) :
    CutAnywhere s v.fb i ((runOps ops v).finish g1 g2) (fun k => (runOps ops (v.coming k)).finish g1 g2) := by
  obtain ⟨made, I⟩ := runOps_coming ops v hv
  have hcutCase : ∀ (w : State) (before : List Event), (∃ k, w.phase = .busy i k) → CutAt v w before → ((∀ op ∈ ops, Op.leavesBuffer op) → w.fb = v.fb) →
      ∀ w' : State, w'.env = w.env → w'.fb = w.fb → w'.history = w.history → w'.fbReads = w.fbReads → w'.phase = w.phase → ∃ m', ((∀ color, i ≠ .dispClear color) → m' = v.fb) ∧ w'.settleRaces.blockReset = { State.reset with fb := m', history := s.history ++ (opening ++ before) ++ [Event.reset], fbReads := v.fbReads, env := { s.env with replies := w'.settleRaces.blockReset.env.replies, buttons := w'.settleRaces.blockReset.env.buttons, racing := [], resetIn := none } } :=
    fun w before hw hc hfb w' e1 e2 e3 e4 e5 => State.settled_reset_form i s w' v.fb (opening ++ before) v.fbReads (by rw [e5]; exact hw)
      (by rw [e3, hc.hist, ho, List.append_assoc]) (by rw [e4, hc.reads]) (by rw [e1, hc.agenda, ha]) (fun h => by rw [e2, hfb (hf h)])
  have hph := runOps_phase i ops v hp
  have hphk : ∀ k w, runOps ops (v.coming (some k)) = .stop .cut w → ∃ k, w.phase = .busy i k := by
    intro k w hw
    have := runOps_phase i ops (v.coming (some k)) hp
    rwa [hw] at this
  have closeCase : ∀ (t : State) (g : State → State), Closing i g → t.env.resetIn = none → (∃ k, t.phase = .busy i k) → CutAt v t made →
     ((∀ op ∈ ops, Op.leavesBuffer op) → t.fb = v.fb) → ¬ (runOps ops v).isHung → (runOps ops v).finish g1 g2 = g t →
     (∀ r, ((runOps ops v).coming r).finish g1 g2 = g (t.coming r)) → CutAnywhere s v.fb i ((runOps ops v).finish g1 g2) (fun k => (runOps ops (v.coming k)).finish g1 g2) := by
    intro t g cg ht hpt hct hft hh hg hgk
    obtain ⟨fin, f1, f2, f3, f4, f5, f6⟩ := cg.fin t hpt ht
    have hreads : ((runOps ops v).finish g1 g2).fbReads = v.fbReads := by rw [hg, f4, hct.reads]
    have hlast : ∀ k', runOps ops (v.coming (some k')) = (runOps ops v).coming (some 0) →
       ∃ w : State, (runOps ops (v.coming (some k'))).finish g1 g2 = w.settleRaces.blockReset ∧ w.env = (t.coming (some 0)).env ∧ w.fb = t.fb ∧ w.history = t.history ∧ w.fbReads = t.fbReads ∧ w.phase = t.phase := by
      intro k' hk'
      rw [hk', hgk]
      exact cg.cut (t.coming (some 0)) hpt rfl
    refine ⟨opening ++ made ++ fin, by rw [hg, f1, hct.hist, ho]; simp, fun k => ?_, ?_⟩
    · rcases I.cut k with ⟨w, before, after, hb, hw, hc, hfb⟩ | ⟨k', hk'⟩
      · left
        obtain ⟨m', hm', hform⟩ := hcutCase w before (hphk k w hw) hc hfb w rfl rfl rfl rfl rfl
        refine ⟨opening ++ before, after ++ fin, m', by rw [hb]; simp, ?_, hm', ?_⟩
        · intro e he; rcases List.mem_append.1 he with he | he
          · exact hor e he
          · exact I.noresp e (by rw [hb]; exact List.mem_append_left _ he)
        · simp only [hw, hreads]; exact hform
      · cases k' with
        | zero =>
          left
          obtain ⟨w, h1, h2, h3, h4, h5, h6⟩ := hlast k hk'
          obtain ⟨m', hm', hform⟩ := hcutCase (t.coming (some 0)) made hpt ⟨hct.hist, hct.reads, hct.agenda, hct.racing⟩ hft w h2 h3 h4 h5 h6
          refine ⟨opening ++ made, fin, m', rfl, ?_, hm', ?_⟩
          · intro e he; rcases List.mem_append.1 he with he | he
            · exact hor e he
            · exact I.noresp e he
          · simp only [h1, hreads]; exact hform
        | succ k' =>
          right
          have e : (runOps ops (v.coming (some k))).finish g1 g2 = g t := by rw [hk', hgk, cg.go t hpt ht]
          simp only [e, hg]
          have := f6
          revert this
          generalize g t = u
          intro this
          cases u with
          | mk a1 a2 a3 a4 a5 a6 a7 a8 a9 a10 a11 a12 a13 a14 a15 a16 a17 a18 a19 env =>
            cases env; simp only at this; subst this; rfl
    · intro before after hba hreq
      have key := opening_split i opening _ before after (by simpa only [List.append_assoc] using hba) ho1 ho2 fun hl => (hreq hl).1
      obtain ⟨b', rfl⟩ := key
      have hba' : made ++ fin = b' ++ after := by
        rw [List.append_assoc, List.append_assoc] at hba; exact List.append_cancel_left hba
      by_cases hm : b' = made
      · obtain ⟨k, hk⟩ := I.last hh
        obtain ⟨w, h1, h2, h3, h4, h5, h6⟩ := hlast k hk
        refine ⟨k, ?_⟩
        simp only [h1]
        rw [State.settled_reset_history, h4, hct.hist, ho, hm]; simp
      · -- b' is a proper prefix of made
        have : ∃ a', made = b' ++ a' ∧ a' ≠ [] := by
          by_cases hl : i.layer = .request
          · obtain ⟨r, hr⟩ := f2 hl
            have haf : after ≠ [] := (hreq hl).2 (by rw [hg]; exact f5)
            rw [hr] at hba'
            obtain ⟨a', x, rfl⟩ : ∃ a' x, after = a' ++ [x] := ⟨after.dropLast, after.getLast haf, (List.dropLast_append_getLast haf).symm⟩
            rw [← List.append_assoc] at hba'
            have := List.append_inj_left' hba' rfl
            refine ⟨a', this, ?_⟩
            rintro rfl; simp at this; exact hm this.symm
          · rw [f3 hl] at hba'
            refine ⟨after, by simpa using hba', ?_⟩
            rintro rfl; simp at hba'; exact hm hba'.symm
        obtain ⟨a', h1, h2⟩ := this
        obtain ⟨k, w, hw, hc⟩ := I.every b' a' h1 (fun h => absurd h h2)
        refine ⟨k, ?_⟩
        simp only [hw]
        show w.settleRaces.blockReset.history = _
        rw [State.settled_reset_history, hc.hist, ho]; simp
  match hr : runOps ops v with
  | .done t =>
    rw [← hr]
    have h1 := I.at_; have h2 := I.none_; have h3 := I.fb
    rw [hr] at h1 h2 h3 hph
    exact closeCase t g1 c1 h2 hph h1 h3 (by rintro ⟨t', h⟩; rw [hr] at h; cases h) (by rw [hr]; rfl) (fun r => by rw [hr]; rfl)
  | .stop .bus t =>
    rw [← hr]
    have h1 := I.at_; have h2 := I.none_; have h3 := I.fb
    rw [hr] at h1 h2 h3 hph
    exact closeCase t g2 c2 h2 hph h1 h3 (by rintro ⟨t', h⟩; rw [hr] at h; cases h) (by rw [hr]; rfl) (fun r => by rw [hr]; rfl)
  | .stop .cut t => exact absurd hr (I.nocut t)
  | .stop .hung t =>
    have h1 := I.at_; have h2 := I.none_; have h3 := I.fb
    rw [hr] at h1 h2 h3 hph
    have hreads : t.fbReads = v.fbReads := h1.reads
    refine ⟨opening ++ made, by have := h1.hist; simp only [Ran.state] at this; show t.history = _; rw [this, ho]; simp, fun k => ?_, ?_⟩
    · rcases I.cut k with ⟨w, before, after, hb, hw, hc, hfb⟩ | ⟨k', hk'⟩
      · left
        obtain ⟨m', hm', hform⟩ := hcutCase w before (hphk k w hw) hc hfb w rfl rfl rfl rfl rfl
        refine ⟨opening ++ before, after, m', by rw [hb]; simp, ?_, hm', ?_⟩
        · intro e he; rcases List.mem_append.1 he with he | he
          · exact hor e he
          · exact I.noresp e (by rw [hb]; exact List.mem_append_left _ he)
        · simp only [hw, Ran.finish, hreads]; exact hform
      · right
        simp only [hk', hr, Ran.coming, Ran.finish]
        cases t with
        | mk a1 a2 a3 a4 a5 a6 a7 a8 a9 a10 a11 a12 a13 a14 a15 a16 a17 a18 a19 env =>
          cases env; simp only [Ran.state] at h2; subst h2; rfl
    · intro before after hba hreq
      have key := opening_split i opening _ before after (by simpa only [List.append_assoc] using hba) ho1 ho2 fun hl => (hreq hl).1
      obtain ⟨b', rfl⟩ := key
      have hba' : made = b' ++ after := by
        rw [List.append_assoc] at hba; exact List.append_cancel_left hba
      obtain ⟨k, w, hw, hc⟩ := I.every b' after hba' (fun _ => ⟨t, hr⟩)
      refine ⟨k, ?_⟩
      simp only [hw]
      show w.settleRaces.blockReset.history = _
      rw [State.settled_reset_history, hc.hist, ho]; simp

theorem State.hostAccess_beside (s : State) (a : Access) (rc r) : (s.beside rc r).hostAccess a = (s.hostAccess a).beside rc r := by
  cases a <;> rfl

theorem State.hostAccesses_beside (l : List Access) (s : State) (rc r) : l.foldl State.hostAccess (s.beside rc r) = (l.foldl State.hostAccess s).beside rc r := by
  induction l generalizing s with
  | nil => rfl
  | cons a l ih => rw [List.foldl_cons, List.foldl_cons, State.hostAccess_beside, ih]

theorem State.hostRaces_coming (s : State) (r) : (s.coming r).hostRaces = s.hostRaces.coming r := by
  unfold State.hostRaces
  have h := State.hostAccesses_beside s.env.racing s s.env.racing r
  have h2 : (s.env.racing.foldl State.hostAccess s).env = s.env := by
    obtain ⟨m, rs, e⟩ := State.hostRaces_frame s
    unfold State.hostRaces at e; rw [e]
  rw [State.coming, show (s.beside s.env.racing r).env.racing = s.env.racing from rfl, h, State.coming, h2]

theorem State.take_coming (s : State) (i r) : (s.coming r).take i = (s.take i).coming r := State.hostRaces_coming (({ s with phase := .busy i 0, reqPort := some (encode i), work := {} } : State).record (.req (encode i))) r

theorem State.begin_coming (s : State) (i r) : (s.coming r).begin i = (s.begin i).coming r := State.hostRaces_coming { s with phase := .busy i 0 } r

theorem State.settleRaces_coming (t : State) (r) : (t.coming r).settleRaces = t.settleRaces.coming r := by
  cases t with
  | mk a1 a2 a3 a4 a5 a6 a7 a8 a9 a10 a11 a12 a13 a14 a15 a16 a17 a18 a19 env =>
    cases a1 with
    | idle => rfl
    | busy i k => cases i <;> rfl

theorem State.conclude_closing (i : Instr) (r : State → Response) (hi : i.layer = .request)
   (hr : ∀ t : State, ∀ k, r (t.coming k) = r t) : Closing i (fun t => t.conclude (r t)) := by
  refine ⟨fun t hp h => ⟨t, by simp [State.conclude, h], rfl, rfl, rfl, rfl, rfl⟩, fun t hp h k => ?_, fun t hp h => ?_⟩
  · simp only [hr]
    unfold State.conclude
    rw [if_neg (by simp [State.beside]), if_neg (by simp [h])]
    rw [State.settleRaces_coming]; rfl
  · unfold State.conclude
    rw [if_neg (by simp [h])]
    obtain ⟨m, e⟩ := State.settleRaces_frame t
    rw [e]
    exact ⟨[.resp (r t).message], rfl, fun _ => ⟨_, rfl⟩, fun h => absurd hi h, rfl, rfl, rfl⟩

theorem State.abortRule_frame (t : State) (e) : ∃ d, t.abortRule e = { t with dstate := d } := by
  unfold State.abortRule
  split
  · exact ⟨_, rfl⟩
  · exact ⟨t.dstate, rfl⟩

theorem State.abortRule_coming (t : State) (e r) : (t.coming r).abortRule e = (t.abortRule e).coming r := by
  cases t with
  | mk a1 a2 a3 a4 a5 a6 a7 a8 a9 a10 a11 a12 a13 a14 a15 a16 a17 a18 a19 env =>
    cases a1 with
    | idle => rfl
    | busy i k => cases i <;> cases e <;> rfl

theorem State.raise_closing (i : Instr) (e : Status) (hi : i.layer = .request) : Closing i (fun t => t.raise e) := by
  have c := State.conclude_closing i (fun _ => bare e) hi (fun _ _ => rfl)
  refine ⟨fun t hp h => ?_, fun t hp h k => ?_, fun t hp h => ?_⟩
  · obtain ⟨d, hd⟩ := State.abortRule_frame t e
    obtain ⟨w, h1, h2, h3, h4, h5, h6⟩ := c.cut (t.abortRule e) (by rw [hd]; exact hp) (by rw [hd]; exact h)
    exact ⟨w, h1, by rw [h2, hd], by rw [h3, hd], by rw [h4, hd], by rw [h5, hd], by rw [h6, hd]⟩
  · obtain ⟨d, hd⟩ := State.abortRule_frame t e
    show ((t.coming (some (k+1))).abortRule e).conclude (bare e) = (t.abortRule e).conclude (bare e)
    rw [State.abortRule_coming]
    exact c.go (t.abortRule e) (by rw [hd]; exact hp) (by rw [hd]; exact h) k
  · obtain ⟨d, hd⟩ := State.abortRule_frame t e
    obtain ⟨fin, h1, h2, h3, h4, h5, h6⟩ := c.fin (t.abortRule e) (by rw [hd]; exact hp) (by rw [hd]; exact h)
    exact ⟨fin, h1.trans (by rw [hd]), h2, h3, h4.trans (by rw [hd]), h5, h6⟩

theorem State.retire_closing (i : Instr) (hi : i.layer ≠ .request) : Closing i State.retire := by
  have hc : ∀ c, i ≠ .dispClear c := by rintro c rfl; exact hi rfl
  refine ⟨fun t hp h => ⟨t, ?_, rfl, rfl, rfl, rfl, rfl⟩, fun t hp h k => ?_, fun t hp h => ⟨[], ?_⟩⟩
  · rw [State.settleRaces_other t (fun c k hk => by obtain ⟨k', hk'⟩ := hp; rw [hk'] at hk; injection hk with hk; exact hc c hk)]
    simp [State.retire, h]
  · unfold State.retire
    rw [if_neg (by simp [State.beside]), if_neg (by simp [h])]; rfl
  · unfold State.retire
    rw [if_neg (by simp [h])]
    exact ⟨by simp, fun h => absurd h hi, fun _ => rfl, rfl, rfl, rfl⟩

theorem State.take_reset (s : State) (i : Instr) (h : s.env.resetIn = none) :
   (s.take i).env.resetIn = none ∧ (∃ k, (s.take i).phase = .busy i k) ∧ (s.take i).env.agenda = s.env.agenda ∧ (s.take i).history = s.history ++ [.req (encode i)] ∧
   (s.take i).fb = writtenBy s.fb s.env.racing := by
  refine ⟨?_, ?_, ?_, ?_, State.hostRaces_fb _⟩ <;> obtain ⟨m, rs, e⟩ := State.take_cases s i <;> rw [e]
  · exact h
  · exact ⟨0, rfl⟩

theorem State.begin_reset (s : State) (i : Instr) (h : s.env.resetIn = none) :
   (s.begin i).env.resetIn = none ∧ (∃ k, (s.begin i).phase = .busy i k) ∧ (s.begin i).env.agenda = s.env.agenda ∧ (s.begin i).history = s.history ++ [] ∧
   (s.begin i).fb = writtenBy s.fb s.env.racing := by
  refine ⟨?_, ?_, ?_, ?_, State.hostRaces_fb _⟩ <;> obtain ⟨m, rs, e⟩ := State.begin_cases s i <;> rw [e]
  · exact h
  · exact ⟨0, rfl⟩
  · simp

/-- `CutAnywhere` for a meaning `g`, with the host's accesses beside it. -/
def CutAnywhereFrom (s : State) (i : Instr) (g : State → State) : Prop :=
  CutAnywhere s (writtenBy s.fb s.env.racing) i (g s) (fun k => g (s.coming k))

theorem request_cut (s : State) (i : Instr) (ops) (g1 g2 : State → State) (h : s.env.resetIn = none) (hl : i.layer = .request)
    (hf : (∀ color, i ≠ .dispClear color) → ∀ op ∈ ops, Op.leavesBuffer op) (c1 : Closing i g1) (c2 : Closing i g2) :
    CutAnywhereFrom s i (fun s => (runOps ops (s.take i)).finish g1 g2) := by
  obtain ⟨a, b, c, d, e⟩ := State.take_reset s i h
  have := Ran.finish_cut i ops s (s.take i) [.req (encode i)] g1 g2 hf a b c d (by simp) (fun _ => rfl) (fun h => absurd hl h) c1 c2
  rw [e] at this
  simpa only [CutAnywhereFrom, State.take_coming] using this

theorem State.issue_cut (s : State) (i : Instr) (ops) (h : s.env.resetIn = none) (hl : i.layer ≠ .request)
    (hf : ∀ op ∈ ops, Op.leavesBuffer op) :
    CutAnywhereFrom s i (fun s => s.issue i ops) := by
  obtain ⟨a, b, c, d, e⟩ := State.begin_reset s i h
  have := Ran.finish_cut i ops s (s.begin i) [] State.retire State.retire (fun _ => hf) a b c d (by simp) (fun h => absurd h hl) (fun _ => rfl) (State.retire_closing i hl) (State.retire_closing i hl)
  rw [e] at this
  simpa only [CutAnywhereFrom, State.issue, State.begin_coming] using this

theorem State.reject_cut (s : State) (i : Instr) (e) (h : s.env.resetIn = none) (hl : i.layer = .request) :
    CutAnywhereFrom s i (fun s => s.reject i e) :=
  request_cut s i [] (fun t => t.raise e) (fun t => t.raise e) h hl (by simp) (State.raise_closing i e hl) (State.raise_closing i e hl)

theorem State.serve_cut (s : State) (i : Instr) (ops res) (h : s.env.resetIn = none) (hl : i.layer = .request)
    (hf : (∀ color, i ≠ .dispClear color) → ∀ op ∈ ops, Op.leavesBuffer op) (hr : ∀ t : State, ∀ k, res (t.coming k) = res t) : CutAnywhereFrom s i (fun s => s.serve i ops res) :=
  request_cut s i ops _ _ h hl hf (State.conclude_closing i res hl hr) (State.raise_closing i .bus hl)

end Sys2Proof.Machine
end

