-- ==== Sys2Proof/Machine/Assembler.lean ====
section
/-! DEFINITION. The assembler's syntax and the pseudo-requests (spec/30_encoding.md R100, R101). Text becomes request
messages; nothing here changes the block's state. -/

namespace Sys2Proof.Machine

open Sys2Proof

/-- The pseudo-requests (R101). -/
inductive Pseudo where
  | showFrame
  | adcReadRaw (ch : Byte)
  | adcReadVolt (ch : Byte)
  | dispSetWindowFull
  deriving DecidableEq, Repr

/-- What a pseudo-request expands to (R101). -/
def expand (p : Pseudo) : Instr :=
  match p with
  | .showFrame => .dispWriteFrame
  | .adcReadRaw ch => .adcRead ch
  | .adcReadVolt ch => .adcRead ch
  | .dispSetWindowFull => .dispSetWindow 0 0 lastColumn lastRow

/-- What the host keeps of an `ADC_READ_RAW`: the raw field of the sample (R101, R206). -/
def keptRaw (r : Response) : Option (BitVec 12) := r.samples.head?.map Sample.raw

/-- What the host keeps of an `ADC_READ_VOLT`: the voltage of the sample (R101, R206). -/
def keptVolt (r : Response) : Option Rat := r.samples.head?.map Sample.voltage

/-- A host that holds only the bytes of a sample record computes the voltage itself (R113). -/
def recordVoltage (vref : Rat) (record : Bytes) : Rat := voltage vref (decodeRaw record)

/-- The value of a decimal digit. -/
def digitValue (c : Char) : Option Nat := if '0' ≤ c ∧ c ≤ '9' then some (c.toNat - '0'.toNat) else none

/-- The value of a hexadecimal digit. -/
def hexValue (c : Char) : Option Nat :=
  if '0' ≤ c ∧ c ≤ '9' then some (c.toNat - '0'.toNat)
  else if 'a' ≤ c ∧ c ≤ 'f' then some (c.toNat - 'a'.toNat + 10)
  else if 'A' ≤ c ∧ c ≤ 'F' then some (c.toNat - 'A'.toNat + 10)
  else none

/-- Digits in a base, after the number read so far. -/
def digitsFrom (base : Nat) (value : Char → Option Nat) (acc : Nat) (cs : List Char) : Option Nat :=
  match cs with
  | [] => some acc
  | c :: t =>
    match value c with
    | some d => digitsFrom base value (acc * base + d) t
    | none => none

/-- One or more digits. -/
def digits (base : Nat) (value : Char → Option Nat) (cs : List Char) : Option Nat :=
  match cs with
  | [] => none
  | _ :: _ => digitsFrom base value 0 cs

/-- A numeric literal: decimal or `0x`-hexadecimal (R100). -/
def literal (cs : List Char) : Option Nat :=
  match cs with
  | '0' :: 'x' :: t => digits 16 hexValue t
  | _ => digits 10 digitValue cs

/-- A literal of a width in bits: an out-of-width one is refused (R100). -/
def literalOf (width : Nat) (cs : List Char) : Option (BitVec width) :=
  match literal cs with
  | some n => if n < 2 ^ width then some (BitVec.ofNat width n) else none
  | none => none

/-- The largest fraction of R100, 32767.99998474121, in units of 10^-11. -/
def fractionMax : Nat := 3276799998474121

/-- A decimal fraction `whole.part` without its sign as 65536ths: an exact multiple, within R100's bounds. -/
def fractionUnits (negative : Bool) (whole part : List Char) : Option Nat :=
  match digits 10 digitValue whole, digits 10 digitValue part with
  | some w, some p =>
    let scale := 10 ^ part.length
    let n := w * scale + p
    if (n * 65536) % scale ≠ 0 then none
    else if negative then (if n ≤ 32768 * scale then some (n * 65536 / scale) else none)
    else if n * 10 ^ 11 ≤ fractionMax * scale then some (n * 65536 / scale) else none
  | _, _ => none

/-- The operand of `DISP_SET_BACKLIGHT` (R100): a raw 32-bit hexadecimal word, or a signed decimal fraction with its point.
The word may have any number of digits whose value is below 2^32, and no leading `+` is taken (log entry 26; DESIGN
CHOICE). -/
def fractionLiteral (cs : List Char) : Option (BitVec 32) :=
  match cs with
  | '0' :: 'x' :: _ => literalOf 32 cs
  | '-' :: t =>
    (fractionUnits true (t.takeWhile (· ≠ '.')) ((t.dropWhile (· ≠ '.')).drop 1)).map fun u => BitVec.ofInt 32 (-(u : Int))
  | _ =>
    (fractionUnits false (cs.takeWhile (· ≠ '.')) ((cs.dropWhile (· ≠ '.')).drop 1)).map fun u => BitVec.ofNat 32 u

/-- The request a mnemonic and its operands stand for (R100, R101), the operands in message order. -/
def parseRequest (mnemonic : String) (operands : List (List Char)) : Option Instr :=
  match operands with
  | [] =>
    if mnemonic == "DISP_RESET" then some .dispReset
    else if mnemonic == "DISP_INIT" then some .dispInit
    else if mnemonic == "DISP_WRITE_FRAME" then some .dispWriteFrame
    else if mnemonic == "BTN_READ" then some .btnRead
    else if mnemonic == "ADC_READ_ALL" then some .adcReadAll
    else if mnemonic == "ADC_SELFTEST" then some .adcSelftest
    else if mnemonic == "MUX_ENABLE" then some .muxEnable
    else if mnemonic == "MUX_DISABLE" then some .muxDisable
    else if mnemonic == "SHOW" then some (expand .showFrame)
    else if mnemonic == "DISP_SET_WINDOW_FULL" then some (expand .dispSetWindowFull)
    else none
  | [a] =>
    if mnemonic == "DISP_CLEAR" then (literalOf 16 a).map .dispClear
    else if mnemonic == "DISP_SET_BACKLIGHT" then (fractionLiteral a).map .dispSetBacklight
    else if mnemonic == "LED_WRITE" then (literalOf 3 a).map fun rgb => .ledWrite (rgb.setWidth 8)
    else if mnemonic == "ADC_READ" then (literalOf 8 a).map .adcRead
    else if mnemonic == "ADC_READ_RAW" then (literalOf 8 a).map fun ch => expand (.adcReadRaw ch)
    else if mnemonic == "ADC_READ_VOLT" then (literalOf 8 a).map fun ch => expand (.adcReadVolt ch)
    else if mnemonic == "MUX_SELECT" then (literalOf 8 a).map .muxSelect
    else none
  | [a, b, c, d] =>
    if mnemonic == "DISP_SET_WINDOW" then
      match literalOf 16 a, literalOf 16 b, literalOf 16 c, literalOf 16 d with
      | some x0, some y0, some x1, some y1 => some (.dispSetWindow x0 y0 x1 y1)
      | _, _, _, _ => none
    else none
  | _ => none

/-- Is a character a blank of the line? -/
def isBlank (c : Char) : Bool := c == ' ' || c == '\t' || c == '\r'

/-- A word without the blanks around it. -/
def trim (cs : List Char) : List Char := ((cs.dropWhile isBlank).reverse.dropWhile isBlank).reverse

/-- Split at commas: always one part more than there are commas. -/
def splitCommas (cs : List Char) : List (List Char) :=
  match cs with
  | [] => [[]]
  | c :: t =>
    if c = ',' then [] :: splitCommas t
    else
      match splitCommas t with
      | [] => [[c]]
      | w :: ws => (c :: w) :: ws

/-- A line of assembler text: `MNEMONIC operand, operand, …` with a comment after `;` (R100). A line with nothing before its
comment stands for no request, and the answer is none as for a refused line (log entry 26; DESIGN CHOICE). -/
def parseLine (line : String) : Option Instr :=
  let code := trim (line.toList.takeWhile (· ≠ ';'))
  let mnemonic := code.takeWhile fun c => !isBlank c
  let rest := trim (code.dropWhile fun c => !isBlank c)
  parseRequest (String.ofList mnemonic) (if rest = [] then [] else (splitCommas rest).map trim)

/-- The message a line assembles to (R100). -/
def assembleLine (line : String) : Option Bytes := (parseLine line).map encode

end Sys2Proof.Machine
end

