-- ==== Sys2Proof/Certificates/Slice0/Obligations.lean ====
section
/-! DEFINITION. The statements, from the spec's numbered rules. Each docstring names the rules it formalises or rests on.
`Quiet s` says that nothing from outside reaches the block inside the next request; `State.served` is what an undisturbed
request leaves, so an equation with it is the request's result and its frame at once. -/

open Sys2Proof Sys2Proof.Machine

/-! ### Encoding -/

/-- Decoding an encoded well-formed instruction gives it back, in its own layer (R93, R94, R96, R120, R200, R202, R241). -/
def Obligations.EncodeThenDecodeGivesBack : Prop :=
  ∀ i : Instr, i.wf = true → decode i.layer (encode i) = .ok i

/-- Every word that decodes is the encoding of what it decodes to: one meaning per word, no operand bit dropped
(R93, R94, R96, R98). -/
def Obligations.DecodeThenEncodeGivesBack : Prop :=
  ∀ (l : Layer) (word : Bytes) (i : Instr), decode l word = .ok i → encode i = word ∧ i.layer = l ∧ i.wf = true

/-- Words written out from the spec's encodings decode to the instructions they stand for (95_test_vectors E11 to E18,
R120, R200, R241). -/
def Obligations.SpecWordsDecode : Prop :=
  decodeRequest [0x03, 0x00, 0x0A, 0x00, 0x14, 0x01, 0x2C, 0x00, 0xC8] = .ok (.dispSetWindow 10 20 300 200) ∧
  decodeRequest [0x05, 0xF8, 0x00] = .ok (.dispClear 0xF800) ∧
  decodeRequest [0x06, 0xFF, 0xFF, 0x80, 0x00] = .ok (.dispSetBacklight 0xFFFF8000) ∧
  decodeRequest [0x08, 0x07] = .ok (.ledWrite 7) ∧
  decodeRequest [0x10, 0x07] = .ok (.adcRead 7) ∧
  decodeRequest [0x20, 0x0F] = .ok (.muxSelect 15) ∧
  decode .display [0x2A, 0x00, 0x00, 0x01, 0x3F] = .ok (.dcsCaset 0 319) ∧
  decode .adcOut [0x07, 0x40, 0x00] = .ok (.adcFrame 5) ∧
  decode .muxLines [0x0D] = .ok (.muxAddress 13)

/-- A message decodes exactly when its opcode is assigned, its length is the format's, and the reserved bits of an L8
operand are 0 (R95, R98); the unassigned opcodes are 0x00, 0x09 to 0x0F, 0x13 to 0x1F and 0x23 to 0xFF (R98). -/
def Obligations.RequestDecodesIffLegal : Prop :=
  (∀ m : Bytes, (∃ i, decodeRequest m = .ok i) ↔
    ∃ op operands f, m = op :: operands ∧ formatOf op = some f ∧ m.length = formatLength f ∧
      ¬(f = .l8 ∧ reservedSet operands = true)) ∧
  ∀ op : Byte, formatOf op = none ↔
    (op.toNat = 0x00 ∨ (0x09 ≤ op.toNat ∧ op.toNat ≤ 0x0F) ∨ (0x13 ≤ op.toNat ∧ op.toNat ≤ 0x1F) ∨ 0x23 ≤ op.toNat)

/-- R264: a message that does not decode has no effect and records only `REQ` and `RESP([0x04])`. -/
def Obligations.IllegalMessageOnlyAnswers : Prop :=
  ∀ (s : State) (m : Bytes) (e : Illegal) (rest : List Move),
    s.phase = .idle → s.env.agenda = .request m [] none :: rest → decodeRequest m = .error e →
    step s = .next { s with
      history := s.history ++ [Event.req m, .resp [0x04]]
      respPort := some ⟨.illegal, [], []⟩
      reqPort := none
      work := {}
      env := { s.env with agenda := rest, racing := [], resetIn := none } }

/-! ### The step -/

/-- A step runs the decoded request: the move is taken off the agenda, what the outside does beside the request is that of
its own move (log entries 4 and 5), and the rest is `exec` (R90, R95). -/
def Obligations.StepRunsDecodedRequest : Prop :=
  ∀ (s : State) (m : Bytes) (i : Instr) (racing : List Access) (k : Option Nat) (rest : List Move),
    s.phase = .idle → s.env.agenda = .request m racing k :: rest → notAdmitted racing = none → decodeRequest m = .ok i →
    step s = exec i { s with env := { s.env with agenda := rest, racing := racing, resetIn := k } }

/-- A step issues a decoded wire frame: the move is taken off the agenda, what the outside does beside the frame is that of
its own move, and the rest is `exec` (the model's choice, log entries 4, 5 and 8). -/
def Obligations.StepIssuesDecodedFrame : Prop :=
  ∀ (s : State) (l : Layer) (word : Bytes) (i : Instr) (racing : List Access) (k : Option Nat) (rest : List Move),
    s.phase = .idle → s.env.agenda = .frame l word racing k :: rest → l ≠ .request → notAdmitted racing = none →
    decode l word = .ok i →
    step s = exec i { s with env := { s.env with agenda := rest, racing := racing, resetIn := k } }

/-- An idle block with nothing presented runs nothing (R301); and taking the response empties its port and changes nothing
else, whether the block is idle or hung (R37). -/
def Obligations.IdleBlockRunsNothing : Prop :=
  (∀ s : State, s.phase = .idle → s.env.agenda = [] → step s = .next s) ∧
  ∀ (s : State) (rest : List Move), s.env.agenda = .takeResponse :: rest →
    step s = .next { s with respPort := none, env := { s.env with agenda := rest } }

/-- A block between steps that is still busy is hung. It has no further step of its own (R270), takes no request (R291) and
issues no frame; whatever reaches it, it is busy with the same request after, unless that is block reset, which ends the
hang (R316). The fault and the refusals are the model's names (log entries 6 and 25). -/
def Obligations.HungBlockOnlyResets : Prop :=
  ∀ (s : State) (i : Instr) (k : Nat), s.phase = .busy i k →
    (s.env.agenda = [] → step s = .fault .hungTransfer) ∧
    (∀ m racing n rest, s.env.agenda = .request m racing n :: rest → step s = .refused .requestWhileBusy) ∧
    (∀ l word racing n rest, s.env.agenda = .frame l word racing n :: rest → step s = .refused .requestWhileBusy) ∧
    (∀ rest, s.env.agenda = .blockReset :: rest →
      step s = .next ({ s with env := { s.env with agenda := rest } } : State).blockReset) ∧
    ∀ t, step s = .next t → t.phase = .busy i k ∨ ∃ rest, s.env.agenda = .blockReset :: rest

/-- The host's frame-buffer port (R64), at an idle block and at one hung in a request that does not use the buffer, where the
host may access it freely (R74): an offset at or beyond `FB_SIZE` gets no step; a write changes that byte only, and the byte
is there after; a read returns the buffer's byte and changes nothing in it. At a block hung in `DISP_WRITE_FRAME`, or in
`DCS_RAMWR` (log entry 8), where R74 forbids the access, both outcomes are the model's choice, no rule of the spec (log entry
4): the write lands all the same, which reads R74's "streamed byte" as the only unspecified one beside the wider words of
R312, S2 and D36, and the read returns one byte, any value. At a block busy with `DISP_CLEAR`, where no run rests between
steps since it makes no transfer, the read returns any value (R74), and that the written byte is there after is the model's
too (log entry 4). -/
def Obligations.FrameBufferPortIsByteGranular : Prop :=
  ∀ (s : State) (a : Access) (rest : List Move), s.env.agenda = .access a :: rest → Memory.wf s.fb →
    (Config.fbSize ≤ accessOffset a → step s = .refused (.frameBufferRange (accessOffset a))) ∧
    (∀ off v, a = .write off v → off < Config.fbSize → ∃ m,
      step s = .next { s with fb := m, env := { s.env with agenda := rest } } ∧ Memory.wf m ∧
      Memory.read m off = v ∧ ∀ x, x ≠ off → Memory.read m x = Memory.read s.fb x) ∧
    (∀ off, a = .read off → off < Config.fbSize → ∃ v,
      step s = .next { s with fbReads := s.fbReads ++ [v], env := { s.env with agenda := rest } } ∧
      ((∀ color k, s.phase ≠ .busy (.dispClear color) k) → (∀ k, s.phase ≠ .busy .dispWriteFrame k) →
        (∀ k, s.phase ≠ .busy .dcsRamwr k) → v = Memory.read s.fb off))

/-! ### Reset -/

/-- R43: the state after the first block reset, every frame-buffer byte its draw; and a later block reset puts every
element back but the frame buffer, recording the one event `RESET`. A step whose move is block reset does that, whether the
block is idle or busy. -/
def Obligations.ResetLeavesTheTable : Prop :=
  (State.reset.phase = .idle ∧ State.reset.dstate = .uninit ∧ State.reset.csDisp = false ∧ State.reset.csAdc = false ∧
    State.reset.dc = false ∧ State.reset.rst = true ∧ State.reset.muxA = 0 ∧ State.reset.muxEnN = true ∧
    State.reset.ledR = false ∧ State.reset.ledG = false ∧ State.reset.ledB = false ∧ State.reset.blDuty = 0 ∧
    State.reset.timer = none ∧ State.reset.respPort = none ∧ State.reset.history = [] ∧
    ∀ a, Memory.read State.reset.fb a = Config.fbPowerUp a) ∧
  (∀ s : State,
    s.blockReset.phase = .idle ∧ s.blockReset.dstate = .uninit ∧ s.blockReset.csDisp = false ∧
    s.blockReset.csAdc = false ∧ s.blockReset.dc = false ∧ s.blockReset.rst = true ∧ s.blockReset.muxA = 0 ∧
    s.blockReset.muxEnN = true ∧ s.blockReset.ledR = false ∧ s.blockReset.ledG = false ∧ s.blockReset.ledB = false ∧
    s.blockReset.blDuty = 0 ∧ s.blockReset.timer = none ∧ s.blockReset.respPort = none ∧
    s.blockReset.fb = s.fb ∧ s.blockReset.history = s.history ++ [Event.reset]) ∧
  ∀ (s : State) (rest : List Move), s.env.agenda = .blockReset :: rest →
    step s = .next ({ s with env := { s.env with agenda := rest } } : State).blockReset

/-- Block reset inside any request or wire frame (R302, R43), against `u`, what the same instruction leaves without it. A
block reset that arrives after `k` micro-operations either lands, and then there is no response, the events are those of
the undisturbed run up to that moment and one `RESET` after them, with no event for the chip-selects or lines it puts back,
every element has its value of R43, and the frame buffer has its bytes, the host's own writes among them (`DISP_CLEAR` has a
statement of its own); or `k` lies beyond the end or the hang, and nothing differs. And it can land between any two events
of the request, and after the last one of a hung request or a wire frame. That `k` counts micro-operations is log entry 5;
that a wire frame is cut the same way, log entry 8; that the host's writes beside `DISP_WRITE_FRAME` and beside a wire frame
are in the buffer, log entry 4. Last: `ADC_READ` cut after its chip-select is asserted. -/
def Obligations.ResetCutsAnyInstruction : Prop :=
  (∀ (s u : State) (i : Instr), BusFree s → s.env.resetIn = none → exec i s = .next u →
    ∃ made, u.history = s.history ++ made ∧
      (∀ k, ∃ t, exec i (s.beside s.env.racing (some k)) = .next t ∧
        ((∃ (before after : List Event) (m : Memory), made = before ++ after ∧ (∀ e ∈ before, ∀ r, e ≠ .resp r) ∧
            ((∀ color, i ≠ .dispClear color) → m = writtenBy s.fb s.env.racing) ∧
            t = { State.reset with
              fb := m
              history := s.history ++ before ++ [Event.reset]
              fbReads := u.fbReads
              env := { s.env with replies := t.env.replies, buttons := t.env.buttons, racing := [], resetIn := none } }) ∨
          ({ t with env := { t.env with resetIn := none } } : State) = u)) ∧
      ∀ before after, made = before ++ after →
        (i.layer = .request → before ≠ [] ∧ (u.phase = .idle → after ≠ [])) →
        ∃ k t, exec i (s.beside s.env.racing (some k)) = .next t ∧ t.history = s.history ++ before ++ [Event.reset]) ∧
  ∀ (s : State) (ch : Byte), ch.toNat ≤ 7 → BusFree s → s.env.racing = [] → s.env.resetIn = some 2 →
    exec (.adcRead ch) s = .next { State.reset with
      fb := s.fb
      history := s.history ++ [Event.req [0x10, ch], .cs .adc true, .reset]
      fbReads := s.fbReads
      env := { s.env with resetIn := none } }

/-- Block reset inside `DISP_CLEAR` (R302): the pixels reached are an ascending run from the first, they hold the color,
and the rest keep their old bytes; no response. -/
def Obligations.ResetCutsAClearAfterAnyPixel : Prop :=
  ∀ (s : State) (color : U16) (k : Nat), k ≤ 76800 → s.env.racing = [] → s.env.resetIn = some k → Memory.wf s.fb →
    ∃ m, exec (.dispClear color) s = .next { State.reset with
        fb := m
        history := s.history ++ [Event.req (encode (.dispClear color)), .reset]
        fbReads := s.fbReads
        env := { s.env with resetIn := none } } ∧
      Memory.wf m ∧
      (∀ i, i < k → Memory.read m (2 * i) = color.extractLsb' 8 8 ∧ Memory.read m (2 * i + 1) = color.extractLsb' 0 8) ∧
      ∀ a, 2 * k ≤ a → Memory.read m a = Memory.read s.fb a

/-! ### Display requests -/

/-- R161: `DISP_RESET` from every `DSTATE`. -/
def Obligations.DispResetPulsesAndWaits : Prop :=
  ∀ s : State, Quiet s →
    exec .dispReset s = .next (({ s with dstate := .resetting, rst := true, timer := none } : State).served .dispReset
      [Event.line .rst false, .wait 50, .line .rst true, .wait 50] ⟨.ok, [], []⟩)

/-- R165: `DISP_INIT` in `RESETTING`, every transfer succeeding: the 31 events and `ON`. -/
def Obligations.DispInitRunsThePowerUpSequence : Prop :=
  ∀ (s : State) (r1 r2 r3 r4 r5 r6 r7 : Byte) (rest : List Reply),
    Quiet s → BusFree s → s.dstate = .resetting →
    s.env.replies = [Reply.ok [r1], .ok [r2], .ok [r3], .ok [r4], .ok [r5], .ok [r6], .ok [r7]] ++ rest →
    exec .dispInit s = .next ((({ s with dstate := .on, dc := false, timer := none } : State).afterReplies 7).served .dispInit
      (commandPhase 0x01 [r1] ++ [Event.wait 150] ++ commandPhase 0x11 [r2] ++ [Event.wait 10] ++
        commandEvents 0x3A [0x55] [r3] [r4] ++ commandEvents 0x36 [0x00] [r5] [r6] ++
        commandPhase 0x29 [r7] ++ [Event.wait 100]) ⟨.ok, [], []⟩)

/-- R166: whatever step a `DISP_INIT` reached when a transfer failed, `DSTATE` is `UNINIT` after. -/
def Obligations.FailedInitIsUninit : Prop :=
  ∀ (s : State) (before : List Bytes) (rest : List Reply),
    Quiet s → BusFree s → s.dstate = .resetting → before.length < 7 →
    s.env.replies = before.map Reply.ok ++ Reply.fail :: rest →
    ∃ t, exec .dispInit s = .next t ∧ t.dstate = .uninit ∧ t.respPort = some ⟨.bus, [], []⟩ ∧ t.phase = .idle ∧ BusFree t

/-- R170: `DISP_SET_WINDOW` in `ON` with a valid window, every transfer succeeding. -/
def Obligations.SetWindowSendsBothAddressSets : Prop :=
  ∀ (s : State) (x0 y0 x1 y1 : U16) (r1 r3 : Byte) (r2 r4 : Bytes) (rest : List Reply),
    Quiet s → BusFree s → s.dstate = .on →
    x0.toNat ≤ x1.toNat → x1.toNat < 320 → y0.toNat ≤ y1.toNat → y1.toNat < 240 → r2.length = 4 → r4.length = 4 →
    s.env.replies = [Reply.ok [r1], .ok r2, .ok [r3], .ok r4] ++ rest →
    exec (.dispSetWindow x0 y0 x1 y1) s =
      .next ((({ s with dc := true } : State).afterReplies 4).served (.dispSetWindow x0 y0 x1 y1)
        (windowProtocol x0 y0 x1 y1 [r1] r2 [r3] r4) ⟨.ok, [], []⟩)

/-- R170, R262 and R269: before `ON` every `DISP_SET_WINDOW` is `STATE`, whatever its window; R171: in `ON` a window that is
not valid is `RANGE`; neither makes an event of its own. -/
def Obligations.SetWindowRefusesStateThenRange : Prop :=
  ∀ (s : State) (x0 y0 x1 y1 : U16), Quiet s →
    (s.dstate ≠ .on →
      exec (.dispSetWindow x0 y0 x1 y1) s = .next (s.served (.dispSetWindow x0 y0 x1 y1) [] ⟨.state, [], []⟩)) ∧
    (s.dstate = .on → ¬(x0.toNat ≤ x1.toNat ∧ x1.toNat < 320 ∧ y0.toNat ≤ y1.toNat ∧ y1.toNat < 240) →
      exec (.dispSetWindow x0 y0 x1 y1) s = .next (s.served (.dispSetWindow x0 y0 x1 y1) [] ⟨.range, [], []⟩))

/-- R172: what the full-panel window sends as column data and as row data. -/
def Obligations.FullPanelWindowBytes : Prop :=
  lastColumn = 319 ∧ lastRow = 239 ∧
  emitWindow 0 0 319 239 = sendCommand 0x2A [0x00, 0x00, 0x01, 0x3F] ++ sendCommand 0x2B [0x00, 0x00, 0x00, 0xEF]

/-- R174 and R175: `DISP_WRITE_FRAME` in `ON`, every transfer succeeding: the full window, then the whole frame buffer in
ascending order as one transfer in one window. -/
def Obligations.WriteFrameStreamsTheBuffer : Prop :=
  ∀ (s : State) (r1 r3 r5 : Byte) (r2 r4 r6 : Bytes) (rest : List Reply),
    Quiet s → BusFree s → s.dstate = .on → r2.length = 4 → r4.length = 4 → r6.length = Config.fbSize →
    s.env.replies = [Reply.ok [r1], .ok r2, .ok [r3], .ok r4, .ok [r5], .ok r6] ++ rest →
    exec .dispWriteFrame s =
      .next ((({ s with dc := true } : State).afterReplies 6).served .dispWriteFrame
        (windowProtocol 0 0 319 239 [r1] r2 [r3] r4 ++
          commandEvents 0x2C (Memory.readList s.fb 0 Config.fbSize) [r5] r6) ⟨.ok, [], []⟩)

/-- R176 and R80: a `BUS` failure in `DISP_SET_WINDOW` or `DISP_WRITE_FRAME` leaves `DSTATE` at `ON` and the frame buffer
as it was. The panel is outside the model. -/
def Obligations.FailedFrameKeepsBufferAndOn : Prop :=
  ∀ (s : State) (i : Instr) (before : List Bytes) (rest : List Reply),
    (i = .dispWriteFrame ∨ ∃ x0 y0 x1 y1, i = .dispSetWindow x0 y0 x1 y1 ∧ validWindow x0 y0 x1 y1 = true) →
    Quiet s → BusFree s → s.dstate = .on → before.length < (transfersOf i s.fb).length →
    s.env.replies = before.map Reply.ok ++ Reply.fail :: rest →
    ∃ t, exec i s = .next t ∧ t.dstate = .on ∧ t.fb = s.fb ∧ t.respPort = some ⟨.bus, [], []⟩ ∧ t.phase = .idle

/-- R177: `DISP_CLEAR` writes every pixel big-endian and does nothing else. -/
def Obligations.ClearFillsEveryPixel : Prop :=
  ∀ (s : State) (color : U16), Quiet s → Memory.wf s.fb →
    ∃ m, exec (.dispClear color) s = .next (({ s with fb := m } : State).served (.dispClear color) [] ⟨.ok, [], []⟩) ∧
      Memory.wf m ∧
      (∀ i, i < 76800 → Memory.read m (2 * i) = color.extractLsb' 8 8 ∧ Memory.read m (2 * i + 1) = color.extractLsb' 0 8) ∧
      ∀ a, 153600 ≤ a → Memory.read m a = Memory.read s.fb a

/-- R179: the backlight duty. -/
def Obligations.BacklightSetsClampedDuty : Prop :=
  ∀ (s : State) (frac : BitVec 32), Quiet s →
    exec (.dispSetBacklight frac) s =
      .next (({ s with blDuty := (min (max frac.toInt 0) 65536).toNat * Config.pwmMax / 65536 } : State).served
        (.dispSetBacklight frac) [Event.bl ((min (max frac.toInt 0) 65536).toNat * Config.pwmMax / 65536)] ⟨.ok, [], []⟩)

/-- R179's results, for every `PWM_MAX`: the duty is in range; it is 0 exactly below one count and `PWM_MAX` exactly at
1.0; a fraction at or below 0 gives 0 and one at or above 1.0 gives `PWM_MAX`. -/
def Obligations.DutyLaws : Prop :=
  ∀ (p : Nat) (frac : BitVec 32), 0 < p →
    dutyOf p frac ≤ p ∧
    (dutyOf p frac = 0 ↔ clampFraction frac * p < 65536) ∧
    (dutyOf p frac = p ↔ clampFraction frac = 65536) ∧
    (frac.toInt ≤ 0 → dutyOf p frac = 0) ∧
    (65536 ≤ frac.toInt → dutyOf p frac = p)

/-- R180: `BTN_READ` samples the four lines once each, in order, and answers their inverses; a level the run does not list
is free. -/
def Obligations.ButtonsAreInverted : Prop :=
  ∀ s : State, Quiet s →
    ∃ raw : Nat → Bool, (∀ i b, i < 4 → s.env.buttons[i]? = some b → raw i = b) ∧
      exec .btnRead s = .next (({ s with env := { s.env with buttons := s.env.buttons.drop 4 } } : State).served .btnRead []
        ⟨.ok, [pressedByte raw], []⟩)

/-- R183: `LED_WRITE` drives R, G and B in turn. -/
def Obligations.LedWriteDrivesThreeLines : Prop :=
  ∀ (s : State) (rgb : Byte), Quiet s →
    exec (.ledWrite rgb) s =
      .next (({ s with ledR := rgb.getLsbD 0, ledG := rgb.getLsbD 1, ledB := rgb.getLsbD 2 } : State).served (.ledWrite rgb)
        [Event.line .ledR (rgb.getLsbD 0), .line .ledG (rgb.getLsbD 1), .line .ledB (rgb.getLsbD 2)] ⟨.ok, [], []⟩)

/-! ### ADC requests -/

/-- R205: `ADC_READ` of a channel in 0 to 7, its transfer succeeding: one window, and the sample. -/
def Obligations.AdcReadAnswersOneSample : Prop :=
  ∀ (s : State) (ch r0 r1 r2 : Byte) (rest : List Reply),
    Quiet s → BusFree s → ch.toNat ≤ 7 → s.env.replies = .ok [r0, r1, r2] :: rest →
    exec (.adcRead ch) s =
      .next ((s.afterReplies 1).served (.adcRead ch) (windowEvents .adc (adcFrame ch) [r0, r1, r2])
        ⟨.ok, [ch, r1 &&& 0x0F, r2], [⟨ch, decodeRaw [r0, r1, r2], voltage Config.vref (decodeRaw [r0, r1, r2])⟩]⟩)

/-- R211: `ADC_READ_ALL` with eight successful transfers: eight windows in ascending order, eight samples. -/
def Obligations.AdcReadAllSweepsInOrder : Prop :=
  ∀ (s : State) (rxs : List Bytes) (rest : List Reply),
    Quiet s → BusFree s → rxs.length = 8 → (∀ rx ∈ rxs, rx.length = 3) → s.env.replies = rxs.map Reply.ok ++ rest →
    exec .adcReadAll s =
      .next ((s.afterReplies 8).served .adcReadAll (sweepEvents 0 rxs)
        ⟨.ok, (sweepSamples 0 rxs).flatMap sampleRecord, sweepSamples 0 rxs⟩)

/-- R212: sample `k` of a successful sweep is the sample `ADC_READ k` returns for the same received bytes; the response has
exactly 8 samples, their channels 0 to 7. -/
def Obligations.SweepAgreesWithSingleReads : Prop :=
  ∀ (s t : State) (rxs : List Bytes) (rest : List Reply),
    Quiet s → BusFree s → rxs.length = 8 → (∀ rx ∈ rxs, rx.length = 3) → s.env.replies = rxs.map Reply.ok ++ rest →
    exec .adcReadAll s = .next t →
    ∃ r, t.respPort = some r ∧ r.samples.length = 8 ∧ r.samples.map Sample.channel = [0, 1, 2, 3, 4, 5, 6, 7] ∧
      ∀ (k : Nat) (s' t' : State) (rx : Bytes) (rest' : List Reply), k < 8 → rxs[k]? = some rx →
        Quiet s' → BusFree s' → s'.env.replies = .ok rx :: rest' →
        exec (.adcRead (BitVec.ofNat 8 k)) s' = .next t' →
        ∃ r', t'.respPort = some r' ∧ r'.samples = (r.samples[k]?).toList

/-- R215: the self-test passes exactly on FF FF, a failed transfer is the verdict 0x00, and the status is `OK` both ways. -/
def Obligations.SelftestVerdict : Prop :=
  ∀ (s : State) (rest : List Reply), Quiet s → BusFree s →
    (∀ r0 r1, s.env.replies = .ok [r0, r1] :: rest →
      exec .adcSelftest s = .next ((s.afterReplies 1).served .adcSelftest (windowEvents .adc [0xFF, 0xFF] [r0, r1])
        ⟨.ok, [if r0 = 0xFF ∧ r1 = 0xFF then 0x01 else 0x00], []⟩)) ∧
    (s.env.replies = .fail :: rest →
      exec .adcSelftest s = .next ((s.afterReplies 1).served .adcSelftest (failedWindow .adc [0xFF, 0xFF])
        ⟨.ok, [0x00], []⟩))

/-- R202: the decode; `rx[0]` and `rx[1][7:4]` never matter, and the value is at most 4095. -/
def Obligations.DecodeRawTakesTwelveBits : Prop :=
  ∀ r0 r1 r2 : Byte,
    (decodeRaw [r0, r1, r2]).toNat = (r1.toNat % 16) * 256 + r2.toNat ∧ (decodeRaw [r0, r1, r2]).toNat ≤ 4095 ∧
    ∀ r0' r1' : Byte, r1'.toNat % 16 = r1.toNat % 16 → decodeRaw [r0', r1', r2] = decodeRaw [r0, r1, r2]

/-- R203: the voltage is exact, in 0 to `VREF`, exact at both ends, and strictly increasing; `VREF` is positive. -/
def Obligations.VoltageLaws : Prop :=
  0 < Config.vref ∧
  ∀ q : Rat, 0 < q →
    (∀ raw : BitVec 12, voltage q raw = (raw.toNat : Rat) * q / 4095 ∧ 0 ≤ voltage q raw ∧ voltage q raw ≤ q) ∧
    voltage q 0 = 0 ∧ voltage q 4095 = q ∧
    ∀ a b : BitVec 12, a.toNat < b.toNat → voltage q a < voltage q b

/-- R113: a host that holds only the bytes of a sample record computes the same voltage. -/
def Obligations.RecordCarriesTheVoltage : Prop :=
  ∀ (ch r0 r1 r2 : Byte),
    recordVoltage Config.vref (sampleRecord (sampleOf ch [r0, r1, r2])) = (sampleOf ch [r0, r1, r2]).voltage

/-! ### Multiplexer requests -/

/-- R242: `MUX_SELECT` of a channel in 0 to 15 drives the four lines, least-significant bit first, and the address is the
channel. -/
def Obligations.MuxSelectDrivesAddress : Prop :=
  ∀ (s : State) (ch : Byte), Quiet s → ch.toNat ≤ 15 →
    exec (.muxSelect ch) s =
      .next (({ s with muxA := ch.setWidth 4 } : State).served (.muxSelect ch)
        [Event.line .muxA0 (ch.getLsbD 0), .line .muxA1 (ch.getLsbD 1), .line .muxA2 (ch.getLsbD 2), .line .muxA3 (ch.getLsbD 3)]
        ⟨.ok, [], []⟩)

/-- R244 to R246: the enable line, low to enable; without one both requests only answer `OK`. -/
def Obligations.MuxEnableDrivesTheFifthLine : Prop :=
  ∀ s : State, Quiet s →
    exec .muxEnable s = .next (if Config.hasMuxEn then
        ({ s with muxEnN := false } : State).served .muxEnable [Event.line .muxEnN false] ⟨.ok, [], []⟩
      else s.served .muxEnable [] ⟨.ok, [], []⟩) ∧
    exec .muxDisable s = .next (if Config.hasMuxEn then
        ({ s with muxEnN := true } : State).served .muxDisable [Event.line .muxEnN true] ⟨.ok, [], []⟩
      else s.served .muxDisable [] ⟨.ok, [], []⟩)

/-- R313: while `MUX_SELECT` runs, the multiplexer sees four addresses; the `j`-th has the new channel's bits up to line
`j` and the old address's bits above. -/
def Obligations.MuxGlitchAddresses : Prop :=
  ∀ (s t : State) (ch : Byte), Quiet s → ch.toNat ≤ 15 → exec (.muxSelect ch) s = .next t →
    ∃ trail, addressTrail s.muxA (t.history.drop s.history.length) = s.muxA :: (trail ++ [t.muxA]) ∧ trail.length = 4 ∧
      ∀ j b, j < 4 → b < 4 →
        (trail.getD j 0).getLsbD b = if b ≤ j then ch.getLsbD b else s.muxA.getLsbD b

/-! ### Wire frames -/

/-- R148 for the command frames without data: software reset, sleep-out and display on, by themselves, the transfer
succeeding (log entry 8). -/
def Obligations.CommandFramesIssueOnePhase : Prop :=
  ∀ (s : State) (i : Instr) (cmd r : Byte) (rest : List Reply),
    (i = .dcsSwreset ∧ cmd = 0x01 ∨ i = .dcsSlpout ∧ cmd = 0x11 ∨ i = .dcsDispon ∧ cmd = 0x29) →
    BusFree s → Quiet s → s.env.replies = .ok [r] :: rest →
    exec i s = .next ((({ s with dc := false } : State).afterReplies 1).issued (commandPhase cmd [r]) [r])

/-- R148 for the command frames with data: color mode, memory access control, column- and row-address-set, by themselves,
the transfers succeeding (log entry 8). -/
def Obligations.DataFramesIssueTwoPhases : Prop :=
  ∀ (s : State) (i : Instr) (cmd r1 : Byte) (data r2 : Bytes) (rest : List Reply),
    (i = .dcsColmod ∧ cmd = 0x3A ∧ data = [0x55] ∨ i = .dcsMadctl ∧ cmd = 0x36 ∧ data = [0x00] ∨
      (∃ x0 x1, i = .dcsCaset x0 x1 ∧ cmd = 0x2A ∧ data = enc16 x0 ++ enc16 x1) ∨
      (∃ y0 y1, i = .dcsRaset y0 y1 ∧ cmd = 0x2B ∧ data = enc16 y0 ++ enc16 y1)) →
    BusFree s → Quiet s → r2.length = data.length → s.env.replies = .ok [r1] :: .ok r2 :: rest →
    exec i s = .next ((({ s with dc := true } : State).afterReplies 2).issued (commandEvents cmd data [r1] r2) r2)

/-- R120 and R174 for the memory write by itself: the command phase, then the whole frame buffer in one transfer
(log entry 8). -/
def Obligations.MemoryWriteFrameStreams : Prop :=
  ∀ (s : State) (r1 : Byte) (r2 : Bytes) (rest : List Reply),
    BusFree s → Quiet s → r2.length = Config.fbSize → s.env.replies = .ok [r1] :: .ok r2 :: rest →
    exec .dcsRamwr s = .next ((({ s with dc := true } : State).afterReplies 2).issued
      (commandEvents 0x2C (Memory.readList s.fb 0 Config.fbSize) [r1] r2) r2)

/-- The ADC frames by themselves: R200's frame of every channel, written out by its bits, and R215's two bytes of ones; one
window each (log entry 8). -/
def Obligations.AdcFramesExchange : Prop :=
  (∀ (s : State) (ch r0 r1 r2 : Byte) (rest : List Reply),
    ch.toNat < 8 → BusFree s → Quiet s → s.env.replies = .ok [r0, r1, r2] :: rest →
    exec (.adcFrame ch) s = .next ((({ s with work := { s.work with ch := ch } } : State).afterReplies 1).issued
      (windowEvents .adc [BitVec.ofNat 8 (6 + ch.toNat / 4), BitVec.ofNat 8 (ch.toNat % 4 * 64), 0x00] [r0, r1, r2])
      [r0, r1, r2])) ∧
  ∀ (s : State) (r0 r1 : Byte) (rest : List Reply),
    BusFree s → Quiet s → s.env.replies = .ok [r0, r1] :: rest →
    exec .adcSelftestFrame s = .next ((s.afterReplies 1).issued (windowEvents .adc [0xFF, 0xFF] [r0, r1]) [r0, r1])

/-- The ADC response and the multiplexer pattern by themselves: R202's decode becomes a sample of the last frame's channel,
R241's bits drive the four lines; no bus (log entries 8 and 10). -/
def Obligations.ResponseAndAddressPatterns : Prop :=
  (∀ (s : State) (r0 r1 r2 : Byte), Quiet s →
    exec (.adcResponse r0 r1 r2) s =
      .next (({ s with work := { s.work with
        out := s.work.out ++ [⟨s.work.ch, decodeRaw [r0, r1, r2], voltage Config.vref (decodeRaw [r0, r1, r2])⟩] } } : State).issued
        [] [r0, r1, r2])) ∧
  ∀ (s : State) (ch : Byte), Quiet s → ch.toNat < 16 →
    exec (.muxAddress ch) s = .next (({ s with muxA := ch.setWidth 4 } : State).issued
      [Event.line .muxA0 (ch.getLsbD 0), .line .muxA1 (ch.getLsbD 1), .line .muxA2 (ch.getLsbD 2), .line .muxA3 (ch.getLsbD 3)]
      s.work.rx)

/-! ### Errors -/

/-- R261: a channel operand outside its domain, 0 to 7 for `ADC_READ` and 0 to 15 for `MUX_SELECT`, is `RANGE`; no line
changes and no event but `REQ` and `RESP` is recorded. -/
def Obligations.ChannelOutsideItsDomainIsRange : Prop :=
  ∀ (s : State) (ch : Byte), Quiet s →
    (7 < ch.toNat → exec (.adcRead ch) s = .next (s.served (.adcRead ch) [] ⟨.range, [], []⟩)) ∧
    (15 < ch.toNat → exec (.muxSelect ch) s = .next (s.served (.muxSelect ch) [] ⟨.range, [], []⟩))

/-- R262: `DISP_INIT` outside `RESETTING` and `DISP_WRITE_FRAME` outside `ON` are refused with `STATE`; no line changes, no
event but `REQ` and `RESP` is recorded and `DSTATE` stays. -/
def Obligations.WrongDisplayStateIsState : Prop :=
  ∀ s : State, Quiet s →
    (s.dstate ≠ .resetting → exec .dispInit s = .next (s.served .dispInit [] ⟨.state, [], []⟩)) ∧
    (s.dstate ≠ .on → exec .dispWriteFrame s = .next (s.served .dispWriteFrame [] ⟨.state, [], []⟩))

/-- R263, R137, R140: in a request that passes its checks, when transfer number `before.length` of those the rules give it
fails, that transfer's chip-select is released, the transfers after it are not made, and the request ends with `BUS`;
`ADC_SELFTEST` alone answers `OK` with the verdict 0x00 instead. A wire frame run alone ends the same way, without `REQ` and
without a response (the model's choice, log entry 8). -/
def Obligations.BusFailureEndsTheRequest : Prop :=
  ∀ (s : State) (i : Instr) (before : List Bytes) (rest : List Reply) (d : Device) (tx : Bytes),
    Quiet s → BusFree s → precheck i s.dstate = none → (transfersOf i s.fb)[before.length]? = some (d, tx) →
    s.env.replies = before.map Reply.ok ++ Reply.fail :: rest →
    ∃ (t : State) (made : List Event),
      exec i s = .next t ∧ t.env.replies = rest ∧ t.phase = .idle ∧ BusFree t ∧
      t.respPort = (failureResponse i).or s.respPort ∧
      made.filterMap completedTransfer = (transfersOf i s.fb).take before.length ∧ (∀ e ∈ made, ∀ m, e ≠ .resp m) ∧
      t.history = s.history ++ opening i ++ made ++ [Event.cs d true, .xferFail d tx, .cs d false] ++
        (failureResponse i).toList.map fun r => Event.resp r.message

/-- R270, R316: when transfer number `before.length` of those the rules give a request hangs, its chip-select stays asserted
and the request has no response; `DSTATE` is as it was, in `DISP_INIT` the one R167 gives that step (R24). That the hang is a
next state is the model's choice (log entry 6), and that a wire frame hangs the same way (log entry 8). -/
def Obligations.HangKeepsChipSelectAsserted : Prop :=
  ∀ (s : State) (i : Instr) (before : List Bytes) (rest : List Reply) (d : Device) (tx : Bytes),
    Quiet s → BusFree s → precheck i s.dstate = none → (transfersOf i s.fb)[before.length]? = some (d, tx) →
    s.env.replies = before.map Reply.ok ++ Reply.hang :: rest →
    ∃ (t : State) (k : Nat) (made : List Event),
      exec i s = .next t ∧ t.phase = .busy i k ∧ t.reqPort = (if i.layer = .request then some (encode i) else s.reqPort) ∧
      t.respPort = s.respPort ∧ t.openWindow = some d ∧
      t.dstate = (if i = .dispInit then initState before.length else s.dstate) ∧
      made.filterMap completedTransfer = (transfersOf i s.fb).take before.length ∧ (∀ e ∈ made, ∀ m, e ≠ .resp m) ∧
      t.history = s.history ++ opening i ++ made ++ [Event.cs d true]

/-- R265: the statuses each request can return, from every state, an old response at the port or none, and whatever happens
outside: where the request leaves the block idle, a response at the port has one of its statuses (block reset leaves none
there). -/
def Obligations.StatusesAreThoseOfTheTable : Prop :=
  ∀ (s t : State) (i : Instr) (r : Response), i.layer = .request → exec i s = .next t → t.phase = .idle →
    t.respPort = some r → r.status ∈ statusesOf i

/-- R110: a request that is served to its end emits exactly one response, its last event, which is the one at the port;
the payload is empty unless the status is `OK`. -/
def Obligations.EveryServedRequestAnswersOnce : Prop :=
  ∀ (s t : State) (i : Instr), i.layer = .request → s.env.resetIn = none → exec i s = .next t → t.phase = .idle →
    ∃ (r : Response) (made : List Event), t.respPort = some r ∧
      t.history = s.history ++ Event.req (encode i) :: made ++ [Event.resp r.message] ∧ (∀ e ∈ made, ∀ m, e ≠ .resp m) ∧
      (r.status ≠ .ok → r.payload = [])

/-- Every instruction answers a next state while both chip-selects are deasserted: a request ends in one of the ways of R265,
is cut by block reset, or hangs; that a hang is a next state, and that each wire frame has a step of its own, are the model's
choices (log entries 6 and 8). -/
def Obligations.EveryInstructionHasAStep : Prop :=
  ∀ (s : State) (i : Instr), BusFree s → ∃ t, exec i s = .next t

/-! ### Races with the host -/

/-- R74 for `DISP_WRITE_FRAME`: a streamed byte whose offset the host does not write meanwhile is the frame buffer's. The
last three events hold the stream; nothing is said of a raced offset. -/
def Obligations.StreamIsTheBufferWhereNotRaced : Prop :=
  ∀ (s : State) (r1 r3 r5 : Byte) (r2 r4 r6 : Bytes) (rest : List Reply),
    s.env.resetIn = none → BusFree s → s.dstate = .on → Memory.wf s.fb → r2.length = 4 → r4.length = 4 →
    r6.length = Config.fbSize →
    s.env.replies = [Reply.ok [r1], .ok r2, .ok [r3], .ok r4, .ok [r5], .ok r6] ++ rest →
    ∃ (t : State) (made : List Event) (data : Bytes), exec .dispWriteFrame s = .next t ∧
      t.history = s.history ++ made ++ [Event.cs .disp true, .xfer .disp data r6, .cs .disp false, .resp [0x00]] ∧
      data.length = Config.fbSize ∧
      ∀ a, a < Config.fbSize → a ∉ racedOffsets s.env.racing → data[a]? = some (Memory.read s.fb a)

/-- R74 for `DISP_CLEAR`: a byte whose offset the host does not write meanwhile holds the color after; nothing is said of
a raced offset. -/
def Obligations.ClearFillsWhereNotRaced : Prop :=
  ∀ (s : State) (color : U16), s.env.resetIn = none → Memory.wf s.fb →
    ∃ t, exec (.dispClear color) s = .next t ∧ t.respPort = some ⟨.ok, [], []⟩ ∧ Memory.wf t.fb ∧
      ∀ i, i < 76800 →
        (2 * i ∉ racedOffsets s.env.racing → Memory.read t.fb (2 * i) = color.extractLsb' 8 8) ∧
        (2 * i + 1 ∉ racedOffsets s.env.racing → Memory.read t.fb (2 * i + 1) = color.extractLsb' 0 8)

/-! ### Whole-machine rules -/

/-- The state after reset meets the invariant. -/
def Obligations.ResetMeetsTheInvariant : Prop := Invariant State.reset

/-- R134 to R138, R136: every step keeps the invariant: the chip-select discipline of the history, at most one chip-select
asserted, a waiting block at rest, the frame buffer canonical, the duty in range. -/
def Obligations.EveryStepKeepsTheInvariant : Prop :=
  ∀ s t : State, Invariant s → step s = .next t → Invariant t

/-- R13, R73: a step only appends to the history. -/
def Obligations.HistoryOnlyGrows : Prop :=
  ∀ s t : State, step s = .next t → ∃ made, t.history = s.history ++ made

/-- R23's writers, R27, R28, R40, R160, R240: without a block reset, each latch and line is changed only by its own
instructions. The frame buffer is changed by `DISP_CLEAR` and by the host only (R36): beside any other request but
`DISP_WRITE_FRAME`, where the host may access it freely (R74), each offset holds the byte the host wrote there last, if it
wrote one, and a read returns the byte that is there at that moment; a read beside `DISP_CLEAR` returns one byte, any value
(R74). The rest is the model's choice, no rule of the spec (log entry 4): that a read beside `DISP_WRITE_FRAME`, which R74
forbids without naming an outcome, returns a byte; that an offset the host wrote beside `DISP_WRITE_FRAME` holds the host's
byte afterwards, which reads R74's "streamed byte" as the only unspecified one beside the wider words of R312 and S2; and
that a wire frame, which is run alone by log entry 8, `DCS_RAMWR` among them, has host accesses beside it at all. -/
def Obligations.LatchesHaveTheirWriters : Prop :=
  ∀ (s t : State) (i : Instr), s.env.resetIn = none → exec i s = .next t →
    (i ≠ .dispReset → i ≠ .dispInit → t.dstate = s.dstate) ∧
    (i ≠ .dispReset → i ≠ .dispInit → t.timer = s.timer) ∧
    (i ≠ .dispReset → t.rst = s.rst) ∧
    ((∀ ch, i ≠ .muxSelect ch) → (∀ ch, i ≠ .muxAddress ch) → t.muxA = s.muxA) ∧
    (i ≠ .muxEnable → i ≠ .muxDisable → t.muxEnN = s.muxEnN) ∧
    ((∀ rgb, i ≠ .ledWrite rgb) → t.ledR = s.ledR ∧ t.ledG = s.ledG ∧ t.ledB = s.ledB) ∧
    ((∀ frac, i ≠ .dispSetBacklight frac) → t.blDuty = s.blDuty) ∧
    (i.layer ≠ .display → i ≠ .dispInit → (∀ x0 y0 x1 y1, i ≠ .dispSetWindow x0 y0 x1 y1) → i ≠ .dispWriteFrame →
      t.dc = s.dc ∧ t.csDisp = s.csDisp) ∧
    ((∀ ch, i ≠ .adcRead ch) → i ≠ .adcReadAll → i ≠ .adcSelftest → i.layer ≠ .adcOut → t.csAdc = s.csAdc) ∧
    ((∀ color, i ≠ .dispClear color) → t.fb = writtenBy s.fb s.env.racing ∧
      (Memory.wf s.fb → ∀ a, a < Config.fbSize →
        Memory.read t.fb a = (lastWritten a s.env.racing).getD (Memory.read s.fb a))) ∧
    ((∀ color, i ≠ .dispClear color) → i ≠ .dispWriteFrame → i ≠ .dcsRamwr →
      t.fbReads = s.fbReads ++ readBy s.fb s.env.racing) ∧
    ∃ returned, t.fbReads = s.fbReads ++ returned ∧ returned.length = (readBy s.fb s.env.racing).length

/-- R121: every transfer to the display with `DC` at 0, completed or failed, is one of the eight command bytes of R120 by
itself, whatever happens outside. -/
def Obligations.OnlyTableCommandsAreSent : Prop :=
  ∀ (s t : State) (i : Instr), exec i s = .next t → ∃ made, t.history = s.history ++ made ∧
    ∀ x ∈ displayTransfers s.dc made, x.1 = false → ∃ c ∈ commandSet, x.2 = [c]

/-- R44: the frame buffer decides no control path: two states that differ only in it give the same response, phase and
`DSTATE`, as long as the bus answers as the run lists. -/
def Obligations.FrameBufferDecidesNothing : Prop :=
  ∀ (s t u : State) (i : Instr) (m : Memory), i.layer = .request →
    (transfersOf i s.fb).length ≤ s.env.replies.length →
    exec i s = .next t → exec i { s with fb := m } = .next u →
    t.respPort = u.respPort ∧ t.phase = u.phase ∧ t.dstate = u.dstate

/-- R320: the waits of one `DISP_RESET` and one completed `DISP_INIT` sum to 360 ms. -/
def Obligations.BringUpWaitsSumTo360 : Prop :=
  ∀ (s t u : State) (r1 r2 r3 r4 r5 r6 r7 : Byte) (rest : List Reply),
    Quiet s → BusFree s →
    s.env.replies = [Reply.ok [r1], .ok [r2], .ok [r3], .ok [r4], .ok [r5], .ok [r6], .ok [r7]] ++ rest →
    exec .dispReset s = .next t → exec .dispInit t = .next u →
    u.dstate = .on ∧ waitTotal u.history = waitTotal s.history + 360

/-- The electrical level of a chip-select (R26, R123), the bus configuration in force (R45, R141) and the order of bits on the
wire (R60). An asserted chip-select is low and a deasserted one high (the spec's decision D8). The configuration in force is
that of the selected device in a window; between windows it is one of the two devices', which one is free, and that there is
no third is the model's choice (log entry 13). While an
instruction runs, a chip-select is asserted only when both are deasserted, every transfer is made with the configuration of
its device, and the configuration differs before and after an event only where both chip-selects are deasserted on one side
of it. Byte `k` of a transfer is bits `8*k` to `8*k+7` of the wire, most-significant first (the spec's decision D9; log entry
13). -/
def Obligations.LevelsConfigurationAndBitOrder : Prop :=
  (∀ (s : State) (d : Device), s.csLevel d = !s.selected d) ∧
  (∀ s : State, s.busConfig = Config.spi .disp ∨ s.busConfig = Config.spi .adc) ∧
  (∀ s : State, s.csDisp = true → s.csAdc = false → s.busConfig = Config.spi .disp) ∧
  (∀ s : State, s.csDisp = false → s.csAdc = true → s.busConfig = Config.spi .adc) ∧
  (∀ (s t : State) (i : Instr), BusFree s → exec i s = .next t →
    ∃ made, t.history = s.history ++ made ∧ (∀ d, (s.replay made).selected d = t.selected d) ∧
      ∀ before e after, made = before ++ e :: after →
        (∀ d, e = .cs d true → BusFree (s.replay before)) ∧
        (∀ d tx, sentTo d e = some tx → (s.replay before).openWindow = some d ∧ (s.replay before).busConfig = Config.spi d) ∧
        ((s.replay before).busConfig ≠ (s.replay (before ++ [e])).busConfig →
          BusFree (s.replay before) ∨ BusFree (s.replay (before ++ [e])))) ∧
  ∀ tx : Bytes, (wireBits tx).length = 8 * tx.length ∧
    ∀ k j, k < tx.length → j < 8 → (wireBits tx)[8 * k + j]? = some ((tx.getD k 0).getLsbD (7 - j))

/-- R62: the pixels' offsets do not overlap and end at `FB_SIZE - 1`. -/
def Obligations.PixelOffsetsPartitionTheBuffer : Prop :=
  (∀ x y x' y', x < 320 → y < 240 → x' < 320 → y' < 240 → pixelOffset x y = pixelOffset x' y' → x = x' ∧ y = y') ∧
  (∀ x y, x < 320 → y < 240 → pixelOffset x y + 1 < Config.fbSize) ∧
  (∀ a, a < Config.fbSize → ∃ x y, x < 320 ∧ y < 240 ∧ (a = pixelOffset x y ∨ a = pixelOffset x y + 1)) ∧
  pixelOffset 319 239 + 1 = 153599

/-- R100, R101: the pseudo-requests and the fraction operand assemble as the spec's examples say (95_test_vectors 2.1). -/
def Obligations.AssemblerExamples : Prop :=
  assembleLine "DISP_SET_BACKLIGHT 0.5" = some [0x06, 0x00, 0x00, 0x80, 0x00] ∧
  assembleLine "DISP_SET_BACKLIGHT -0.5" = some [0x06, 0xFF, 0xFF, 0x80, 0x00] ∧
  assembleLine "DISP_SET_BACKLIGHT 0.1" = none ∧
  assembleLine "SHOW ; the whole frame" = some [0x04] ∧
  assembleLine "DISP_SET_WINDOW_FULL" = some [0x03, 0x00, 0x00, 0x00, 0x00, 0x01, 0x3F, 0x00, 0xEF] ∧
  assembleLine "ADC_READ_RAW 5" = some [0x10, 0x05]
end

