-- ==== Sys2Proof/Laws/PerInstr.lean ====
section
/-! SUPPORT. Laws proved one instruction at a time. -/

namespace Sys2Proof.Laws.WordLength

open Sys2Proof

/-- An instruction's word is 1 to 9 bytes (spec/30_encoding.md R90, R93; the wire frames are shorter still). -/
def Statement (i : Instr) : Prop := 1 ≤ (encode i).length ∧ (encode i).length ≤ 9

theorem dispReset : Statement .dispReset := ⟨by decide, by decide⟩
theorem dispInit : Statement .dispInit := ⟨by decide, by decide⟩
theorem dispSetWindow (x0 y0 x1 y1 : U16) : Statement (.dispSetWindow x0 y0 x1 y1) := ⟨Nat.le_add_left 1 _, Nat.le_of_ble_eq_true rfl⟩
theorem dispWriteFrame : Statement .dispWriteFrame := ⟨by decide, by decide⟩
theorem dispClear (color : U16) : Statement (.dispClear color) := ⟨Nat.le_add_left 1 _, Nat.le_of_ble_eq_true rfl⟩
theorem dispSetBacklight (frac : BitVec 32) : Statement (.dispSetBacklight frac) := ⟨Nat.le_add_left 1 _, Nat.le_of_ble_eq_true rfl⟩
theorem btnRead : Statement .btnRead := ⟨by decide, by decide⟩
theorem ledWrite (rgb : Byte) : Statement (.ledWrite rgb) := ⟨Nat.le_add_left 1 _, Nat.le_of_ble_eq_true rfl⟩
theorem adcRead (ch : Byte) : Statement (.adcRead ch) := ⟨Nat.le_add_left 1 _, Nat.le_of_ble_eq_true rfl⟩
theorem adcReadAll : Statement .adcReadAll := ⟨by decide, by decide⟩
theorem adcSelftest : Statement .adcSelftest := ⟨by decide, by decide⟩
theorem muxSelect (ch : Byte) : Statement (.muxSelect ch) := ⟨Nat.le_add_left 1 _, Nat.le_of_ble_eq_true rfl⟩
theorem muxEnable : Statement .muxEnable := ⟨by decide, by decide⟩
theorem muxDisable : Statement .muxDisable := ⟨by decide, by decide⟩
theorem dcsSwreset : Statement .dcsSwreset := ⟨by decide, by decide⟩
theorem dcsSlpout : Statement .dcsSlpout := ⟨by decide, by decide⟩
theorem dcsColmod : Statement .dcsColmod := ⟨by decide, by decide⟩
theorem dcsMadctl : Statement .dcsMadctl := ⟨by decide, by decide⟩
theorem dcsDispon : Statement .dcsDispon := ⟨by decide, by decide⟩
theorem dcsCaset (x0 x1 : U16) : Statement (.dcsCaset x0 x1) := ⟨Nat.le_add_left 1 _, Nat.le_of_ble_eq_true rfl⟩
theorem dcsRaset (y0 y1 : U16) : Statement (.dcsRaset y0 y1) := ⟨Nat.le_add_left 1 _, Nat.le_of_ble_eq_true rfl⟩
theorem dcsRamwr : Statement .dcsRamwr := ⟨by decide, by decide⟩
theorem adcFrame (ch : Byte) : Statement (.adcFrame ch) := ⟨Nat.le_add_left 1 _, Nat.le_of_ble_eq_true rfl⟩
theorem adcResponse (rx0 rx1 rx2 : Byte) : Statement (.adcResponse rx0 rx1 rx2) := ⟨Nat.le_add_left 1 _, Nat.le_of_ble_eq_true rfl⟩
theorem adcSelftestFrame : Statement .adcSelftestFrame := ⟨by decide, by decide⟩
theorem muxAddress (ch : Byte) : Statement (.muxAddress ch) := ⟨Nat.le_add_left 1 _, Nat.le_of_ble_eq_true rfl⟩

end Sys2Proof.Laws.WordLength
end

