-- ==== Sys2Proof/Tests/Slice0.lean ====
section
/-! SUPPORT. Tests. Every expected value is taken from the spec: the vectors W, E, T, DV, A, M and X of
spec/95_test_vectors.md, the formats of spec/30_encoding.md and the frame tables of spec/42_adc.md and spec/43_mux.md.
The theorems named witness_… show, for each statement with hypotheses, a state and operands that meet all of them. -/

namespace Sys2Proof.Tests

open Sys2Proof Sys2Proof.Machine

/-! ### Small states -/

/-- After reset, the next transfers answered by the listed replies. -/
def fresh (replies : List Reply) : State := { State.reset with env := { replies := replies } }

/-- `fresh` in a display state. -/
def inState (d : DState) (replies : List Reply) : State := { fresh replies with dstate := d }

/-- `fresh` with the listed button levels. -/
def pressing (levels : List Bool) : State := { State.reset with env := { buttons := levels } }

/-- `fresh` with moves on the agenda. -/
def moves (agenda : List Move) : State := { State.reset with env := { agenda := agenda } }

/-- A block whose ADC transfer hangs. -/
def hungAdc (agenda : List Move) : State :=
  { State.reset with phase := .busy (.adcRead 0) 3, csAdc := true, reqPort := some [0x10, 0x00], env := { agenda := agenda } }

/-- Does a meaning answer a next state? -/
def answers (o : Outcome) : Bool :=
  match o with
  | .next _ => true
  | .fault _ => false
  | .refused _ => false

/-- The state a meaning answers. -/
def after (o : Outcome) (s : State) : State :=
  match o with
  | .next t => t
  | .fault _ => s
  | .refused _ => s

theorem exists_next (o : Outcome) (h : answers o = true) : ∃ t, o = .next t := by
  cases o with
  | next t => exact ⟨t, rfl⟩
  | fault f => cases h
  | refused r => cases h

/-- The events of a request run from a state. -/
def events (i : Instr) (s : State) : List Event := (after (exec i s) s).history

/-- The response message at the port after a request. -/
def response (i : Instr) (s : State) : Option Bytes := (after (exec i s) s).respPort.map Response.message

/-- Seven one-byte replies. -/
def sevenOk : List Reply := [Reply.ok [0], .ok [0], .ok [0], .ok [0], .ok [0], .ok [0], .ok [0]]

/-- Replies to the four transfers of a window. -/
def windowOk : List Reply := [Reply.ok [0], .ok [0, 0, 0, 0], .ok [0], .ok [0, 0, 0, 0]]

/-- The received bytes of a sweep. -/
def sweepBytes : List Bytes :=
  [[0, 0, 0], [0, 0, 1], [0, 1, 0], [0, 8, 0], [0, 15, 255], [255, 240, 7], [1, 2, 3], [255, 255, 255]]

/-! ### Well-formedness: an ill-formed term for each check -/

theorem test_wf_led : (Instr.ledWrite 0x08).wf = false ∧ (Instr.ledWrite 0x80).wf = false ∧ (Instr.ledWrite 0x07).wf = true := by decide

theorem test_wf_caset : (Instr.dcsCaset 5 3).wf = false ∧ (Instr.dcsCaset 0 320).wf = false ∧ (Instr.dcsCaset 0 319).wf = true := by decide

theorem test_wf_raset : (Instr.dcsRaset 5 3).wf = false ∧ (Instr.dcsRaset 0 240).wf = false ∧ (Instr.dcsRaset 239 239).wf = true := by decide

theorem test_wf_adcFrame : (Instr.adcFrame 8).wf = false ∧ (Instr.adcFrame 7).wf = true := by decide

theorem test_wf_muxAddress : (Instr.muxAddress 16).wf = false ∧ (Instr.muxAddress 15).wf = true := by decide

/-! ### Decoding: a word written out from the spec for every constructor -/

/-- Format N of R93: the opcode byte alone, the opcodes of R94. -/
theorem test_decode_formatN :
    decodeRequest [0x01] = .ok .dispReset ∧ decodeRequest [0x02] = .ok .dispInit ∧
    decodeRequest [0x04] = .ok .dispWriteFrame ∧ decodeRequest [0x07] = .ok .btnRead ∧
    decodeRequest [0x11] = .ok .adcReadAll ∧ decodeRequest [0x12] = .ok .adcSelftest ∧
    decodeRequest [0x21] = .ok .muxEnable ∧ decodeRequest [0x22] = .ok .muxDisable := by decide

/-- E11: format W, x0 y0 x1 y1 each high byte first. -/
theorem test_decode_setWindow :
    decodeRequest [0x03, 0x00, 0x0A, 0x00, 0x14, 0x01, 0x2C, 0x00, 0xC8] = .ok (.dispSetWindow 10 20 300 200) := by decide

/-- E12. -/
theorem test_decode_clear : decodeRequest [0x05, 0xF8, 0x00] = .ok (.dispClear 0xF800) := by decide

/-- E13 and E15. -/
theorem test_decode_backlight :
    decodeRequest [0x06, 0x00, 0x00, 0x80, 0x00] = .ok (.dispSetBacklight 0x00008000) ∧
    decodeRequest [0x06, 0x80, 0x00, 0x00, 0x00] = .ok (.dispSetBacklight 0x80000000) := by decide

/-- E16. -/
theorem test_decode_led : decodeRequest [0x08, 0x07] = .ok (.ledWrite 7) := by decide

/-- E17, and a channel out of its domain, which decodes (R97). -/
theorem test_decode_adcRead : decodeRequest [0x10, 0x07] = .ok (.adcRead 7) ∧ decodeRequest [0x10, 0xFF] = .ok (.adcRead 255) := by decide

/-- E18. -/
theorem test_decode_muxSelect : decodeRequest [0x20, 0x0F] = .ok (.muxSelect 15) := by decide

/-- E1 to E10: messages that do not decode. -/
theorem test_decode_illegal :
    decodeRequest [0x00] = .error (.unassignedOpcode 0x00) ∧ decodeRequest [0x09] = .error (.unassignedOpcode 0x09) ∧
    decodeRequest [0x13] = .error (.unassignedOpcode 0x13) ∧ decodeRequest [0x23] = .error (.unassignedOpcode 0x23) ∧
    decodeRequest [0xFF] = .error (.unassignedOpcode 0xFF) ∧ decodeRequest [] = .error .emptyMessage ∧
    decodeRequest [0x10] = .error (.wrongLength 0x10 1) ∧ decodeRequest [0x01, 0x00] = .error (.wrongLength 0x01 2) ∧
    decodeRequest [0x03, 0x00, 0x00, 0x00, 0x00, 0x01, 0x3F, 0x00] = .error (.wrongLength 0x03 8) ∧
    decodeRequest [0x08, 0x08] = .error (.reservedBits 0x08) ∧ decodeRequest [0x08, 0x80] = .error (.reservedBits 0x80) := by
  decide

/-- R98: the first and last unassigned opcode of each run, and their assigned neighbours. -/
theorem test_opcode_runs :
    [0x00, 0x09, 0x0F, 0x13, 0x1F, 0x23, 0xFF].all (fun op => (formatOf op).isNone) = true ∧
    [0x01, 0x08, 0x10, 0x12, 0x20, 0x22].all (fun op => (formatOf op).isSome) = true := by decide

/-- R120: the command bytes. -/
theorem test_decode_display :
    decode .display [0x01] = .ok .dcsSwreset ∧ decode .display [0x11] = .ok .dcsSlpout ∧
    decode .display [0x3A] = .ok .dcsColmod ∧ decode .display [0x36] = .ok .dcsMadctl ∧
    decode .display [0x29] = .ok .dcsDispon ∧ decode .display [0x2C] = .ok .dcsRamwr := by decide

/-- R120 and R173: the address sets of DV8. -/
theorem test_decode_addressSets :
    decode .display [0x2A, 0x00, 0x0A, 0x01, 0x2C] = .ok (.dcsCaset 10 300) ∧
    decode .display [0x2B, 0x00, 0x14, 0x00, 0xC8] = .ok (.dcsRaset 20 200) ∧
    decode .display [0x2A, 0x00, 0x00, 0x01, 0x40] = .error .unknownFrame ∧
    decode .display [0x2B, 0x00, 0x00, 0x00, 0xF0] = .error .unknownFrame := by decide

/-- R200: bytes 0000011h, ll000000, 00000000 (W11). -/
theorem test_decode_adcFrame :
    decode .adcOut [0b00000110, 0b00000000, 0] = .ok (.adcFrame 0) ∧ decode .adcOut [0b00000110, 0b11000000, 0] = .ok (.adcFrame 3) ∧
    decode .adcOut [0b00000111, 0b00000000, 0] = .ok (.adcFrame 4) ∧ decode .adcOut [0b00000111, 0b01000000, 0] = .ok (.adcFrame 5) ∧
    decode .adcOut [0b00000010, 0b00000000, 0] = .error .unknownFrame := by decide

/-- R215 and R202: the self-test's bytes of ones; a response's three bytes. -/
theorem test_decode_adcOthers :
    decode .adcOut [0xFF, 0xFF] = .ok .adcSelftestFrame ∧ decode .adcIn [0x12, 0x34, 0x56] = .ok (.adcResponse 0x12 0x34 0x56) := by
  decide

/-- R241: channel 13 is the pattern 1101 (W2). -/
theorem test_decode_muxAddress :
    decode .muxLines [0b1101] = .ok (.muxAddress 13) ∧ decode .muxLines [0x10] = .error .unknownFrame := by decide

/-- The table's bit numbering: bit 0 is the low bit of the first byte of a request. -/
theorem test_tableWord_requests :
    decodeTableWord 8 0x07 = some .btnRead ∧ decodeTableWord 16 0x0510 = some (.adcRead 5) ∧
    decodeTableWord 8 0x20 = some (.muxSelect 0) ∧ decodeTableWord 8 0x05 = some (.dispClear 0) ∧
    decodeTableWord 8 0xFF = none := by decide

/-- Wire rows: a command byte, an ADC frame with its first byte highest, a line pattern. -/
theorem test_tableWord_frames :
    decodeTableWord 8 0x3A = some .dcsColmod ∧ decodeTableWord 8 0x2A = some (.dcsCaset 0 0) ∧
    decodeTableWord 24 0x074000 = some (.adcFrame 5) ∧ decodeTableWord 16 0xFFFF = some .adcSelftestFrame ∧
    decodeTableWord 4 0x0 = some (.muxAddress 0) := by decide

/-- A word that is presented runs as the next step. -/
theorem test_fetch_runs :
    (after (step (State.reset.withFetchWord 16 0x0508)) State.reset).history =
      [Event.req [0x08, 0x05], .line .ledR true, .line .ledG false, .line .ledB true, .resp [0x00]] := by decide

/-! ### One step of each request -/

/-- DV1. -/
theorem test_dispReset :
    events .dispReset State.reset =
      [Event.req [0x01], .line .rst false, .wait 50, .line .rst true, .wait 50, .resp [0x00]] ∧
    (after (exec .dispReset State.reset) State.reset).dstate = .resetting := by decide

/-- DV3: 31 events between `REQ` and `RESP`, then `ON` with `DC` at 0; W9: the bytes. -/
theorem test_dispInit :
    (events .dispInit (inState .resetting sevenOk)).length = 33 ∧
    response .dispInit (inState .resetting sevenOk) = some [0x00] ∧
    (after (exec .dispInit (inState .resetting sevenOk)) State.reset).dstate = .on ∧
    (events .dispInit (inState .resetting sevenOk)).filterMap (fun e =>
      match e with
      | .xfer .disp tx _ => some tx
      | _ => none) = [[0x01], [0x11], [0x3A], [0x55], [0x36], [0x00], [0x29]] := by decide

/-- DV6: the sleep-out transfer fails. -/
theorem test_dispInit_fails :
    events .dispInit (inState .resetting [Reply.ok [0], .fail]) =
      [Event.req [0x02], .line .dc false, .cs .disp true, .xfer .disp [0x01] [0], .cs .disp false, .wait 150,
       .line .dc false, .cs .disp true, .xferFail .disp [0x11], .cs .disp false, .resp [0x02]] ∧
    (after (exec .dispInit (inState .resetting [Reply.ok [0], .fail])) State.reset).dstate = .uninit := by decide

/-- DV8. -/
theorem test_setWindow :
    events (.dispSetWindow 10 20 300 200) (inState .on windowOk) =
      [Event.req [0x03, 0x00, 0x0A, 0x00, 0x14, 0x01, 0x2C, 0x00, 0xC8],
       .line .dc false, .cs .disp true, .xfer .disp [0x2A] [0], .cs .disp false,
       .line .dc true, .cs .disp true, .xfer .disp [0x00, 0x0A, 0x01, 0x2C] [0, 0, 0, 0], .cs .disp false,
       .line .dc false, .cs .disp true, .xfer .disp [0x2B] [0], .cs .disp false,
       .line .dc true, .cs .disp true, .xfer .disp [0x00, 0x14, 0x00, 0xC8] [0, 0, 0, 0], .cs .disp false,
       .resp [0x00]] := by decide

/-- DV12 to DV15: range and state refusals. -/
theorem test_setWindow_refused :
    response (.dispSetWindow 0 0 320 239) (inState .on []) = some [0x01] ∧
    response (.dispSetWindow 11 0 10 0) (inState .on []) = some [0x01] ∧
    response (.dispSetWindow 0 0 0 240) (inState .on []) = some [0x01] ∧
    response (.dispSetWindow 0 0 400 0) (fresh []) = some [0x03] := by decide

/-- DV16, and a failure before the frame data. -/
theorem test_writeFrame :
    events .dispWriteFrame (inState .resetting []) = [Event.req [0x04], .resp [0x03]] ∧
    events .dispWriteFrame (inState .on [Reply.fail]) =
      [Event.req [0x04], .line .dc false, .cs .disp true, .xferFail .disp [0x2A], .cs .disp false, .resp [0x02]] := by decide

/-- The pixel (5, 10) after `05 12 34`: offsets 6410 and 6411. -/
theorem test_clear_pixel :
    pixelOffset 5 10 = 6410 ∧ pixelOffset 319 239 = 153598 ∧
    Memory.read (Memory.writeList [] 6410 (enc16 0x1234)) 6410 = 0x12 ∧
    Memory.read (Memory.writeList [] 6410 (enc16 0x1234)) 6411 = 0x34 := by
  have h : Memory.wf [] := ⟨.nil, by simp⟩
  exact ⟨rfl, rfl, (Memory.read_writePixel [] 6410 0x12 0x34 h (by decide)).1, (Memory.read_writePixel [] 6410 0x12 0x34 h (by decide)).2⟩

/-- The backlight table's column for 65535. -/
theorem test_duty_65535 :
    [0x00000000, 0x00000001, 0x00000100, 0x00004000, 0x00008000, 0x0000C000, 0x0000FFFF, 0x00010000, 0x00018000,
      0x7FFFFFFF, 0xFFFF8000, 0x80000000].map (dutyOf 65535) =
    [0, 0, 255, 16383, 32767, 49151, 65534, 65535, 65535, 65535, 0, 0] := by decide

/-- The backlight table's columns for 255 and 1000. -/
theorem test_duty_small :
    [0x00000001, 0x00000100, 0x00004000, 0x00008000, 0x0000C000, 0x0000FFFF, 0x00010000].map (dutyOf 255) =
      [0, 0, 63, 127, 191, 254, 255] ∧
    [0x00000001, 0x00000100, 0x00004000, 0x00008000, 0x0000C000, 0x0000FFFF, 0x00010000].map (dutyOf 1000) =
      [0, 3, 250, 500, 750, 999, 1000] := by decide

/-- DV21 to DV24. -/
theorem test_buttons :
    response .btnRead (pressing [true, true, true, true]) = some [0x00, 0x00] ∧
    response .btnRead (pressing [false, false, false, false]) = some [0x00, 0x0F] ∧
    response .btnRead (pressing [true, false, true, true]) = some [0x00, 0x02] ∧
    response .btnRead (pressing [false, true, true, false]) = some [0x00, 0x09] := by decide

/-- DV25. -/
theorem test_led :
    events (.ledWrite 5) State.reset =
      [Event.req [0x08, 0x05], .line .ledR true, .line .ledG false, .line .ledB true, .resp [0x00]] := by decide

/-- A1 and A5: the request frame, and what the response keeps of the received bytes. -/
theorem test_adcRead :
    events (.adcRead 5) (fresh [Reply.ok [0x00, 0x0A, 0xBC]]) =
      [Event.req [0x10, 0x05], .cs .adc true, .xfer .adc [0x07, 0x40, 0x00] [0x00, 0x0A, 0xBC], .cs .adc false,
       .resp [0x00, 0x05, 0x0A, 0xBC]] ∧
    response (.adcRead 4) (fresh [Reply.ok [0x12, 0x34, 0x56]]) = some [0x00, 0x04, 0x04, 0x56] := by decide

/-- W4 and A8. -/
theorem test_adcRead_errors :
    events (.adcRead 8) (fresh []) = [Event.req [0x10, 0x08], .resp [0x01]] ∧
    events (.adcRead 2) (fresh [Reply.fail]) =
      [Event.req [0x10, 0x02], .cs .adc true, .xferFail .adc [0x06, 0x80, 0x00], .cs .adc false, .resp [0x02]] := by decide

/-- W6: 25 bytes, the channel bytes ascending. -/
theorem test_adcReadAll :
    (response .adcReadAll (fresh (sweepBytes.map Reply.ok))).map List.length = some 25 ∧
    (response .adcReadAll (fresh (sweepBytes.map Reply.ok))).map (fun m => [1, 4, 7, 10, 13, 16, 19, 22].map (fun k => m.getD k 0xEE)) =
      some [0, 1, 2, 3, 4, 5, 6, 7] := by decide

/-- A14: a failure at channel 3, 12 events between `REQ` and `RESP`, nothing kept. -/
theorem test_adcReadAll_fails :
    (events .adcReadAll (fresh [Reply.ok [0, 0, 0], .ok [0, 0, 0], .ok [0, 0, 0], .fail])).length = 14 ∧
    response .adcReadAll (fresh [Reply.ok [0, 0, 0], .ok [0, 0, 0], .ok [0, 0, 0], .fail]) = some [0x02] := by decide

/-- A9 to A13. -/
theorem test_selftest :
    response .adcSelftest (fresh [Reply.ok [0xFF, 0xFF]]) = some [0x00, 0x01] ∧
    response .adcSelftest (fresh [Reply.ok [0xFF, 0xFE]]) = some [0x00, 0x00] ∧
    response .adcSelftest (fresh [Reply.ok [0x7F, 0xFF]]) = some [0x00, 0x00] ∧
    events .adcSelftest (fresh [Reply.fail]) =
      [Event.req [0x12], .cs .adc true, .xferFail .adc [0xFF, 0xFF], .cs .adc false, .resp [0x00, 0x00]] := by decide

/-- A1 and A3 at `VREF` 3.3: 5038/2275 V, and `VREF` itself. -/
theorem test_voltage : voltage (33 / 10) 2748 = 5038 / 2275 ∧ voltage (33 / 10) 4095 = 33 / 10 := by
  constructor
  · show ((2748 : Nat) : Rat) * (33 / 10) / 4095 = 5038 / 2275
    norm_num
  · show ((4095 : Nat) : Rat) * (33 / 10) / 4095 = 33 / 10
    norm_num

/-- W2, and channel 16 (W4). -/
theorem test_muxSelect :
    events (.muxSelect 13) State.reset =
      [Event.req [0x20, 0x0D], .line .muxA0 true, .line .muxA1 false, .line .muxA2 true, .line .muxA3 true, .resp [0x00]] ∧
    events (.muxSelect 16) State.reset = [Event.req [0x20, 0x10], .resp [0x01]] := by decide

/-- R313: from channel 7 to channel 8 the lines pass through 0110, 0100 and 0000. -/
theorem test_mux_glitch :
    addressTrail 7 [Event.line .muxA0 false, .line .muxA1 false, .line .muxA2 false, .line .muxA3 true] =
      [0b0110, 0b0100, 0b0000, 0b1000] := by decide

/-- R244 and R245: a low level enables; without an enable line nothing is driven. -/
theorem test_muxEnable :
    (runOps (enableSequence true false) State.reset).state.history = [Event.line .muxEnN false] ∧
    (runOps (enableSequence true true) State.reset).state.history = [Event.line .muxEnN true] ∧
    enableSequence false false = [] := by decide

/-! ### One step of each wire frame -/

/-- T4, and the other commands without data. -/
theorem test_frames_noData :
    events .dcsDispon (fresh [Reply.ok [0]]) = [Event.line .dc false, .cs .disp true, .xfer .disp [0x29] [0], .cs .disp false] ∧
    events .dcsSwreset (fresh [Reply.ok [0]]) = [Event.line .dc false, .cs .disp true, .xfer .disp [0x01] [0], .cs .disp false] ∧
    events .dcsSlpout (fresh [Reply.ok [0]]) = [Event.line .dc false, .cs .disp true, .xfer .disp [0x11] [0], .cs .disp false] := by
  decide

/-- T5, and memory access control. -/
theorem test_frames_data :
    events .dcsColmod (fresh [Reply.ok [0], .ok [0]]) =
      [Event.line .dc false, .cs .disp true, .xfer .disp [0x3A] [0], .cs .disp false,
       .line .dc true, .cs .disp true, .xfer .disp [0x55] [0], .cs .disp false] ∧
    events .dcsMadctl (fresh [Reply.ok [0], .ok [0]]) =
      [Event.line .dc false, .cs .disp true, .xfer .disp [0x36] [0], .cs .disp false,
       .line .dc true, .cs .disp true, .xfer .disp [0x00] [0], .cs .disp false] := by decide

/-- T6 and T7: a failure in the command phase and in the data phase. -/
theorem test_caset_fails :
    events (.dcsCaset 10 300) (fresh [Reply.fail]) = [Event.line .dc false, .cs .disp true, .xferFail .disp [0x2A], .cs .disp false] ∧
    events (.dcsCaset 10 300) (fresh [Reply.ok [0], .fail]) =
      [Event.line .dc false, .cs .disp true, .xfer .disp [0x2A] [0], .cs .disp false,
       .line .dc true, .cs .disp true, .xferFail .disp [0x00, 0x0A, 0x01, 0x2C], .cs .disp false] := by decide

/-- The row half of DV8; and T3: memory write hangs in its command phase, the chip-select asserted. -/
theorem test_raset_ramwr :
    (events (.dcsRaset 20 200) (fresh [Reply.ok [0], .ok [0, 0, 0, 0]])).getLast? = some (.cs .disp false) ∧
    events .dcsRamwr (fresh [Reply.hang]) = [Event.line .dc false, .cs .disp true] ∧
    (after (exec .dcsRamwr (fresh [Reply.hang])) State.reset).csDisp = true := by decide

/-- T1 and A9 on the wire alone. -/
theorem test_adcFrames :
    events (.adcFrame 1) (fresh [Reply.ok [0x00, 0x0A, 0xBC]]) =
      [Event.cs .adc true, .xfer .adc [0x06, 0x40, 0x00] [0x00, 0x0A, 0xBC], .cs .adc false] ∧
    events .adcSelftestFrame (fresh [Reply.ok [0xFF, 0xFF]]) =
      [Event.cs .adc true, .xfer .adc [0xFF, 0xFF] [0xFF, 0xFF], .cs .adc false] := by decide

/-- W12: the decode. -/
theorem test_decodeRaw :
    decodeRaw [0x00, 0x0A, 0xBC] = 2748 ∧ decodeRaw [0xFF, 0xFF, 0xFF] = 4095 ∧ decodeRaw [0x00, 0xF0, 0x00] = 0 ∧
    decodeRaw [0x12, 0x34, 0x56] = 1110 := by decide

/-- A response's sample, and the pattern of channel 13 on the lines. -/
theorem test_patterns :
    ((after (exec (.adcResponse 0x00 0x08 0x00) State.reset) State.reset).work.out.map Sample.raw) = [2048] ∧
    (after (exec (.muxAddress 13) State.reset) State.reset).muxA = 0b1101 := by decide

/-! ### Errors, hangs and reset -/

/-- E8: `ILLEGAL` comes before `STATE`. -/
theorem test_illegal_first :
    (after (step (moves [Move.request [0x03, 0x00, 0x00, 0x00, 0x00, 0x01, 0x3F, 0x00] [] none])) State.reset).history =
      [Event.req [0x03, 0x00, 0x00, 0x00, 0x00, 0x01, 0x3F, 0x00], .resp [0x04]] := by decide

/-- T3's rule for a request: it hangs with the chip-select asserted and no response; then nothing steps but a reset. -/
theorem test_hang :
    events (.adcRead 0) (fresh [Reply.hang]) = [Event.req [0x10, 0x00], .cs .adc true] ∧
    response (.adcRead 0) (fresh [Reply.hang]) = none ∧
    answers (step (hungAdc [])) = false ∧
    (after (step (hungAdc [Move.blockReset])) State.reset).csAdc = false := by decide

/-- R302: reset after the failed transfer and before its release. -/
theorem test_reset_cuts_release :
    events (.adcRead 0) { State.reset with env := { replies := [Reply.fail], resetIn := some 3 } } =
      [Event.req [0x10, 0x00], .cs .adc true, .xferFail .adc [0x06, 0x00, 0x00], .reset] := by decide

/-- R302: reset inside the wait of `DISP_RESET`, and inside a wire frame's window; the frame buffer keeps the
byte the host wrote beside the request. -/
theorem test_reset_cuts_others :
    events .dispReset { State.reset with env := { resetIn := some 3 } } = [Event.req [0x01], .line .rst false, .reset] ∧
    events .dcsSlpout { fresh [Reply.ok [0]] with env := { replies := [Reply.ok [0]], resetIn := some 3 } } =
      [Event.line .dc false, .cs .disp true, .xfer .disp [0x11] [0], .reset] ∧
    (after (exec .dispReset { State.reset with env := { racing := [Access.write 7 (~~~(Config.fbPowerUp 7))], resetIn := some 3 } })
      State.reset).fb = writtenBy [] [Access.write 7 (~~~(Config.fbPowerUp 7))] :=
  ⟨by decide, by decide, rfl⟩

/-- R74: beside a request that does not use the frame buffer the host reads what it wrote. -/
theorem test_free_access :
    (after (exec .btnRead { pressing [true, true, true, true] with
      env := { buttons := [true, true, true, true], racing := [Access.write 0 7, .write 0 9, .read 0] } }) State.reset).fbReads =
        readBy [] [Access.write 0 7, .write 0 9, .read 0] ∧
    readBy [] [Access.write 0 7, .write 0 9, .read 0] = [9] ∧ lastWritten 0 [Access.write 0 7, .write 0 9, .read 0] = some 9 := by
  refine ⟨rfl, ?_, rfl⟩
  have h : Memory.wf [] := ⟨.nil, by simp⟩
  simp [readBy, Memory.read_write _ _ _ _ (Memory.wf_write _ _ _ h) (by decide : 0 < Config.fbSize)]

/-- R167: hung in the color-mode data, and in the display-on command. -/
theorem test_hung_init :
    (after (exec .dispInit (inState .resetting (sevenOk.take 3 ++ [.hang]))) State.reset).dstate = .colormode ∧
    (after (exec .dispInit (inState .resetting (sevenOk.take 6 ++ [.hang]))) State.reset).dstate = .addrmode := by decide

/-- X1: block reset while idle appends `RESET`, and the state is that of R43. -/
theorem test_reset_idle :
    (after (step { inState .on [] with env := { agenda := [Move.blockReset] } }) State.reset).history = [Event.reset] ∧
    (after (step { inState .on [] with env := { agenda := [Move.blockReset] } }) State.reset).dstate = .uninit := by decide

/-- R302, R312: each request brings its own block reset and its own host accesses. -/
theorem test_each_request_its_own :
    (after (step (after (step (moves [Move.request [0x01] [] (some 3), Move.request [0x01] [Access.read 0, .read 1] (some 2)]))
      State.reset)) State.reset).history =
      [Event.req [0x01], .line .rst false, .reset, .req [0x01], .line .rst false, .reset] ∧
    (after (step (after (step (moves [Move.request [0x01] [] (some 3), Move.request [0x01] [Access.read 0, .read 1] (some 2)]))
      State.reset)) State.reset).fbReads.length = 2 := by decide

/-- R60 and D9: 0x2C most-significant bit first; R26 and D8: an asserted chip-select is low. -/
theorem test_wire_levels :
    wireBits [0x2C] = [false, false, true, false, true, true, false, false] ∧
    (hungAdc []).csLevel .adc = false ∧ (hungAdc []).csLevel .disp = true := by decide

/-- The assembler's examples (95_test_vectors 2.1), and literals out of their width (R100). -/
theorem test_assembler :
    assembleLine "DISP_SET_BACKLIGHT 0x00008000" = some [0x06, 0x00, 0x00, 0x80, 0x00] ∧
    assembleLine "DISP_SET_WINDOW 10, 20, 300, 200" = some [0x03, 0x00, 0x0A, 0x00, 0x14, 0x01, 0x2C, 0x00, 0xC8] ∧
    assembleLine "LED_WRITE 7" = some [0x08, 0x07] ∧ assembleLine "LED_WRITE 8" = none ∧
    assembleLine "ADC_READ 256" = none ∧ assembleLine "DISP_SET_BACKLIGHT 0x8000" = some [0x06, 0x00, 0x00, 0x80, 0x00] := by decide

/-! ### Witnesses: the hypotheses of each statement are met -/

theorem witness_encodeThenDecode :
    (Instr.ledWrite 7).wf = true ∧ (Instr.dcsCaset 0 319).wf = true ∧ (Instr.dcsRaset 239 239).wf = true ∧
    (Instr.adcFrame 7).wf = true ∧ (Instr.muxAddress 15).wf = true := by decide

theorem witness_decodeThenEncode : decode .request [0x22] = .ok .muxDisable ∧ decode .muxLines [0x0F] = .ok (.muxAddress 15) := by
  decide

theorem witness_illegalMessage :
    (moves [Move.request [0x09] [] none]).phase = .idle ∧ (moves [Move.request [0x09] [] none]).env.agenda = [Move.request [0x09] [] none] ∧
    decodeRequest [0x09] = .error (.unassignedOpcode 0x09) :=
  ⟨rfl, rfl, by decide⟩

/-- With accesses beside the request up to the last offset, and a block reset. -/
theorem witness_stepRuns :
    (moves [Move.request [0x07] [Access.write 153599 1] (some 2)]).phase = .idle ∧
    (moves [Move.request [0x07] [Access.write 153599 1] (some 2)]).env.agenda =
      [Move.request [0x07] [Access.write 153599 1] (some 2)] ∧
    notAdmitted [Access.write 153599 1] = none ∧ decodeRequest [0x07] = .ok .btnRead :=
  ⟨rfl, rfl, by decide, by decide⟩

theorem witness_stepIssues :
    (moves [Move.frame .display [0x29] [] none]).phase = .idle ∧
    (moves [Move.frame .display [0x29] [] none]).env.agenda = [Move.frame .display [0x29] [] none] ∧
    Layer.display ≠ .request ∧ notAdmitted [] = none ∧ decode .display [0x29] = .ok .dcsDispon :=
  ⟨rfl, rfl, by decide, rfl, by decide⟩

theorem witness_idleBlock :
    (State.reset.phase = .idle ∧ State.reset.env.agenda = []) ∧ (moves [Move.takeResponse]).env.agenda = [Move.takeResponse] :=
  ⟨⟨rfl, rfl⟩, rfl⟩

theorem witness_hungBlock :
    (hungAdc []).phase = .busy (.adcRead 0) 3 ∧ (hungAdc []).env.agenda = [] ∧
    (hungAdc [Move.request [0x07] [] none]).env.agenda = [Move.request [0x07] [] none] ∧
    (hungAdc [Move.frame .display [0x29] [] none]).env.agenda = [Move.frame .display [0x29] [] none] ∧
    (hungAdc [Move.blockReset]).env.agenda = [Move.blockReset] ∧
    ∃ t, step (hungAdc [Move.access (.read 0)]) = .next t := ⟨rfl, rfl, rfl, rfl, rfl, exists_next _ (by decide)⟩

theorem memory_nil_wf : Memory.wf [] := ⟨.nil, by simp⟩

/-- A block whose `DISP_WRITE_FRAME` hangs in its first transfer. -/
def hungFrame (agenda : List Move) : State :=
  { inState .on [] with phase := .busy .dispWriteFrame 3, csDisp := true, reqPort := some [0x04], env := { agenda := agenda } }

/-- The last offset and the first one beyond it, at a block that is idle and at one hung in a request without the frame
buffer. -/
theorem witness_frameBufferPort :
    (∀ a : Access, (moves [Move.access a]).env.agenda = [Move.access a] ∧ Memory.wf (moves [Move.access a]).fb) ∧
    (∀ a : Access, (hungAdc [Move.access a]).env.agenda = [Move.access a] ∧ Memory.wf (hungAdc [Move.access a]).fb) ∧
    (∀ color k, (hungAdc []).phase ≠ .busy (.dispClear color) k) ∧ (∀ k, (hungAdc []).phase ≠ .busy .dispWriteFrame k) ∧
    (∀ k, (hungAdc []).phase ≠ .busy .dcsRamwr k) ∧
    Config.fbSize ≤ accessOffset (.read 153600) ∧ ¬Config.fbSize ≤ accessOffset (.write 153599 0) ∧ 153599 < Config.fbSize :=
  ⟨fun _ => ⟨rfl, memory_nil_wf⟩, fun _ => ⟨rfl, memory_nil_wf⟩, fun _ _ => nofun, fun _ => nofun, fun _ => nofun,
    by decide⟩

/-- The same at a block hung in `DISP_WRITE_FRAME`, a state that a run reaches. -/
theorem witness_frameBufferPort_hungFrame :
    (∀ a : Access, (hungFrame [Move.access a]).env.agenda = [Move.access a] ∧ Memory.wf (hungFrame [Move.access a]).fb) ∧
    (∃ k, (hungFrame []).phase = .busy .dispWriteFrame k) ∧
    (after (exec .dispWriteFrame (inState .on [Reply.hang])) State.reset).phase = (hungFrame []).phase :=
  ⟨fun _ => ⟨rfl, memory_nil_wf⟩, ⟨3, rfl⟩, by decide⟩

theorem witness_resetCutsTransaction :
    (7 : Byte).toNat ≤ 7 ∧ BusFree { State.reset with env := { resetIn := some 2 } } := ⟨by decide, rfl, rfl⟩

/-- A request that ends with its response, one that hangs, and a wire frame; a moment inside each. -/
theorem witness_resetCutsAny :
    BusFree (fresh [Reply.ok [0, 0, 0]]) ∧ (fresh [Reply.ok [0, 0, 0]]).env.resetIn = none ∧
    (∃ u, exec (.adcRead 0) (fresh [Reply.ok [0, 0, 0]]) = .next u) ∧
    events (.adcRead 0) (fresh [Reply.fail]) =
      [Event.req [0x10, 0x00], .cs .adc true, .xferFail .adc [0x06, 0x00, 0x00]] ++ [Event.cs .adc false, .resp [0x02]] ∧
    (after (exec (.adcRead 0) (fresh [Reply.hang])) State.reset).phase ≠ .idle ∧
    events (.adcRead 0) (fresh [Reply.hang]) = [Event.req [0x10, 0x00], .cs .adc true] ++ [] ∧
    Instr.layer (.muxAddress 5) ≠ .request ∧ (∃ u, exec (.muxAddress 5) (fresh []) = .next u) :=
  ⟨⟨rfl, rfl⟩, rfl, exists_next _ (by decide), by decide, by decide, by decide, by decide, exists_next _ (by decide)⟩

/-- A cut before the first pixel and after the last. -/
theorem witness_resetCutsClear :
    (0 ≤ 76800 ∧ 76800 ≤ 76800) ∧ Memory.wf ({ State.reset with env := { resetIn := some 76800 } } : State).fb :=
  ⟨by decide, memory_nil_wf⟩

/-- The hypotheses of the statements about one undisturbed request without a bus. -/
theorem witness_quiet : Quiet State.reset ∧ Quiet (fresh []) ∧ Quiet (inState .on []) := ⟨⟨rfl, rfl⟩, ⟨rfl, rfl⟩, ⟨rfl, rfl⟩⟩

theorem witness_dispInit :
    Quiet (inState .resetting sevenOk) ∧ BusFree (inState .resetting sevenOk) ∧ (inState .resetting sevenOk).dstate = .resetting ∧
    (inState .resetting sevenOk).env.replies = [Reply.ok [0], .ok [0], .ok [0], .ok [0], .ok [0], .ok [0], .ok [0]] ++ [] :=
  ⟨⟨rfl, rfl⟩, ⟨rfl, rfl⟩, rfl, rfl⟩

/-- The first and the last transfer fail. -/
theorem witness_failedInit :
    (Quiet (inState .resetting [Reply.fail]) ∧ BusFree (inState .resetting [Reply.fail]) ∧ ([] : List Bytes).length < 7 ∧
      (inState .resetting [Reply.fail]).env.replies = ([] : List Bytes).map Reply.ok ++ Reply.fail :: []) ∧
    (List.replicate 6 ([0] : Bytes)).length < 7 ∧
      (inState .resetting ((List.replicate 6 ([0] : Bytes)).map Reply.ok ++ [Reply.fail])).dstate = .resetting :=
  ⟨⟨⟨rfl, rfl⟩, ⟨rfl, rfl⟩, by decide, rfl⟩, by decide, rfl⟩

/-- The one-pixel windows in the two corners, and the full panel. -/
theorem witness_setWindow :
    Quiet (inState .on windowOk) ∧ BusFree (inState .on windowOk) ∧ (inState .on windowOk).dstate = .on ∧
    (inState .on windowOk).env.replies = [Reply.ok [0], .ok [0, 0, 0, 0], .ok [0], .ok [0, 0, 0, 0]] ++ [] ∧
    validWindow 0 0 0 0 = true ∧ validWindow 319 239 319 239 = true ∧ validWindow 0 0 319 239 = true :=
  ⟨⟨rfl, rfl⟩, ⟨rfl, rfl⟩, rfl, rfl, by decide, by decide, by decide⟩

/-- Each way a window is not valid, at its boundary. -/
theorem witness_setWindowRefused :
    Quiet (fresh []) ∧ (fresh []).dstate ≠ .on ∧ (inState .on []).dstate = .on ∧
    validWindow 0 0 320 239 = false ∧ validWindow 1 0 0 0 = false ∧ validWindow 0 0 0 240 = false ∧ validWindow 0 1 0 0 = false :=
  ⟨⟨rfl, rfl⟩, by decide, rfl, by decide⟩

/-- Replies to the six transfers of a frame. -/
def frameOk : List Reply :=
  [Reply.ok [0], .ok [0, 0, 0, 0], .ok [0], .ok [0, 0, 0, 0], .ok [0], .ok (List.replicate Config.fbSize 0)]

theorem witness_writeFrame :
    Quiet (inState .on frameOk) ∧ BusFree (inState .on frameOk) ∧ (inState .on frameOk).dstate = .on ∧
    ([0, 0, 0, 0] : Bytes).length = 4 ∧ (List.replicate Config.fbSize (0 : Byte)).length = Config.fbSize ∧
    (inState .on frameOk).env.replies =
      [Reply.ok [0], .ok [0, 0, 0, 0], .ok [0], .ok [0, 0, 0, 0], .ok [0], .ok (List.replicate Config.fbSize 0)] ++ [] :=
  ⟨⟨rfl, rfl⟩, ⟨rfl, rfl⟩, rfl, rfl, List.length_replicate, rfl⟩

/-- A failing transfer in each of the two requests. -/
theorem witness_failedFrame :
    Quiet (inState .on [Reply.fail]) ∧ BusFree (inState .on [Reply.fail]) ∧ (inState .on [Reply.fail]).dstate = .on ∧
    ([] : List Bytes).length < (transfersOf .dispWriteFrame []).length ∧ ([] : List Bytes).length < (transfersOf (.dispSetWindow 0 0 319 239) []).length ∧
    validWindow 0 0 319 239 = true ∧
    (inState .on [Reply.fail]).env.replies = ([] : List Bytes).map Reply.ok ++ Reply.fail :: [] :=
  ⟨⟨rfl, rfl⟩, ⟨rfl, rfl⟩, rfl, by decide, by decide, by decide, rfl⟩

theorem witness_clear : Quiet State.reset ∧ Memory.wf State.reset.fb := ⟨⟨rfl, rfl⟩, memory_nil_wf⟩

/-- Fractions on both sides of the clamp (W3), and the largest below 1.0. -/
theorem witness_duty :
    (0xFFFF8000 : BitVec 32).toInt ≤ 0 ∧ (0 : BitVec 32).toInt ≤ 0 ∧ 65536 ≤ (0x00010000 : BitVec 32).toInt ∧
    65536 ≤ (0x7FFFFFFF : BitVec 32).toInt ∧ clampFraction 0xFFFF = 65535 ∧ clampFraction 0x10000 = 65536 := by decide

theorem witness_adcRead :
    Quiet (fresh [Reply.ok [0, 0, 0]]) ∧ BusFree (fresh [Reply.ok [0, 0, 0]]) ∧ (0 : Byte).toNat ≤ 7 ∧ (7 : Byte).toNat ≤ 7 ∧
    (fresh [Reply.ok [0, 0, 0]]).env.replies = Reply.ok [0, 0, 0] :: [] :=
  ⟨⟨rfl, rfl⟩, ⟨rfl, rfl⟩, by decide, by decide, rfl⟩

theorem witness_channelRange : Quiet State.reset ∧ 7 < (8 : Byte).toNat ∧ 15 < (16 : Byte).toNat ∧ 15 < (255 : Byte).toNat :=
  ⟨⟨rfl, rfl⟩, by decide, by decide, by decide⟩

theorem witness_wrongState :
    Quiet (fresh []) ∧ (fresh []).dstate ≠ .resetting ∧ (inState .on []).dstate ≠ .resetting ∧ (inState .resetting []).dstate ≠ .on :=
  ⟨⟨rfl, rfl⟩, by decide, by decide, by decide⟩

theorem witness_sweep :
    Quiet (fresh (sweepBytes.map Reply.ok)) ∧ BusFree (fresh (sweepBytes.map Reply.ok)) ∧ sweepBytes.length = 8 ∧
    (∀ rx ∈ sweepBytes, rx.length = 3) ∧
    (fresh (sweepBytes.map Reply.ok)).env.replies = sweepBytes.map Reply.ok ++ [] :=
  ⟨⟨rfl, rfl⟩, ⟨rfl, rfl⟩, rfl, by decide, rfl⟩

/-- The sweep and the single read it is compared with both answer. -/
theorem witness_sweepAgrees :
    (∃ t, exec .adcReadAll (fresh (sweepBytes.map Reply.ok)) = .next t) ∧ sweepBytes[7]? = some [255, 255, 255] ∧
    ∃ t', exec (.adcRead (BitVec.ofNat 8 7)) (fresh [Reply.ok [255, 255, 255]]) = .next t' :=
  ⟨exists_next _ (by decide), rfl, exists_next _ (by decide)⟩

/-- A pair that passes, a pair that does not, and a failure. -/
theorem witness_selftest :
    Quiet (fresh [Reply.ok [0xFF, 0xFF]]) ∧ BusFree (fresh [Reply.ok [0xFF, 0xFF]]) ∧
    (fresh [Reply.ok [0xFF, 0xFF]]).env.replies = Reply.ok [0xFF, 0xFF] :: [] ∧
    (fresh [Reply.ok [0xFF, 0xFE]]).env.replies = Reply.ok [0xFF, 0xFE] :: [] ∧ (fresh [Reply.fail]).env.replies = Reply.fail :: [] :=
  ⟨⟨rfl, rfl⟩, ⟨rfl, rfl⟩, rfl, rfl, rfl⟩

theorem witness_decodeRaw : (0xF5 : Byte).toNat % 16 = (0x05 : Byte).toNat % 16 := by decide

theorem witness_voltage : (0 : Rat) < 33 / 10 ∧ (0 : BitVec 12).toNat < (4095 : BitVec 12).toNat := ⟨by norm_num, by decide⟩

theorem witness_muxSelect :
    Quiet State.reset ∧ (0 : Byte).toNat ≤ 15 ∧ (15 : Byte).toNat ≤ 15 ∧ ∃ t, exec (.muxSelect 8) { State.reset with muxA := 7 } = .next t :=
  ⟨⟨rfl, rfl⟩, by decide, by decide, exists_next _ (by decide)⟩

/-- The frames: without data, with data of 1 and of 4 bytes, the ADC's, and the two patterns. -/
theorem witness_frames :
    BusFree (fresh windowOk) ∧ (fresh windowOk).env.resetIn = none ∧
    (fresh windowOk).env.replies = Reply.ok [0] :: [Reply.ok [0, 0, 0, 0], .ok [0], .ok [0, 0, 0, 0]] ∧
    (fresh windowOk).env.replies = Reply.ok [0] :: Reply.ok [0, 0, 0, 0] :: [Reply.ok [0], .ok [0, 0, 0, 0]] ∧
    ([0, 0, 0, 0] : Bytes).length = (enc16 10 ++ enc16 300).length ∧ ([0] : Bytes).length = ([0x55] : Bytes).length :=
  ⟨⟨rfl, rfl⟩, rfl, rfl, rfl, rfl, rfl⟩

theorem witness_memoryWriteFrame :
    BusFree (fresh [Reply.ok [0], .ok (List.replicate Config.fbSize 0)]) ∧ Quiet (fresh [Reply.ok [0], .ok (List.replicate Config.fbSize 0)]) ∧
    (List.replicate Config.fbSize (0 : Byte)).length = Config.fbSize ∧
    (fresh [Reply.ok [0], .ok (List.replicate Config.fbSize 0)]).env.replies =
      Reply.ok [0] :: Reply.ok (List.replicate Config.fbSize 0) :: [] :=
  ⟨⟨rfl, rfl⟩, ⟨rfl, rfl⟩, List.length_replicate, rfl⟩

theorem witness_adcFrames :
    (7 : Byte).toNat < 8 ∧ BusFree (fresh [Reply.ok [1, 2, 3]]) ∧ (fresh [Reply.ok [1, 2, 3]]).env.resetIn = none ∧
    (fresh [Reply.ok [1, 2, 3]]).env.replies = Reply.ok [1, 2, 3] :: [] ∧ (fresh [Reply.ok [1, 2]]).env.replies = Reply.ok [1, 2] :: [] :=
  ⟨by decide, ⟨rfl, rfl⟩, rfl, rfl, rfl⟩

theorem witness_patterns : State.reset.env.resetIn = none ∧ (0 : Byte).toNat < 16 ∧ (15 : Byte).toNat < 16 := by decide

/-- A failing transfer in the middle of a sweep, in the self-test, and in a wire frame's data phase. -/
theorem witness_busFailure :
    Quiet (fresh [Reply.ok [0, 0, 0], .fail]) ∧ BusFree (fresh [Reply.ok [0, 0, 0], .fail]) ∧
    precheck .adcReadAll (fresh []).dstate = none ∧
    (transfersOf .adcReadAll [])[([[0, 0, 0]] : List Bytes).length]? = some (.adc, [0x06, 0x40, 0x00]) ∧
    (fresh [Reply.ok [0, 0, 0], .fail]).env.replies = ([[0, 0, 0]] : List Bytes).map Reply.ok ++ Reply.fail :: [] ∧
    precheck .adcSelftest (fresh []).dstate = none ∧
    (transfersOf .adcSelftest [])[([] : List Bytes).length]? = some (.adc, [0xFF, 0xFF]) ∧
    precheck (.dcsCaset 10 300) (fresh []).dstate = none ∧
    (transfersOf (.dcsCaset 10 300) [])[([[0]] : List Bytes).length]? = some (.disp, [0x00, 0x0A, 0x01, 0x2C]) :=
  ⟨⟨rfl, rfl⟩, ⟨rfl, rfl⟩, rfl, by decide, rfl, rfl, by decide, rfl, by decide⟩

/-- A hang in the middle of a sweep, in the last transfer of `DISP_INIT`, and in a wire frame. -/
theorem witness_hang :
    Quiet (fresh [Reply.ok [0, 0, 0], .hang]) ∧ BusFree (fresh [Reply.ok [0, 0, 0], .hang]) ∧
    precheck .adcReadAll (fresh []).dstate = none ∧
    (transfersOf .adcReadAll [])[([[0, 0, 0]] : List Bytes).length]? = some (.adc, [0x06, 0x40, 0x00]) ∧
    (fresh [Reply.ok [0, 0, 0], .hang]).env.replies = ([[0, 0, 0]] : List Bytes).map Reply.ok ++ Reply.hang :: [] ∧
    precheck .dispInit (inState .resetting []).dstate = none ∧
    (transfersOf .dispInit [])[(List.replicate 6 ([0] : Bytes)).length]? = some (.disp, [0x29]) ∧
    (transfersOf .dcsRamwr [])[([] : List Bytes).length]? = some (.disp, [0x2C]) :=
  ⟨⟨rfl, rfl⟩, ⟨rfl, rfl⟩, rfl, by decide, rfl, rfl, by decide, rfl⟩

/-- A request that ends idle with its response at the port, where there was none and where there was an old one. -/
theorem witness_answered :
    Instr.layer (.muxSelect 16) = .request ∧ State.reset.env.resetIn = none ∧
    (∃ t, exec (.muxSelect 16) State.reset = .next t) ∧
    (after (exec (.muxSelect 16) State.reset) State.reset).phase = .idle ∧
    (after (exec (.muxSelect 16) State.reset) State.reset).respPort = some ⟨.range, [], []⟩ ∧
    (after (exec (.muxSelect 16) { State.reset with respPort := some ⟨.state, [], []⟩ }) State.reset).respPort =
      some ⟨.range, [], []⟩ :=
  ⟨rfl, rfl, exists_next _ (by decide), by decide, rfl, rfl⟩

theorem witness_busFree : BusFree State.reset := ⟨rfl, rfl⟩

/-- A frame and a clear that the host races with, with raced and unraced offsets. -/
theorem witness_races :
    (({ inState .on frameOk with env := { replies := frameOk, racing := [Access.write 1 7, .read 0] } } : State).env.resetIn = none) ∧
    BusFree { inState .on frameOk with env := { replies := frameOk, racing := [Access.write 1 7, .read 0] } } ∧
    Memory.wf ({ inState .on frameOk with env := { replies := frameOk, racing := [Access.write 1 7, .read 0] } } : State).fb ∧
    1 ∈ racedOffsets [Access.write 1 7, .read 0] ∧ 0 ∉ racedOffsets [Access.write 1 7, .read 0] ∧
    2 * 76799 ∉ racedOffsets [Access.write 1 7, .read 0] :=
  ⟨rfl, ⟨rfl, rfl⟩, memory_nil_wf, by decide, by decide, by decide⟩

/-- A state that is not reset's meets the invariant, and steps. -/
theorem witness_invariant :
    Invariant { State.reset with dstate := .on, env := { agenda := [Move.request [0x07] [] none] } } ∧
    ∃ t, step { State.reset with dstate := .on, env := { agenda := [Move.request [0x07] [] none] } } = .next t :=
  ⟨⟨rfl, by decide, fun _ => ⟨rfl, rfl, rfl, rfl, .inr (.inr rfl)⟩, memory_nil_wf, Nat.zero_le _⟩, exists_next _ (by decide)⟩

/-- A hung block meets it too. -/
theorem witness_invariant_hung :
    Invariant { hungAdc [] with history := [Event.req [0x10, 0x00], .cs .adc true] } :=
  ⟨rfl, by decide, fun h => (by cases h), memory_nil_wf, Nat.zero_le _⟩

/-- A request with host accesses beside it, up to the last offset. -/
theorem witness_beside :
    ({ State.reset with env := { racing := [Access.write 153599 1, .read 153599] } } : State).env.resetIn = none ∧
    Memory.wf State.reset.fb ∧ 153599 < Config.fbSize ∧
    ∃ t, exec (.ledWrite 7) { State.reset with env := { racing := [Access.write 153599 1, .read 153599] } } = .next t :=
  ⟨rfl, memory_nil_wf, by decide, exists_next _ (by rfl)⟩

theorem witness_oneExec : (fresh []).env.resetIn = none ∧ ∃ t, exec .btnRead (pressing [true, false, true, true]) = .next t :=
  ⟨rfl, exists_next _ (by decide)⟩

/-- Two states that differ in the frame buffer only. -/
theorem witness_frameBufferDecidesNothing :
    Instr.layer (.adcRead 0) = .request ∧
    (transfersOf (.adcRead 0) (fresh [Reply.ok [0, 0, 0]]).fb).length ≤ (fresh [Reply.ok [0, 0, 0]]).env.replies.length ∧
    (∃ t, exec (.adcRead 0) (fresh [Reply.ok [0, 0, 0]]) = .next t) ∧
    ∃ u, exec (.adcRead 0) { fresh [Reply.ok [0, 0, 0]] with fb := [(0, 1)] } = .next u :=
  ⟨rfl, by decide, exists_next _ (by decide), exists_next _ (by decide)⟩

theorem witness_bringUp :
    Quiet (fresh sevenOk) ∧ BusFree (fresh sevenOk) ∧
    (fresh sevenOk).env.replies = [Reply.ok [0], .ok [0], .ok [0], .ok [0], .ok [0], .ok [0], .ok [0]] ++ [] ∧
    (∃ t, exec .dispReset (fresh sevenOk) = .next t) ∧
    ∃ u, exec .dispInit (after (exec .dispReset (fresh sevenOk)) State.reset) = .next u :=
  ⟨⟨rfl, rfl⟩, ⟨rfl, rfl⟩, rfl, exists_next _ (by decide), exists_next _ (by decide)⟩

/-- The corner pixels and the last offset. -/
theorem witness_pixels : (319 < 320 ∧ 239 < 240) ∧ 153599 < Config.fbSize := by decide

/-- Each window and none; a request with a transfer, and one that hangs in its window. -/
theorem witness_levels :
    BusFree State.reset ∧ (hungAdc []).csDisp = false ∧ (hungAdc []).csAdc = true ∧
    ({ State.reset with csDisp := true } : State).csDisp = true ∧ ({ State.reset with csDisp := true } : State).csAdc = false ∧
    BusFree (fresh [Reply.ok [0, 0, 0]]) ∧ (∃ t, exec (.adcRead 0) (fresh [Reply.ok [0, 0, 0]]) = .next t) ∧
    (∃ t, exec (.adcRead 0) (fresh [Reply.hang]) = .next t) ∧
    sentTo .adc (.xfer .adc [0x06, 0, 0] [0, 0, 0]) = some [0x06, 0, 0] ∧ 0 < ([0x2C] : Bytes).length :=
  ⟨⟨rfl, rfl⟩, rfl, rfl, rfl, rfl, ⟨rfl, rfl⟩, exists_next _ (by decide), exists_next _ (by decide), by decide, by decide⟩

/-- R141: in a window the configuration is the selected device's. -/
theorem test_config :
    (hungAdc []).busConfig = Config.spi .adc ∧
    ((fresh []).replay [.cs .disp true]).busConfig = Config.spi .disp ∧
    BusFree ((fresh []).replay [.cs .disp true, .xfer .disp [0x29] [0], .cs .disp false]) := ⟨rfl, rfl, rfl, rfl⟩

end Sys2Proof.Tests
end

section
/-! SUPPORT. The history only grows (spec/00_scope.md R13, spec/20_memory.md R73): what each shared operation does to
it, what an instruction's meaning can leave, and the statement about a step. -/

namespace Sys2Proof.Machine

open Sys2Proof

/-! ### How a request begins and ends -/

@[simp] theorem State.hostRaces_history (s : State) : s.hostRaces.history = s.history := by
  obtain ⟨m, rs, h⟩ := s.hostRaces_frame
  rw [h]

@[simp] theorem State.take_history (s : State) (i : Instr) : (s.take i).history = s.history ++ [.req (encode i)] := by
  obtain ⟨m, rs, h⟩ := s.take_cases i
  rw [h]

@[simp] theorem State.begin_history (s : State) (i : Instr) : (s.begin i).history = s.history := by
  obtain ⟨m, rs, h⟩ := s.begin_cases i
  rw [h]

@[simp] theorem State.settleRaces_history (s : State) : s.settleRaces.history = s.history := by
  obtain ⟨m, h⟩ := s.settleRaces_frame
  rw [h]

@[simp] theorem State.abortRule_history (s : State) (e : Status) : (s.abortRule e).history = s.history := by
  obtain ⟨d, h⟩ := s.abortRule_frame e
  rw [h]

theorem State.conclude_appends (s : State) (r : Response) : s.history <+: (s.conclude r).history := by
  obtain ⟨-, h⟩ | ⟨-, h⟩ := s.conclude_cases r <;> simp [h]

theorem State.raise_appends (s : State) (e : Status) : s.history <+: (s.raise e).history := by
  have h := (s.abortRule e).conclude_appends (bare e)
  rwa [State.abortRule_history] at h

theorem State.retire_appends (s : State) : s.history <+: s.retire.history := by
  obtain ⟨-, h⟩ | ⟨-, h⟩ := s.retire_cases <;> simp [h]

/-! ### Micro-sequences -/

theorem State.xfer_appends (s : State) (d : Device) (tx : Bytes) : s.history <+: (s.xfer d tx).state.history := by
  obtain ⟨rx, -, h⟩ | h | h | h := s.xfer_cases d tx <;> simp [h]

theorem State.elapse_appends (s : State) : s.history <+: s.elapse.history := by
  unfold State.elapse
  split <;> simp

theorem Op.run_appends (op : Op) (s : State) : s.history <+: (op.run s).state.history := by
  cases op with
  | xfer d tx => exact s.xfer_appends d tx
  | stream => exact s.xfer_appends .disp s.frameBytes
  | elapse => exact s.elapse_appends
  | line | cs | duty => simp [Op.run]
  | dstate | arm | pixel | channel | sample | button => exact List.prefix_rfl

theorem runOps_appends (ops : List Op) (s : State) : s.history <+: (runOps ops s).state.history :=
  runOps_keeps (fun t => s.history <+: t.history) ops s
    (fun op _ t ht => ht.trans (op.run_appends t.tick)) List.prefix_rfl

/-- However a micro-sequence ends, ends that only append leave a history that has only grown. -/
theorem runOps_finish_appends (ops : List Op) (s : State) (onDone onBus : State → State)
    (hdone : ∀ t, t.history <+: (onDone t).history) (hbus : ∀ t, t.history <+: (onBus t).history) :
    s.history <+: ((runOps ops s).finish onDone onBus).history := by
  have hrun := runOps_appends ops s
  obtain ⟨t, hr, h⟩ | ⟨t, hr, h⟩ | ⟨t, hr, h⟩ | ⟨t, hr, h⟩ :=
      (runOps ops s).finish_cases onDone onBus <;> rw [h] <;> rw [hr] at hrun
  · exact hrun.trans (hdone t)
  · exact hrun.trans (hbus t)
  · exact hrun
  · exact hrun.trans (by simp)

theorem State.issue_appends (s : State) (i : Instr) (ops : List Op) : s.history <+: (s.issue i ops).history := by
  have h := runOps_finish_appends ops (s.begin i) _ _ State.retire_appends State.retire_appends
  rwa [State.begin_history] at h

/-! ### Instructions -/

theorem State.guarded_next (s t u : State) (h : s.guarded t = .next u) : u = t := by
  unfold State.guarded at h
  split at h
  · cases h
  · injection h with h
    exact h.symm

/-- What an instruction can leave: a request refused by its checks, a request served (`ADC_SELFTEST` answers a failed
transfer with a verdict), or a wire frame issued (`ADC_RESPONSE` with its own received bytes). -/
theorem exec_cases (i : Instr) (s t : State) (h : exec i s = .next t) :
    (∃ e, t = s.reject i e) ∨
    (∃ ops result, t = s.serve i ops result) ∨
    (i = .adcSelftest ∧ ∃ (result : State → Response) (failed : Response), t =
      (runOps selftestExchange (s.take i)).finish (fun u => u.conclude (result u)) (fun u => u.conclude failed)) ∨
    (∃ w ops, t = ({ s with work := w } : State).issue i ops) := by
  unfold exec at h
  cases i with
  | dispInit | dispSetWindow | dispWriteFrame | adcRead | adcReadAll =>
    obtain ⟨e, -, h⟩ | ⟨-, -, -, h⟩ := State.busRequest_cases s t _ _ _ h
    · exact .inl ⟨e, h⟩
    · exact .inr (.inl ⟨_, _, h⟩)
  | dispReset | dispClear | dispSetBacklight | btnRead | ledWrite | muxSelect | muxEnable | muxDisable =>
    obtain ⟨e, -, h⟩ | ⟨-, h⟩ := State.lineRequest_cases s t _ _ _ h
    · exact .inl ⟨e, h⟩
    · exact .inr (.inl ⟨_, _, h⟩)
  | adcSelftest => exact .inr (.inr (.inl ⟨rfl, _, _, s.guarded_next _ t h⟩))
  | dcsSwreset | dcsSlpout | dcsColmod | dcsMadctl | dcsDispon | dcsCaset | dcsRaset | dcsRamwr | adcFrame
  | adcSelftestFrame => exact .inr (.inr (.inr ⟨s.work, _, s.guarded_next _ t h⟩))
  | adcResponse | muxAddress =>
    injection h with h
    exact .inr (.inr (.inr ⟨_, _, h.symm⟩))

theorem exec_appends (i : Instr) (s t : State) (h : exec i s = .next t) : s.history <+: t.history := by
  have htake : s.history <+: (s.take i).history := by simp
  obtain ⟨e, rfl⟩ | ⟨ops, result, rfl⟩ | ⟨-, result, failed, rfl⟩ | ⟨w, ops, rfl⟩ := exec_cases i s t h
  · exact htake.trans ((s.take i).raise_appends e)
  · exact htake.trans (runOps_finish_appends ops _ _ _ (fun u => u.conclude_appends _) (fun u => u.raise_appends _))
  · exact htake.trans
      (runOps_finish_appends selftestExchange _ _ _ (fun u => u.conclude_appends _) (fun u => u.conclude_appends _))
  · exact State.issue_appends { s with work := w } i ops

/-! ### Moves from outside -/

theorem State.rejectMessage_appends (s : State) (m : Bytes) : s.history <+: (s.rejectMessage m).history := by
  have hreq : s.history <+: (s.record (.req m)).hostRaces.history := by simp
  exact hreq.trans (State.conclude_appends _ _)

theorem State.present_appends (s t : State) (m : Bytes) (h : s.present m = .next t) : s.history <+: t.history := by
  unfold State.present at h
  split at h
  · cases h
  · split at h
    · exact exec_appends _ s t h
    · injection h with h
      exact h ▸ s.rejectMessage_appends m

theorem State.presentFrame_appends (s t : State) (l : Layer) (word : Bytes) (h : s.presentFrame l word = .next t) :
    s.history <+: t.history := by
  unfold State.presentFrame at h
  split at h
  · cases h
  · split at h
    · cases h
    · split at h
      · exact exec_appends _ s t h
      · cases h

@[simp] theorem State.hostAccess_history (s : State) (a : Access) : (s.hostAccess a).history = s.history := by
  cases a <;> rfl

theorem State.presentAccess_history (s t : State) (a : Access) (h : s.presentAccess a = .next t) :
    t.history = s.history := by
  unfold State.presentAccess at h
  split at h
  · cases h
  · injection h with h
    simp [← h]

theorem State.whileIdle_appends (s t : State) (mv : Move) (h : s.whileIdle mv = .next t) : s.history <+: t.history := by
  cases mv with
  | request m racing resetIn => exact (s.beside racing resetIn).present_appends t m h
  | frame l word racing resetIn => exact (s.beside racing resetIn).presentFrame_appends t l word h
  | access a => simp [s.presentAccess_history t a h]
  | takeResponse | blockReset => cases h; simp

theorem State.whileHung_appends (s t : State) (mv : Move) (h : s.whileHung mv = .next t) : s.history <+: t.history := by
  cases mv with
  | request | frame => cases h
  | access a => simp [s.presentAccess_history t a h]
  | takeResponse | blockReset => cases h; simp

theorem step_appends (s t : State) (h : step s = .next t) : s.history <+: t.history := by
  unfold step State.advance at h
  split at h
  · cases h
    exact List.prefix_rfl
  · next mv rest _ _ => exact (s.afterMove rest).whileIdle_appends t mv h
  · cases h
  · next mv rest _ _ => exact (s.afterMove rest).whileHung_appends t mv h

/-- Settles O54: an idle block appends what the request, frame or reset presented to it records, a hung one at most a
`RESET`. -/
theorem historyOnlyGrows : Obligations.HistoryOnlyGrows := by
  intro s t h
  obtain ⟨made, hmade⟩ := step_appends s t h
  exact ⟨made, hmade.symm⟩

end Sys2Proof.Machine
end

section
/-! SUPPORT. What one instruction is (spec/10_state.md R21): the micro-sequence it runs, how it begins and how it ends, each said
once for all 26 of them. -/

namespace Sys2Proof.Machine

open Sys2Proof

/-- The micro-sequence of an instruction. -/
def opsOf (i : Instr) : List Op :=
  match i with
  | .dispReset => resetSequence
  | .dispInit => initSequence
  | .dispSetWindow x0 y0 x1 y1 => emitWindow x0 y0 x1 y1
  | .dispWriteFrame => frameSequence
  | .dispClear color => clearSequence color
  | .dispSetBacklight frac => [.duty (dutyOf Config.pwmMax frac)]
  | .btnRead => buttonSequence
  | .ledWrite rgb => ledSequence rgb
  | .adcRead ch => readChannel ch
  | .adcReadAll => sweep
  | .adcSelftest | .adcSelftestFrame => selftestExchange
  | .muxSelect ch | .muxAddress ch => muxSequence ch
  | .muxEnable => enableSequence Config.hasMuxEn false
  | .muxDisable => enableSequence Config.hasMuxEn true
  | .dcsSwreset => swreset
  | .dcsSlpout => slpout
  | .dcsColmod => colmod
  | .dcsMadctl => madctl
  | .dcsDispon => dispon
  | .dcsCaset x0 x1 => caset x0 x1
  | .dcsRaset y0 y1 => raset y0 y1
  | .dcsRamwr => ramwr
  | .adcFrame ch => adcExchange ch
  | .adcResponse .. => [.sample]

/-- The state an instruction runs its micro-sequence from: a request taken, or a wire frame begun, `ADC_RESPONSE` with the
bytes it was given. -/
def State.enter (s : State) (i : Instr) : State :=
  match i with
  | .adcResponse rx0 rx1 rx2 => ({ s with work := { s.work with rx := [rx0, rx1, rx2] } } : State).begin i
  | i => if i.layer = .request then s.take i else s.begin i

/-- The response of a request that ran to its end (R112). -/
def answerOf (i : Instr) (s : State) : Response :=
  match i with
  | .btnRead => buttonsResponse s
  | .adcRead _ | .adcReadAll => samplesResponse s
  | .adcSelftest => verdict (decide (s.work.rx = [0xFF, 0xFF]))
  | _ => okResponse s

/-- How an instruction ends whose micro-sequence ran to its end. -/
def State.close (i : Instr) (s : State) : State :=
  if i.layer = .request then s.conclude (answerOf i s) else s.retire

/-- How an instruction ends when a transfer failed (R215, R263; log entry 8). -/
def State.abandon (i : Instr) (s : State) : State :=
  if i.layer ≠ .request then s.retire
  else if i = .adcSelftest then s.conclude (verdict false)
  else s.raise .bus

/-- Only requests are checked before they run. -/
theorem precheck_request (i : Instr) (d : DState) (e : Status) (h : precheck i d = some e) : i.layer = .request := by
  cases i <;> simp_all [precheck, Instr.layer]

theorem State.enter_request (s : State) (i : Instr) (h : i.layer = .request) : s.enter i = s.take i := by
  cases i <;> simp_all [State.enter, Instr.layer]

/-- An instruction begins busy, with the host's accesses made and the bytes and lines of the state as they were. -/
theorem State.enter_eq (s : State) (i : Instr) : ∃ port made work, s.enter i =
    ({ s with phase := .busy i 0, reqPort := port, history := made, work := work } : State).hostRaces := by
  cases i <;> exact ⟨_, _, _, rfl⟩

theorem State.enter_frame (s : State) (i : Instr) : ∃ port made work m reads, s.enter i =
    { s with phase := .busy i 0, reqPort := port, history := made, work := work, fb := m, fbReads := reads } := by
  obtain ⟨port, made, work, h⟩ := s.enter_eq i
  obtain ⟨m, reads, hm⟩ := State.hostRaces_frame _
  exact ⟨port, made, work, m, reads, h.trans hm⟩

/-- What an instruction leaves: a request refused by its checks, or what its micro-sequence and its end leave. -/
theorem exec_ran (i : Instr) (s t : State) (h : exec i s = .next t) :
    (∃ e, precheck i s.dstate = some e ∧ t = s.reject i e) ∨
    (precheck i s.dstate = none ∧ t = (runOps (opsOf i) (s.enter i)).finish (State.close i) (State.abandon i)) := by
  unfold exec at h
  cases i with
  | dispInit | dispSetWindow | dispWriteFrame | adcRead | adcReadAll =>
    obtain h | ⟨hp, -, -, h⟩ := State.busRequest_cases s t _ _ _ h
    · exact .inl h
    · exact .inr ⟨hp, h⟩
  | dispReset | dispClear | dispSetBacklight | btnRead | ledWrite | muxSelect | muxEnable | muxDisable =>
    exact State.lineRequest_cases s t _ _ _ h
  | adcSelftest | dcsSwreset | dcsSlpout | dcsColmod | dcsMadctl | dcsDispon | dcsCaset | dcsRaset | dcsRamwr | adcFrame
  | adcSelftestFrame => exact .inr ⟨rfl, s.guarded_next _ t h⟩
  | adcResponse | muxAddress =>
    injection h with h
    exact .inr ⟨rfl, h.symm⟩

end Sys2Proof.Machine
end

section
/-! SUPPORT. The state after block reset (spec/10_state.md R43): its table of values, and that it meets the invariant. -/

namespace Sys2Proof.Machine

open Sys2Proof

/-- Block reset reaches the block whether it is idle or hung (R316). -/
theorem step_blockReset (s : State) (rest : List Move) (h : s.env.agenda = .blockReset :: rest) :
    step s = .next (s.afterMove rest).blockReset := by
  unfold step State.advance
  rw [h]
  cases s.phase <;> rfl

/-- Settles O12: the table is that of `State.reset`, which a later block reset restores but for the frame buffer and the
history. -/
theorem resetLeavesTheTable : Obligations.ResetLeavesTheTable :=
  ⟨⟨rfl, rfl, rfl, rfl, rfl, rfl, rfl, rfl, rfl, rfl, rfl, rfl, rfl, rfl, rfl, Memory.read_nil⟩,
    fun _ => ⟨rfl, rfl, rfl, rfl, rfl, rfl, rfl, rfl, rfl, rfl, rfl, rfl, rfl, rfl, rfl, rfl⟩,
    step_blockReset⟩

/-- Settles O52: after reset the history is empty, no chip-select is asserted, nothing runs, the frame buffer lists nothing
and the duty is 0. -/
theorem resetMeetsTheInvariant : Obligations.ResetMeetsTheInvariant where
  windowed := rfl
  exclusive := fun h => Bool.false_ne_true h.1
  resting := fun _ => ⟨rfl, rfl, rfl, rfl, .inl rfl⟩
  canonical := State.reset_fb_wf
  dutyBounded := Nat.zero_le _

end Sys2Proof.Machine
end

section
/-! SUPPORT. The writers of the latches and lines (spec/10_state.md R23) and of the frame buffer (R36): which element a
micro-operation sets, which ones an instruction sets, and that it leaves all others alone. -/

namespace Sys2Proof.Machine

open Sys2Proof

/-! ### Elements -/

/-- The elements that R23 and R36 give writers to, and the bytes returned to the host. -/
inductive Element where
  | dstate | timer | dc | rst | muxA | muxEnN | led | blDuty | fb | fbReads
  | cs (d : Device)
  deriving DecidableEq

/-- What an element holds; the three LED lines are one. -/
abbrev Element.Val (e : Element) : Type :=
  match e with
  | .dstate => DState
  | .timer => Option Nat
  | .muxA => BitVec 4
  | .led => Bool × Bool × Bool
  | .blDuty => Nat
  | .fb => Memory
  | .fbReads => Bytes
  | .dc | .rst | .muxEnN | .cs _ => Bool

/-- The value of an element. -/
def State.element (s : State) (e : Element) : e.Val :=
  match e with
  | .dstate => s.dstate
  | .timer => s.timer
  | .dc => s.dc
  | .rst => s.rst
  | .muxA => s.muxA
  | .muxEnN => s.muxEnN
  | .led => (s.ledR, s.ledG, s.ledB)
  | .blDuty => s.blDuty
  | .fb => s.fb
  | .fbReads => s.fbReads
  | .cs d => s.selected d

/-- The element a line belongs to. -/
def elementOfLine (l : Line) : Element :=
  match l with
  | .dc => .dc
  | .rst => .rst
  | .muxA0 | .muxA1 | .muxA2 | .muxA3 => .muxA
  | .muxEnN => .muxEnN
  | .ledR | .ledG | .ledB => .led

/-- The element a micro-operation sets; a transfer releases its chip-select when it fails (R135). -/
def Op.sets (op : Op) : Option Element :=
  match op with
  | .dstate _ => some .dstate
  | .line l _ => some (elementOfLine l)
  | .cs d _ | .xfer d _ => some (.cs d)
  | .stream => some (.cs .disp)
  | .arm _ | .elapse => some .timer
  | .duty _ => some .blDuty
  | .pixel .. => some .fb
  | .channel _ | .sample | .button _ => none

/-- The elements an instruction sets (the writers of R23, R27, R28, R36, R40, R160, R240). -/
def elementsOf (i : Instr) : List Element :=
  match i with
  | .dispReset => [.dstate, .timer, .rst]
  | .dispInit => [.dstate, .timer, .dc, .cs .disp]
  | .dispSetWindow .. | .dispWriteFrame | .dcsSwreset | .dcsSlpout | .dcsColmod | .dcsMadctl | .dcsDispon | .dcsCaset ..
  | .dcsRaset .. | .dcsRamwr => [.dc, .cs .disp]
  | .dispClear _ => [.fb]
  | .dispSetBacklight _ => [.blDuty]
  | .ledWrite _ => [.led]
  | .adcRead _ | .adcReadAll | .adcSelftest | .adcFrame _ | .adcSelftestFrame => [.cs .adc]
  | .muxSelect _ | .muxAddress _ => [.muxA]
  | .muxEnable | .muxDisable => [.muxEnN]
  | .btnRead | .adcResponse .. => []

/-! ### Micro-sequences -/

theorem State.setLine_element (s : State) (n : Line) (b : Bool) (e : Element) (h : e ≠ elementOfLine n) :
    (s.setLine n b).element e = s.element e := by
  cases n <;> cases e <;> simp_all [elementOfLine, State.element, State.selected]

theorem State.setCs_element (s : State) (d : Device) (b : Bool) (e : Element) (h : e ≠ .cs d) :
    (s.setCs d b).element e = s.element e := by
  cases e with
  | cs d' => cases d <;> cases d' <;> simp_all [State.element, State.selected]
  | _ => cases d <;> rfl

theorem State.xfer_element (s : State) (d : Device) (tx : Bytes) (e : Element) (h : e ≠ .cs d) :
    (s.xfer d tx).state.element e = s.element e := by
  obtain ⟨rx, -, hx⟩ | hx | hx | hx := s.xfer_cases d tx <;> rw [hx]
  case inr.inl => exact State.setCs_element _ d false e h
  all_goals rfl

theorem State.elapse_element (s : State) (e : Element) (h : e ≠ .timer) : s.elapse.element e = s.element e := by
  unfold State.elapse
  split
  · cases e <;> simp_all [State.element, State.selected]
  · rfl

/-- A micro-operation leaves every element alone but the one it sets. -/
theorem Op.run_element (op : Op) (s : State) (e : Element) (h : op.sets ≠ some e) :
    (op.run s).state.element e = s.element e := by
  have hne : ∀ e', op.sets = some e' → e ≠ e' := fun e' he' he => h (he ▸ he')
  cases op with
  | line n b => exact s.setLine_element n b e (hne _ rfl)
  | cs d b => exact s.setCs_element d b e (hne _ rfl)
  | xfer d tx => exact s.xfer_element d tx e (hne _ rfl)
  | stream => exact s.xfer_element .disp _ e (hne _ rfl)
  | elapse => exact s.elapse_element e (hne _ rfl)
  | dstate | arm | duty | pixel => cases e <;> simp_all [Op.run, Op.sets, State.element, State.selected]
  | channel | sample | button => rfl

/-- A micro-sequence leaves every element alone that none of its micro-operations sets. -/
theorem runOps_element (ops : List Op) (s : State) (e : Element) (h : ∀ op ∈ ops, op.sets ≠ some e) :
    (runOps ops s).state.element e = s.element e :=
  runOps_keeps (fun t => t.element e = s.element e) ops s (fun op hop t ht => (op.run_element t.tick e (h op hop)).trans ht) rfl

/-- The micro-operations of an instruction set its elements only. -/
theorem opsOf_sets (i : Instr) (op : Op) (hop : op ∈ opsOf i) (e : Element) (h : op.sets = some e) : e ∈ elementsOf i := by
  have key : (opsOf i).all (fun op => op.sets.all (· ∈ elementsOf i)) = true := by
    cases i with
    | dispClear color => simp [opsOf, clearSequence, Op.sets, elementsOf]
    | muxEnable | muxDisable =>
      cases hm : Config.hasMuxEn <;> simp [opsOf, enableSequence, hm, Op.sets, elementOfLine, elementsOf]
    | _ => rfl
  simpa [h] using List.all_eq_true.1 key op hop

/-! ### How an instruction begins and ends -/

/-- The host's accesses beside an instruction change the frame buffer and the bytes returned only. -/
theorem State.enter_element (s : State) (i : Instr) (e : Element) (hfb : e ≠ .fb) (hreads : e ≠ .fbReads) :
    (s.enter i).element e = s.element e := by
  obtain ⟨port, made, work, m, reads, h⟩ := s.enter_frame i
  rw [h]
  cases e <;> simp_all [State.element, State.selected]

/-- The block is busy with an instruction, and no block reset is coming. -/
structure State.Runs (s : State) (i : Instr) : Prop where
  busy : ∃ k, s.phase = .busy i k
  undisturbed : s.env.resetIn = none

theorem State.enter_runs (s : State) (i : Instr) (h : s.env.resetIn = none) : (s.enter i).Runs i := by
  obtain ⟨port, made, work, m, reads, he⟩ := s.enter_frame i
  rw [he]
  exact ⟨⟨0, rfl⟩, h⟩

/-- Settling the races changes the frame buffer of `DISP_CLEAR` only. -/
theorem State.settleRaces_element (s : State) (i : Instr) (e : Element) (hi : s.Runs i) (h : e ∉ elementsOf i) :
    s.settleRaces.element e = s.element e := by
  obtain ⟨⟨k, hk⟩, -⟩ := hi
  by_cases hc : ∃ color, i = .dispClear color
  · obtain ⟨color, rfl⟩ := hc
    obtain ⟨m, hm⟩ := s.settleRaces_frame
    rw [hm]
    cases e <;> simp_all [elementsOf, State.element, State.selected]
  · rw [s.settleRaces_other fun color n hn => hc ⟨color, by simp_all⟩]

theorem State.conclude_element (s : State) (i : Instr) (r : Response) (e : Element) (hi : s.Runs i) (h : e ∉ elementsOf i) :
    (s.conclude r).element e = s.element e := by
  obtain ⟨hr, -⟩ | ⟨-, hr⟩ := s.conclude_cases r
  · simp [hi.undisturbed] at hr
  · rw [hr]
    exact s.settleRaces_element i e hi h

/-- The abort rule sets `DSTATE` of `DISP_INIT` only (R166, R266). -/
theorem State.raise_element (s : State) (i : Instr) (status : Status) (e : Element) (hi : s.Runs i) (h : e ∉ elementsOf i) :
    (s.raise status).element e = s.element e := by
  obtain ⟨d, hd⟩ := s.abortRule_frame status
  have habort : (s.abortRule status).element e = s.element e := by
    by_cases hinit : i = .dispInit
    · rw [hd]
      cases e <;> simp_all [elementsOf, State.element, State.selected]
    · obtain ⟨k, hk⟩ := hi.busy
      rw [s.abortRule_other i k status hk hinit]
  have hruns : (s.abortRule status).Runs i := by
    rw [hd]
    exact ⟨hi.busy, hi.undisturbed⟩
  exact ((s.abortRule status).conclude_element i (bare status) e hruns h).trans habort

theorem State.retire_element (s : State) (i : Instr) (e : Element) (hi : s.Runs i) : s.retire.element e = s.element e := by
  obtain ⟨hr, -⟩ | ⟨-, hr⟩ := s.retire_cases
  · simp [hi.undisturbed] at hr
  · rw [hr]
    rfl

theorem State.close_element (s : State) (i : Instr) (e : Element) (hi : s.Runs i) (h : e ∉ elementsOf i) :
    (s.close i).element e = s.element e := by
  unfold State.close
  split
  · exact s.conclude_element i _ e hi h
  · exact s.retire_element i e hi

theorem State.abandon_element (s : State) (i : Instr) (e : Element) (hi : s.Runs i) (h : e ∉ elementsOf i) :
    (s.abandon i).element e = s.element e := by
  unfold State.abandon
  split
  · exact s.retire_element i e hi
  · split
    · exact s.conclude_element i _ e hi h
    · exact s.raise_element i .bus e hi h

/-- A micro-sequence that no block reset cuts leaves the block busy with its instruction. -/
theorem runOps_runs (ops : List Op) (s : State) (i : Instr) (h : s.Runs i) : (runOps ops s).state.Runs i := by
  obtain ⟨made, hm⟩ := runOps_coming ops s h.undisturbed
  exact ⟨runOps_phase i ops s h.busy, hm.none_⟩

/-- Without a block reset an instruction leaves every element alone but those it sets, from when the host's accesses beside
it are made. -/
theorem exec_element (i : Instr) (s t : State) (e : Element) (hq : s.env.resetIn = none) (h : exec i s = .next t)
    (he : e ∉ elementsOf i) : t.element e = (s.enter i).element e := by
  have hruns := s.enter_runs i hq
  obtain ⟨status, hs, rfl⟩ | ⟨-, rfl⟩ := exec_ran i s t h
  · rw [s.enter_request i (precheck_request i _ status hs)] at hruns ⊢
    exact (s.take i).raise_element i status e hruns he
  · have hran := runOps_element (opsOf i) (s.enter i) e fun op hop ho => he (opsOf_sets i op hop e ho)
    have hend := runOps_runs (opsOf i) _ i hruns
    obtain ⟨made, hm⟩ := runOps_coming (opsOf i) (s.enter i) hruns.undisturbed
    obtain ⟨u, hr, hu⟩ | ⟨u, hr, hu⟩ | ⟨u, hr, hu⟩ | ⟨u, hr, -⟩ :=
      (runOps (opsOf i) (s.enter i)).finish_cases (State.close i) (State.abandon i)
    · rw [hu]; rw [hr] at hran hend
      exact (u.close_element i e hend he).trans hran
    · rw [hu]; rw [hr] at hran hend
      exact (u.abandon_element i e hend he).trans hran
    · rw [hu]; rw [hr] at hran
      exact hran
    · exact absurd hr (hm.nocut u)

/-! ### The frame buffer beside an instruction (R36, R74) -/

theorem State.enter_fb (s : State) (i : Instr) : (s.enter i).fb = writtenBy s.fb s.env.racing := by
  obtain ⟨port, made, work, h⟩ := s.enter_eq i
  rw [h]
  exact State.hostRaces_fb _

theorem State.enter_reads_length (s : State) (i : Instr) :
    ∃ returned, (s.enter i).fbReads = s.fbReads ++ returned ∧ returned.length = (readBy s.fb s.env.racing).length := by
  obtain ⟨port, made, work, h⟩ := s.enter_eq i
  rw [h]
  exact State.hostAccesses_length _ _

/-- A read beside an instruction that does not use the frame buffer returns its byte. -/
theorem State.enter_reads (s : State) (i : Instr) (hclear : ∀ color, i ≠ .dispClear color) (hframe : i ≠ .dispWriteFrame)
    (hramwr : i ≠ .dcsRamwr) : (s.enter i).fbReads = s.fbReads ++ readBy s.fb s.env.racing := by
  obtain ⟨port, made, work, h⟩ := s.enter_eq i
  rw [h]
  refine State.hostAccesses_reads _ _ fun s' hs' a => ?_
  unfold State.portRead
  rw [hs']
  split <;> simp_all

/-! ### The writers of each element (R23) -/

section
variable {i : Instr}

theorem dstate_writers (h : Element.dstate ∈ elementsOf i) : i = .dispReset ∨ i = .dispInit := by
  cases i <;> simp_all [elementsOf]

theorem timer_writers (h : Element.timer ∈ elementsOf i) : i = .dispReset ∨ i = .dispInit := by
  cases i <;> simp_all [elementsOf]

theorem rst_writers (h : Element.rst ∈ elementsOf i) : i = .dispReset := by
  cases i <;> simp_all [elementsOf]

theorem muxA_writers (h : Element.muxA ∈ elementsOf i) : (∃ ch, i = .muxSelect ch) ∨ ∃ ch, i = .muxAddress ch := by
  cases i <;> simp_all [elementsOf]

theorem muxEnN_writers (h : Element.muxEnN ∈ elementsOf i) : i = .muxEnable ∨ i = .muxDisable := by
  cases i <;> simp_all [elementsOf]

theorem led_writers (h : Element.led ∈ elementsOf i) : ∃ rgb, i = .ledWrite rgb := by
  cases i <;> simp_all [elementsOf]

theorem blDuty_writers (h : Element.blDuty ∈ elementsOf i) : ∃ frac, i = .dispSetBacklight frac := by
  cases i <;> simp_all [elementsOf]

/-- `DC` and the display's chip-select have the same writers. -/
theorem display_writers (h : Element.dc ∈ elementsOf i ∨ Element.cs .disp ∈ elementsOf i) :
    i.layer = .display ∨ i = .dispInit ∨ (∃ x0 y0 x1 y1, i = .dispSetWindow x0 y0 x1 y1) ∨ i = .dispWriteFrame := by
  cases i <;> simp_all [elementsOf, Instr.layer]

theorem csAdc_writers (h : Element.cs .adc ∈ elementsOf i) :
    (∃ ch, i = .adcRead ch) ∨ i = .adcReadAll ∨ i = .adcSelftest ∨ i.layer = .adcOut := by
  cases i <;> simp_all [elementsOf, Instr.layer]

theorem fb_writers (h : Element.fb ∈ elementsOf i) : ∃ color, i = .dispClear color := by
  cases i <;> simp_all [elementsOf]

end

theorem fbReads_unset (i : Instr) : Element.fbReads ∉ elementsOf i := by
  cases i <;> simp [elementsOf]

/-- Settles O55: an instruction sets its own elements only, and the frame buffer and the bytes returned are those of the
host's accesses beside it. -/
theorem latchesHaveTheirWriters : Obligations.LatchesHaveTheirWriters := by
  intro s t i hq h
  have kept : ∀ e, e ≠ .fb → e ≠ .fbReads → e ∉ elementsOf i → t.element e = s.element e :=
    fun e hfb hreads he => (exec_element i s t e hq h he).trans (s.enter_element i e hfb hreads)
  have hreads : t.fbReads = (s.enter i).fbReads := exec_element i s t .fbReads hq h (fbReads_unset i)
  refine ⟨?dstate, ?timer, ?rst, ?muxA, ?muxEnN, ?led, ?blDuty, ?display, ?csAdc, ?fb, ?reads, ?count⟩
  case dstate => exact fun h1 h2 => kept .dstate nofun nofun fun he => (dstate_writers he).elim h1 h2
  case timer => exact fun h1 h2 => kept .timer nofun nofun fun he => (timer_writers he).elim h1 h2
  case rst => exact fun h1 => kept .rst nofun nofun fun he => h1 (rst_writers he)
  case muxA =>
    exact fun h1 h2 => kept .muxA nofun nofun fun he => (muxA_writers he).elim (not_exists.2 h1) (not_exists.2 h2)
  case muxEnN => exact fun h1 h2 => kept .muxEnN nofun nofun fun he => (muxEnN_writers he).elim h1 h2
  case led =>
    intro h1
    have hled := kept .led nofun nofun fun he => not_exists.2 h1 (led_writers he)
    simpa [State.element] using hled
  case blDuty => exact fun h1 => kept .blDuty nofun nofun fun he => not_exists.2 h1 (blDuty_writers he)
  case display =>
    intro h1 h2 h3 h4
    have hno : ¬(Element.dc ∈ elementsOf i ∨ Element.cs .disp ∈ elementsOf i) := by
      intro he
      obtain hl | hl | ⟨x0, y0, x1, y1, hl⟩ | hl := display_writers he
      · exact h1 hl
      · exact h2 hl
      · exact h3 x0 y0 x1 y1 hl
      · exact h4 hl
    exact ⟨kept .dc nofun nofun fun he => hno (.inl he), kept (.cs .disp) nofun nofun fun he => hno (.inr he)⟩
  case csAdc =>
    intro h1 h2 h3 h4
    refine kept (.cs .adc) nofun nofun fun he => ?_
    obtain ⟨ch, hl⟩ | hl | hl | hl := csAdc_writers he
    · exact h1 ch hl
    · exact h2 hl
    · exact h3 hl
    · exact h4 hl
  case fb =>
    intro h1
    have hm : t.fb = writtenBy s.fb s.env.racing :=
      (exec_element i s t .fb hq h fun he => not_exists.2 h1 (fb_writers he)).trans (s.enter_fb i)
    exact ⟨hm, fun hwf a ha => hm ▸ read_writtenBy s.env.racing s.fb hwf a ha⟩
  case reads => exact fun h1 h2 h3 => hreads.trans (s.enter_reads i h1 h2 h3)
  case count => exact hreads ▸ s.enter_reads_length i

end Sys2Proof.Machine
end

section
/-! SUPPORT. The chip-select discipline inside an instruction (spec/40_transaction.md R134 to R138): the window that a
micro-operation, a micro-sequence and an instruction leave, and the events they make from one window to the other. -/

namespace Sys2Proof.Machine

open Sys2Proof

/-- From `s` with window `w` to `t` with window `v` by events that keep the discipline. -/
def Disciplined (w : Option Device) (s : State) (v : Option Device) (t : State) : Prop :=
  ∃ made, t.history = s.history ++ made ∧ windowTrail w made = some v ∧ t.opens v

theorem Disciplined.refl (w : Option Device) (s : State) (h : s.opens w) : Disciplined w s w s :=
  ⟨[], (List.append_nil _).symm, rfl, h⟩

theorem Disciplined.trans {w v u : Option Device} {s t x : State} (h1 : Disciplined w s v t) (h2 : Disciplined v t u x) :
    Disciplined w s u x := by
  obtain ⟨a, ha, hta, -⟩ := h1
  obtain ⟨b, hb, htb, hx⟩ := h2
  exact ⟨a ++ b, by rw [hb, ha, List.append_assoc], by rw [windowTrail_append, hta]; exact htb, hx⟩

theorem Disciplined.opens {w v : Option Device} {s t : State} (h : Disciplined w s v t) : t.opens v := by
  obtain ⟨-, -, -, ht⟩ := h
  exact ht

/-- One event that keeps the discipline, on a state with the chip-selects that the event leaves. -/
theorem Disciplined.event {w v : Option Device} {s t : State} (e : Event) (hs : s.opens w) (he : windowAfter w e = some v)
    (hist : t.history = s.history ++ [e]) (hd : t.csDisp = (s.afterEvent e).csDisp) (ha : t.csAdc = (s.afterEvent e).csAdc) :
    Disciplined w s v t := by
  obtain ⟨h1, h2⟩ := s.afterEvent_opens w v e hs he
  exact ⟨[e], hist, by simp [windowTrail, he], hd.trans h1, ha.trans h2⟩

theorem windowAfter_xferFail {w v : Option Device} {d : Device} {tx : Bytes} (h : windowAfter w (.xferFail d tx) = some v) :
    w = some d ∧ tx ≠ [] ∧ v = some d := by
  simp only [windowAfter, Option.ite_none_right_eq_some, Option.some.injEq] at h
  obtain ⟨⟨rfl, htx⟩, rfl⟩ := h
  exact ⟨rfl, htx, rfl⟩

theorem windowAfter_wait {w v : Option Device} {ms : Nat} (h : windowAfter w (.wait ms) = some v) : w = none ∧ v = none := by
  simp only [windowAfter, Option.ite_none_right_eq_some, Option.some.injEq] at h
  exact ⟨h.1, h.2.symm⟩

/-- What a micro-operation or a micro-sequence leaves from window `w`: window `v` at its end, none after a failed transfer
(R135), and some window where it hangs or is cut. -/
def Ran.Windowed (w : Option Device) (s : State) (v : Option Device) (r : Ran) : Prop :=
  match r with
  | .done t => Disciplined w s v t
  | .stop .bus t => Disciplined w s none t
  | .stop .hung t => ∃ u, Disciplined w s u t
  | .stop .cut t => ∃ u, Disciplined w s u t

/-! ### Micro-operations -/

/-- The window after a micro-operation that runs to its end: the one its event leaves. A completed and a failed
transfer leave the same, whatever was sent. -/
def Op.window (w : Option Device) (op : Op) : Option (Option Device) :=
  match op with
  | .line l b => windowAfter w (.line l b)
  | .cs d b => windowAfter w (.cs d b)
  | .xfer d tx => windowAfter w (.xferFail d tx)
  | .stream => windowAfter w (.xferFail .disp [0])
  | .elapse => windowAfter w (.wait 0)
  | .duty n => windowAfter w (.bl n)
  | .dstate _ | .arm _ | .pixel .. | .channel _ | .sample | .button _ => some w

/-- The window after a micro-sequence that runs to its end. -/
def opsWindow (w : Option Device) (ops : List Op) : Option (Option Device) :=
  match ops with
  | [] => some w
  | op :: rest => (op.window w).bind fun v => opsWindow v rest

theorem State.setCs_disciplined (s : State) (d : Device) (b : Bool) (w v : Option Device) (hs : s.opens w)
    (hb : windowAfter w (.cs d b) = some v) : Disciplined w s v (s.setCs d b) :=
  .event (.cs d b) hs hb (s.setCs_history d b) rfl rfl

theorem State.xfer_windowed (s : State) (d : Device) (tx : Bytes) (htx : tx ≠ []) (hs : s.opens (some d)) :
    (s.xfer d tx).Windowed (some d) s (some d) := by
  have hfail : windowAfter (some d) (.xferFail d tx) = some (some d) := by simp [windowAfter, htx]
  obtain ⟨rx, hrx, hx⟩ | hx | hx | hx := s.xfer_cases d tx <;> rw [hx]
  · exact .event (.xfer d tx rx) hs (by simp [windowAfter, htx, hrx]) rfl rfl rfl
  · have h1 : Disciplined (some d) s (some d)
        (({ s with env := { s.env with replies := s.env.replies.tail } } : State).record (.xferFail d tx)).tick :=
      .event (.xferFail d tx) hs hfail rfl rfl rfl
    exact h1.trans (State.setCs_disciplined _ d false _ _ hs (by simp [windowAfter]))
  · exact ⟨some d, .event (.xferFail d tx) hs hfail rfl rfl rfl⟩
  · exact ⟨some d, .refl _ s hs⟩

theorem Op.run_windowed (op : Op) (s : State) (w v : Option Device) (hs : s.opens w) (h : op.window w = some v) :
    (op.run s).Windowed w s v := by
  cases op with
  | line l b => exact .event (.line l b) hs h (s.setLine_history l b) (s.setLine_csDisp l b) (s.setLine_csAdc l b)
  | cs d b => exact s.setCs_disciplined d b w v hs h
  | duty n => exact .event (.bl n) hs h rfl rfl rfl
  | xfer d tx =>
    obtain ⟨rfl, htx, rfl⟩ := windowAfter_xferFail h
    exact s.xfer_windowed d tx htx hs
  | stream =>
    obtain ⟨rfl, -, rfl⟩ := windowAfter_xferFail h
    exact s.xfer_windowed .disp s.frameBytes (List.ne_nil_of_length_pos (by rw [s.frameBytes_length]; decide)) hs
  | elapse =>
    simp only [Op.run, State.elapse]
    split
    · next ms _ => exact .event (.wait ms) hs h rfl rfl rfl
    · obtain ⟨rfl, rfl⟩ := windowAfter_wait (ms := 0) h
      exact .refl none s hs
  | dstate | arm | pixel | channel | sample | button =>
    injection h with h
    exact h ▸ .refl w s hs

/-! ### Micro-sequences -/

theorem Ran.Windowed.after {w v u : Option Device} {s t : State} {r : Ran} (h1 : Disciplined w s v t)
    (h2 : r.Windowed v t u) : r.Windowed w s u := by
  match r, h2 with
  | .done _, h2 => exact h1.trans h2
  | .stop .bus _, h2 => exact h1.trans h2
  | .stop .hung _, ⟨x, h2⟩ => exact ⟨x, h1.trans h2⟩
  | .stop .cut _, ⟨x, h2⟩ => exact ⟨x, h1.trans h2⟩

theorem runOps_windowed (ops : List Op) (s : State) (w v : Option Device) (hs : s.opens w) (h : opsWindow w ops = some v) :
    (runOps ops s).Windowed w s v := by
  induction ops generalizing s w with
  | nil =>
    injection h with h
    exact h ▸ .refl w s hs
  | cons op rest ih =>
    obtain ⟨u, hop, hrest⟩ := Option.bind_eq_some_iff.1 h
    have htick : Disciplined w s w s.tick := ⟨[], by simp, rfl, hs⟩
    have hrun := op.run_windowed s.tick w u hs hop
    rw [runOps]
    split
    · exact ⟨w, .refl w s hs⟩
    · match op.run s.tick, hrun with
      | .done t, hrun =>
        exact (ih t u hrun.opens hrest).after (htick.trans hrun)
      | .stop .bus t, hrun => exact hrun.after htick
      | .stop .hung t, hrun => exact hrun.after htick
      | .stop .cut t, hrun => exact hrun.after htick

/-- Every instruction's micro-sequence runs from no window to no window (R135, R136). -/
theorem opsOf_window (i : Instr) : opsWindow none (opsOf i) = some none := by
  cases i with
  | dispClear color =>
    have key : ∀ l : List Nat, opsWindow none (l.map fun n => Op.pixel n color) = some none := by
      intro l
      induction l with
      | nil => rfl
      | cons n l ih => exact ih
    exact key _
  | muxEnable | muxDisable => cases hm : Config.hasMuxEn <;> simp [opsOf, enableSequence, hm, opsWindow, Op.window, windowAfter]
  | _ => rfl

/-! ### How an instruction begins and ends -/

theorem Disciplined.blockReset {w v : Option Device} {s t : State} (h : Disciplined w s v t) :
    Disciplined w s none t.blockReset :=
  h.trans (.event .reset h.opens rfl (by simp) rfl rfl)

theorem State.settleRaces_disciplined (s : State) (w : Option Device) (hs : s.opens w) : Disciplined w s w s.settleRaces := by
  obtain ⟨m, h⟩ := s.settleRaces_frame
  exact ⟨[], by simp, rfl, by rw [h]; exact hs⟩

theorem State.conclude_disciplined (s : State) (r : Response) (hs : s.opens none) : Disciplined none s none (s.conclude r) := by
  have hsettle := s.settleRaces_disciplined none hs
  obtain ⟨-, h⟩ | ⟨-, h⟩ := s.conclude_cases r <;> rw [h]
  · exact hsettle.blockReset
  · exact hsettle.trans (.event (.resp r.message) hsettle.opens rfl rfl rfl rfl)

theorem State.raise_disciplined (s : State) (e : Status) (hs : s.opens none) : Disciplined none s none (s.raise e) := by
  obtain ⟨d, h⟩ := s.abortRule_frame e
  have habort : (s.abortRule e).opens none := by rw [h]; exact hs
  exact .trans ⟨[], by simp, rfl, habort⟩ ((s.abortRule e).conclude_disciplined (bare e) habort)

theorem State.retire_disciplined (s : State) (hs : s.opens none) : Disciplined none s none s.retire := by
  obtain ⟨-, h⟩ | ⟨-, h⟩ := s.retire_cases <;> rw [h]
  · exact (Disciplined.refl none s hs).blockReset
  · exact ⟨[], by simp, rfl, hs⟩

theorem State.close_disciplined (s : State) (i : Instr) (hs : s.opens none) : Disciplined none s none (s.close i) := by
  unfold State.close
  split
  · exact s.conclude_disciplined _ hs
  · exact s.retire_disciplined hs

theorem State.abandon_disciplined (s : State) (i : Instr) (hs : s.opens none) : Disciplined none s none (s.abandon i) := by
  unfold State.abandon
  split
  · exact s.retire_disciplined hs
  · split
    · exact s.conclude_disciplined _ hs
    · exact s.raise_disciplined .bus hs

/-- A request records its `REQ`, a wire frame nothing (R110; log entry 8). -/
theorem State.enter_disciplined (s : State) (i : Instr) (hs : s.opens none) : Disciplined none s none (s.enter i) := by
  obtain ⟨port, made, work, m, reads, h⟩ := s.enter_frame i
  have hopens : (s.enter i).opens none := by rw [h]; exact hs
  refine ⟨opening i, ?_, ?_, hopens⟩
  · cases i <;> simp [State.enter, opening, Instr.layer]
  · cases i <;> rfl

/-- From a free bus an instruction leaves events that keep the discipline, and the window they leave. -/
theorem exec_disciplined (i : Instr) (s t : State) (hs : BusFree s) (h : exec i s = .next t) : ∃ v, Disciplined none s v t := by
  have henter := s.enter_disciplined i (s.opens_busFree.2 hs)
  have hopens := henter.opens
  obtain ⟨status, hp, rfl⟩ | ⟨-, rfl⟩ := exec_ran i s t h
  · rw [s.enter_request i (precheck_request i _ status hp)] at henter hopens
    exact ⟨none, henter.trans ((s.take i).raise_disciplined status hopens)⟩
  · have hran := (runOps_windowed (opsOf i) _ none none hopens (opsOf_window i)).after henter
    match runOps (opsOf i) (s.enter i), hran with
    | .done u, hran =>
      exact ⟨none, hran.trans (u.close_disciplined i hran.opens)⟩
    | .stop .bus u, hran =>
      exact ⟨none, hran.trans (u.abandon_disciplined i hran.opens)⟩
    | .stop .hung u, hran => exact hran
    | .stop .cut u, ⟨v, hran⟩ =>
      exact ⟨none, (hran.trans (u.settleRaces_disciplined v hran.opens)).blockReset⟩

end Sys2Proof.Machine
end

section
/-! SUPPORT. The views of the chip-selects (spec/30_encoding.md R123), of the bus configuration (spec/40_transaction.md R141) and
of the order of bits (spec/20_memory.md R60). -/

namespace Sys2Proof.Machine

open Sys2Proof

/-! ### Levels and configuration -/

theorem State.csLevel_eq (s : State) (d : Device) : s.csLevel d = !s.selected d := by
  unfold State.csLevel
  cases s.selected d <;> rfl

theorem State.selected_of_opens (s t : State) (w : Option Device) (hs : s.opens w) (ht : t.opens w) (d : Device) :
    s.selected d = t.selected d := by
  obtain ⟨hsd, hsa⟩ := hs
  obtain ⟨htd, hta⟩ := ht
  cases d with
  | disp => exact hsd.trans htd.symm
  | adc => exact hsa.trans hta.symm

theorem State.busConfig_of_opens (s : State) (d : Device) (h : s.opens (some d)) : s.busConfig = Config.spi d := by
  rw [State.busConfig, s.opens_window _ h]
  rfl

theorem State.busConfig_cases (s : State) : s.busConfig = Config.spi .disp ∨ s.busConfig = Config.spi .adc := by
  unfold State.busConfig
  cases s.openWindow.getD (Config.gapDevice s.history) with
  | disp => exact .inl rfl
  | adc => exact .inr rfl

/-! ### One event of a history that keeps the discipline -/

/-- The windows before and after an event in the middle of it. -/
theorem State.replay_event (s : State) (w v : Option Device) (before after : List Event) (e : Event) (hs : s.opens w)
    (h : windowTrail w (before ++ e :: after) = some v) :
    ∃ x y, windowAfter x e = some y ∧ (s.replay before).opens x ∧ (s.replay (before ++ [e])).opens y := by
  rw [windowTrail_append] at h
  obtain ⟨x, hx, h⟩ := Option.bind_eq_some_iff.1 h
  have hbefore := s.replay_opens w x before hs hx
  cases he : windowAfter x e with
  | none => simp [windowTrail, he] at h
  | some y =>
    refine ⟨x, y, he, hbefore, ?_⟩
    simpa [State.replay] using (s.replay before).afterEvent_opens x y e hbefore he

theorem windowAfter_assert {w v : Option Device} {d : Device} (h : windowAfter w (.cs d true) = some v) : w = none := by
  simp only [windowAfter, Option.ite_none_right_eq_some] at h
  exact h.1

theorem windowAfter_sentTo {w v : Option Device} {d : Device} {e : Event} {tx : Bytes} (hd : sentTo d e = some tx)
    (h : windowAfter w e = some v) : w = some d := by
  unfold sentTo at hd
  split at hd
  all_goals simp_all [windowAfter]

/-- An event that leaves from a window to a window leaves it open. -/
theorem windowAfter_some {d d' : Device} {e : Event} (h : windowAfter (some d) e = some (some d')) : d' = d := by
  cases e with
  | cs _ b => cases b <;> simp [windowAfter] at h
  | _ => simp_all [windowAfter]

/-- The configuration changes only beside a window that is not open (R141). -/
theorem State.busConfig_changes (s t : State) (w v : Option Device) (e : Event) (hs : s.opens w) (ht : t.opens v)
    (h : windowAfter w e = some v) (hne : s.busConfig ≠ t.busConfig) : BusFree s ∨ BusFree t := by
  match w, v with
  | none, _ => exact .inl (s.opens_busFree.1 hs)
  | some _, none => exact .inr (t.opens_busFree.1 ht)
  | some d, some d' =>
    obtain rfl := windowAfter_some h
    exact absurd ((s.busConfig_of_opens d' hs).trans (t.busConfig_of_opens d' ht).symm) hne

/-! ### Bits on the wire -/

@[simp] theorem shiftedBits_length (b : Byte) : (shiftedBits b).length = 8 := rfl

theorem shiftedBits_getElem? (b : Byte) (j : Nat) (h : j < 8) : (shiftedBits b)[j]? = some (b.getLsbD (7 - j)) := by
  simp [shiftedBits, h]

theorem wireBits_length (tx : Bytes) : (wireBits tx).length = 8 * tx.length := by
  simp [wireBits, List.length_flatMap, mul_comm]

theorem wireBits_getElem? (tx : Bytes) (k j : Nat) (hk : k < tx.length) (hj : j < 8) :
    (wireBits tx)[8 * k + j]? = some ((tx.getD k 0).getLsbD (7 - j)) := by
  induction tx generalizing k with
  | nil => cases hk
  | cons b tx ih =>
    have hcons : wireBits (b :: tx) = shiftedBits b ++ wireBits tx := rfl
    rw [hcons]
    cases k with
    | zero =>
      rw [List.getElem?_append_left (by simpa using hj)]
      simpa using shiftedBits_getElem? b j hj
    | succ k =>
      have hoff : 8 * (k + 1) + j - 8 = 8 * k + j := by omega
      rw [List.getElem?_append_right (by simp; omega), shiftedBits_length, hoff]
      simpa using ih k (by simpa using hk)

/-- Settles O5: the events of an instruction keep the chip-select discipline, so each one stands in the window that the
discipline asks for. -/
theorem levelsConfigurationAndBitOrder : Obligations.LevelsConfigurationAndBitOrder := by
  refine ⟨State.csLevel_eq, State.busConfig_cases, fun s h1 h2 => s.busConfig_of_opens .disp ⟨h1, h2⟩,
    fun s h1 h2 => s.busConfig_of_opens .adc ⟨h1, h2⟩, ?_, fun tx => ⟨wireBits_length tx, wireBits_getElem? tx⟩⟩
  intro s t i hfree h
  have hs := s.opens_busFree.2 hfree
  obtain ⟨v, made, hist, htrail, ht⟩ := exec_disciplined i s t hfree h
  refine ⟨made, hist, State.selected_of_opens _ t v (s.replay_opens none v made hs htrail) ht, ?_⟩
  rintro before e after rfl
  obtain ⟨x, y, he, hx, hy⟩ := s.replay_event none v before after e hs htrail
  refine ⟨?_, ?_, State.busConfig_changes _ _ x y e hx hy he⟩
  · rintro d rfl
    obtain rfl := windowAfter_assert he
    exact (State.opens_busFree _).1 hx
  · intro d tx hd
    obtain rfl := windowAfter_sentTo hd he
    exact ⟨State.opens_window _ _ hx, State.busConfig_of_opens _ d hx⟩

end Sys2Proof.Machine
end

section
/-! SUPPORT. The frame buffer decides no control path (spec/10_state.md R44): two runs of an instruction whose states differ in
the frame buffer, side by side. -/

namespace Sys2Proof.Machine

open Sys2Proof

/-- Two states of one instruction run on two frame buffers: the control state is the same, and what was received and recorded
is, unless the frame buffer was streamed. -/
structure Agree (i : Instr) (s u : State) : Prop where
  phase : u.phase = s.phase
  dstate : u.dstate = s.dstate
  timer : u.timer = s.timer
  respPort : u.respPort = s.respPort
  env : u.env = s.env
  seen : i ≠ .dispWriteFrame → u.history = s.history ∧ u.work = s.work

/-- Two micro-sequences stop alike, in states that agree. -/
def Ran.Agree (i : Instr) (x y : Ran) : Prop :=
  match x, y with
  | .done s, .done u => Machine.Agree i s u
  | .stop why s, .stop why' u => why = why' ∧ Machine.Agree i s u
  | _, _ => False

section
variable {i : Instr} {s u : State}

theorem Agree.tick (h : Agree i s u) : Agree i s.tick u.tick where
  phase := by simp [h.phase]
  dstate := h.dstate
  timer := h.timer
  respPort := h.respPort
  env := by simp [State.tick, h.env]
  seen := h.seen

theorem Agree.setCs (h : Agree i s u) (d : Device) (b : Bool) : Agree i (s.setCs d b) (u.setCs d b) where
  phase := by simp [h.phase]
  dstate := by simp [h.dstate]
  timer := by simp [h.timer]
  respPort := by simp [h.respPort]
  env := by simp [h.env]
  seen := fun hi => by simp [h.seen hi]

theorem Agree.setLine (h : Agree i s u) (l : Line) (b : Bool) : Agree i (s.setLine l b) (u.setLine l b) where
  phase := by simp [h.phase]
  dstate := by simp [h.dstate]
  timer := by simp [h.timer]
  respPort := by simp [h.respPort]
  env := by simp [h.env]
  seen := fun hi => by simp [h.seen hi]

/-- A transfer that a listed reply answers leaves states that agree, whatever was sent where the buffer may be streamed. -/
theorem Agree.xfer (h : Agree i s u) (d : Device) (tx tx' : Bytes) (htx : i ≠ .dispWriteFrame → tx' = tx)
    (hr : s.env.replies ≠ []) : (s.xfer d tx).Agree i (u.xfer d tx') := by
  obtain ⟨hphase, hdstate, htimer, hresp, henv, hseen⟩ := h
  obtain ⟨r, rest, hrest⟩ := List.exists_cons_of_ne_nil hr
  have hs := s.answer_listed d tx r rest hrest
  have hu := u.answer_listed d tx' r rest (by rw [henv, hrest])
  cases r with
  | ok given =>
    rw [s.xfer_ok d tx given hs, u.xfer_ok d tx' given hu]
    exact ⟨hphase, hdstate, htimer, hresp, by simp [henv], fun hi => by simp [hseen hi, htx hi]⟩
  | fail =>
    have hfailed : Agree i
        (({ s with env := { s.env with replies := s.env.replies.tail } } : State).record (.xferFail d tx))
        (({ u with env := { u.env with replies := u.env.replies.tail } } : State).record (.xferFail d tx')) :=
      ⟨hphase, hdstate, htimer, hresp, by simp [henv], fun hi => by simp [hseen hi, htx hi]⟩
    by_cases hcut : s.env.resetIn = some 0
    · rw [s.xfer_fail_cut d tx hs hcut, u.xfer_fail_cut d tx' hu (by rw [henv, hcut])]
      exact ⟨rfl, hfailed⟩
    · rw [s.xfer_fail d tx hs hcut, u.xfer_fail d tx' hu (by rwa [henv])]
      exact ⟨rfl, hfailed.tick.setCs d false⟩
  | hang =>
    rw [s.xfer_hang d tx hs, u.xfer_hang d tx' hu]
    exact ⟨rfl, hphase, hdstate, htimer, hresp, by simp [henv], hseen⟩

theorem Agree.elapse (h : Agree i s u) : Agree i s.elapse u.elapse := by
  obtain ⟨hphase, hdstate, htimer, hresp, henv, hseen⟩ := h
  unfold State.elapse
  rw [htimer]
  split
  · exact ⟨hphase, hdstate, rfl, hresp, henv, fun hi => by simp [hseen hi]⟩
  · exact ⟨hphase, hdstate, htimer, hresp, henv, hseen⟩

theorem Agree.sampleButton (h : Agree i s u) (n : Nat) : Agree i (s.sampleButton n) (u.sampleButton n) := by
  obtain ⟨hphase, hdstate, htimer, hresp, henv, hseen⟩ := h
  exact ⟨hphase, hdstate, htimer, hresp, by simp [State.sampleButton, henv],
    fun hi => by simp [State.sampleButton, State.rawButton, henv, hseen hi]⟩

/-! ### Micro-sequences -/

/-- Does a micro-operation ask the bus for a reply? -/
def Op.asks (op : Op) : Bool := op matches .xfer .. | .stream

theorem Op.run_agree (op : Op) (h : Agree i s u) (hstream : op = .stream → i = .dispWriteFrame)
    (hr : op.asks = true → s.env.replies ≠ []) : (op.run s).Agree i (op.run u) := by
  obtain ⟨hphase, hdstate, htimer, hresp, henv, hseen⟩ := id h
  cases op with
  | xfer d tx => exact h.xfer d tx tx (fun _ => rfl) (hr rfl)
  | stream => exact h.xfer .disp _ _ (fun hi => absurd (hstream rfl) hi) (hr rfl)
  | line l b => exact h.setLine l b
  | cs d b => exact h.setCs d b
  | elapse => exact h.elapse
  | button n => exact h.sampleButton n
  | dstate d => exact ⟨hphase, rfl, htimer, hresp, henv, hseen⟩
  | arm ms => exact ⟨hphase, hdstate, rfl, hresp, henv, hseen⟩
  | pixel n color => exact ⟨hphase, hdstate, htimer, hresp, henv, hseen⟩
  | duty n => exact ⟨hphase, hdstate, htimer, hresp, henv, fun hi => by simp [hseen hi]⟩
  | channel ch => exact ⟨hphase, hdstate, htimer, hresp, henv, fun hi => by simp [hseen hi]⟩
  | sample => exact ⟨hphase, hdstate, htimer, hresp, henv, fun hi => by simp [State.takeSample, hseen hi]⟩

/-- A micro-operation that is done used up one reply where it asks for one, else none. -/
theorem Op.run_replies (op : Op) (t : State) (h : op.run s = .done t) :
    t.env.replies = if op.asks then s.env.replies.tail else s.env.replies := by
  have hx : ∀ d tx, s.xfer d tx = .done t → t.env.replies = s.env.replies.tail := by
    intro d tx hxfer
    obtain ⟨rx, -, hc⟩ | hc | hc | hc := s.xfer_cases d tx <;> rw [hc] at hxfer <;> cases hxfer
    rfl
  cases op with
  | xfer d tx => exact hx d tx h
  | stream => exact hx .disp _ h
  | elapse =>
    injection h with h
    rw [← h]
    unfold State.elapse
    split <;> rfl
  | _ =>
    injection h with h
    simp [← h, Op.asks, State.takeSample, State.sampleButton]

theorem runOps_agree (ops : List Op) (h : Agree i s u) (hstream : Op.stream ∈ ops → i = .dispWriteFrame)
    (hr : ops.countP Op.asks ≤ s.env.replies.length) : (runOps ops s).Agree i (runOps ops u) := by
  induction ops generalizing s u with
  | nil => exact h
  | cons op rest ih =>
    by_cases hcut : s.env.resetIn = some 0
    · rw [runOps_cut op rest s hcut, runOps_cut op rest u (by rw [h.env, hcut])]
      exact ⟨rfl, h⟩
    · rw [runOps_cons op rest s hcut, runOps_cons op rest u (by rwa [h.env])]
      rw [List.countP_cons] at hr
      have hrun := op.run_agree h.tick (fun ho => hstream (by simp [ho])) fun ha => by
        rw [if_pos ha] at hr
        exact List.ne_nil_of_length_pos (Nat.lt_of_lt_of_le (Nat.succ_pos _) hr)
      have hleft := op.run_replies (s := s.tick)
      revert hrun hleft
      cases op.run s.tick <;> cases op.run u.tick
      case done.done t t' =>
        intro hrun hleft
        refine ih hrun (fun ho => hstream (by simp [ho])) ?_
        rw [hleft t rfl]
        split <;> simp_all
        omega
      case stop.stop => exact fun hrun _ => hrun
      all_goals exact fun hrun _ => hrun.elim

/-- Every listed transfer of an instruction is one micro-operation that asks the bus. -/
theorem opsOf_asks (i : Instr) (m : Memory) : (opsOf i).countP Op.asks = (transfersOf i m).length := by
  cases i with
  | dispClear color =>
    refine List.countP_eq_zero.2 fun op hop => ?_
    obtain ⟨n, -, rfl⟩ := List.mem_map.1 hop
    exact Bool.false_ne_true
  | muxEnable | muxDisable => cases hm : Config.hasMuxEn <;> simp [opsOf, enableSequence, hm, Op.asks, transfersOf]
  | _ => rfl

/-- `DISP_WRITE_FRAME` is the one request that streams (R174). -/
theorem opsOf_stream (i : Instr) (hl : i.layer = .request) (h : Op.stream ∈ opsOf i) : i = .dispWriteFrame := by
  have key : i ≠ .dispWriteFrame → (opsOf i).any (fun op => op matches .stream) = false := by
    intro hi
    cases i with
    | dispWriteFrame => exact absurd rfl hi
    | dispClear color => simp [opsOf, clearSequence]
    | muxEnable | muxDisable => cases hm : Config.hasMuxEn <;> simp [opsOf, enableSequence, hm]
    | dcsRamwr => cases hl
    | _ => rfl
  by_contra hi
  exact Bool.eq_false_iff.1 (key hi) (List.any_eq_true.2 ⟨_, h, rfl⟩)

/-! ### How a request begins and ends -/

/-- The host's accesses land on both frame buffers alike, and what else a request begins with is the same. -/
theorem State.take_agree (s : State) (i : Instr) (m : Memory) : Agree i (s.take i) (({ s with fb := m } : State).take i) := by
  obtain ⟨m1, reads1, h1⟩ := s.take_cases i
  obtain ⟨m2, reads2, h2⟩ := State.take_cases { s with fb := m } i
  rw [h1, h2]
  exact ⟨rfl, rfl, rfl, rfl, rfl, fun _ => ⟨rfl, rfl⟩⟩

/-- The same response at the port, the same phase, the same `DSTATE`. -/
def SameAnswer (s u : State) : Prop := s.respPort = u.respPort ∧ s.phase = u.phase ∧ s.dstate = u.dstate

theorem Agree.sameAnswer (h : Agree i s u) : SameAnswer s u := ⟨h.respPort.symm, h.phase.symm, h.dstate.symm⟩

theorem SameAnswer.blockReset (s u : State) : SameAnswer s.settleRaces.blockReset u.settleRaces.blockReset := ⟨rfl, rfl, rfl⟩

theorem Agree.conclude (h : Agree i s u) (r : Response) : SameAnswer (s.conclude r) (u.conclude r) := by
  obtain ⟨m, hs⟩ := s.settleRaces_frame
  obtain ⟨m', hu⟩ := u.settleRaces_frame
  unfold State.conclude
  rw [h.env]
  split
  · exact .blockReset s u
  · rw [hs, hu]
    exact ⟨rfl, rfl, h.dstate.symm⟩

theorem Agree.raise (h : Agree i s u) (e : Status) : SameAnswer (s.raise e) (u.raise e) := by
  have habort : Agree i (s.abortRule e) (u.abortRule e) := by
    unfold State.abortRule
    rw [h.phase]
    split
    · exact ⟨rfl, rfl, h.timer, h.respPort, h.env, h.seen⟩
    · exact h
  exact habort.conclude (bare e)

/-- A request answers with what was received, `DISP_WRITE_FRAME` with its status only. -/
theorem Agree.answerOf (h : Agree i s u) : answerOf i u = answerOf i s := by
  cases i with
  | btnRead => simp [Machine.answerOf, buttonsResponse, h.seen nofun]
  | adcRead | adcReadAll => simp [Machine.answerOf, samplesResponse, h.seen nofun]
  | adcSelftest => simp [Machine.answerOf, h.seen nofun]
  | _ => rfl

theorem Agree.close (h : Agree i s u) (hl : i.layer = .request) : SameAnswer (s.close i) (u.close i) := by
  rw [State.close, State.close, if_pos hl, if_pos hl, h.answerOf]
  exact h.conclude _

theorem Agree.abandon (h : Agree i s u) (hl : i.layer = .request) : SameAnswer (s.abandon i) (u.abandon i) := by
  rw [State.abandon, State.abandon, if_neg (not_not.2 hl), if_neg (not_not.2 hl)]
  split
  · exact h.conclude _
  · exact h.raise .bus

theorem Ran.Agree.finish {x y : Ran} (h : x.Agree i y) (hl : i.layer = .request) :
    SameAnswer (x.finish (State.close i) (State.abandon i)) (y.finish (State.close i) (State.abandon i)) := by
  cases x with
  | done s =>
    cases y with
    | done u => exact Machine.Agree.close h hl
    | stop why u => exact h.elim
  | stop why s =>
    cases y with
    | done u => exact h.elim
    | stop why' u =>
      obtain ⟨rfl, h⟩ := h
      cases why with
      | bus => exact h.abandon hl
      | hung => exact h.sameAnswer
      | cut => exact .blockReset s u

end

/-- Settles O57: the two runs agree from the request on, since a listed reply answers each transfer of either. -/
theorem frameBufferDecidesNothing : Obligations.FrameBufferDecidesNothing := by
  intro s t u i m hl hr ht hu
  have htake := s.take_agree i m
  obtain ⟨e, hs, rfl⟩ | ⟨hs, rfl⟩ := exec_ran i s t ht <;> obtain ⟨e', hs', rfl⟩ | ⟨hs', rfl⟩ := exec_ran i _ u hu
  · obtain rfl : e = e' := Option.some.inj (hs.symm.trans hs')
    exact htake.raise e
  · exact nomatch hs.symm.trans hs'
  · exact nomatch hs.symm.trans hs'
  · rw [s.enter_request i hl, State.enter_request _ i hl]
    refine (runOps_agree (opsOf i) htake (opsOf_stream i hl) ?_).finish hl
    obtain ⟨m', reads, h⟩ := s.take_cases i
    rw [opsOf_asks i s.fb, h]
    exact hr

end Sys2Proof.Machine
end

section
/-! SUPPORT. The frame buffer at the host's port and its addresses (spec/20_memory.md R62, R64). -/

namespace Sys2Proof.Machine

open Sys2Proof

/-! ### The pixels' offsets (R62) -/

theorem fbSize_eq : Config.fbSize = 153600 := rfl

theorem pixelOffset_eq (x y : Nat) : pixelOffset x y = 2 * (y * 320 + x) := rfl

/-- Settles O59: an offset's row and column are the quotient and the remainder of its half by 320. -/
theorem pixelOffsetsPartitionTheBuffer : Obligations.PixelOffsetsPartitionTheBuffer := by
  simp only [Obligations.PixelOffsetsPartitionTheBuffer, pixelOffset_eq, fbSize_eq]
  refine ⟨?injective, ?bounded, ?covering, trivial⟩
  case injective => omega
  case bounded => omega
  case covering =>
    intro a ha
    exact ⟨a / 2 % 320, a / 640, by omega, by omega, by omega⟩

/-! ### The host's port (R64) -/

/-- The host reaches the frame buffer whether the block is idle or hung. -/
theorem step_access (s : State) (a : Access) (rest : List Move) (h : s.env.agenda = .access a :: rest) :
    step s = (s.afterMove rest).presentAccess a := by
  unfold step State.advance
  rw [h]
  cases s.phase <;> rfl

theorem State.presentAccess_beyond (s : State) (a : Access) (h : Config.fbSize ≤ accessOffset a) :
    s.presentAccess a = .refused (.frameBufferRange (accessOffset a)) := if_pos h

theorem State.presentAccess_within (s : State) (a : Access) (h : accessOffset a < Config.fbSize) :
    s.presentAccess a = .next (s.hostAccess a) := if_neg (Nat.not_le_of_lt h)

/-- A read that nothing races with returns the buffer's byte. -/
theorem State.portRead_free (s : State) (off : Nat) (hclear : ∀ color k, s.phase ≠ .busy (.dispClear color) k)
    (hframe : ∀ k, s.phase ≠ .busy .dispWriteFrame k) (hramwr : ∀ k, s.phase ≠ .busy .dcsRamwr k) :
    s.portRead off = Memory.read s.fb off := by
  unfold State.portRead
  split
  · next hp => exact absurd hp (hclear _ _)
  · next hp => exact absurd hp (hframe _)
  · next hp => exact absurd hp (hramwr _)
  · rfl

/-- Settles O11: an admitted access is one write or one read of the frame buffer, in whatever phase the block waits. -/
theorem frameBufferPortIsByteGranular : Obligations.FrameBufferPortIsByteGranular := by
  intro s a rest hagenda hwf
  rw [step_access s a rest hagenda]
  refine ⟨State.presentAccess_beyond _ a, ?write, ?read⟩
  case write =>
    rintro off v rfl hoff
    refine ⟨Memory.write s.fb off v, State.presentAccess_within _ _ hoff, Memory.wf_write s.fb off v hwf, ?_, ?_⟩
    · rw [Memory.read_write s.fb off v off hwf hoff, if_pos rfl]
    · exact fun x hx => Memory.read_write_other s.fb off v x hwf hx
  case read =>
    rintro off rfl hoff
    exact ⟨(s.afterMove rest).portRead off, State.presentAccess_within _ _ hoff, State.portRead_free _ off⟩

end Sys2Proof.Machine
end

section
/-! SUPPORT. The frame buffer beside the host's writes (spec/20_memory.md R74): a request served undisturbed but for them, what
`DISP_CLEAR` fills and what `DISP_WRITE_FRAME` streams. -/

namespace Sys2Proof.Machine

open Sys2Proof

/-! ### Offsets that are not raced -/

theorem lastWritten_unraced (a : Nat) (l : List Access) (h : a ∉ racedOffsets l) : lastWritten a l = none := by
  induction l with
  | nil => rfl
  | cons x l ih =>
    cases x with
    | read off => exact ih h
    | write off v =>
      obtain ⟨hoff, hl⟩ : a ≠ off ∧ a ∉ racedOffsets l := by simpa [racedOffsets] using h
      simp [lastWritten, ih hl, hoff.symm]

theorem read_writtenBy_unraced (m : Memory) (l : List Access) (a : Nat) (hm : Memory.wf m) (ha : a < Config.fbSize)
    (h : a ∉ racedOffsets l) : Memory.read (writtenBy m l) a = Memory.read m a := by
  rw [read_writtenBy l m hm a ha, lastWritten_unraced a l h, Option.getD_none]

theorem Memory.read_scramble_other (m : Memory) (made : List Event) (offsets : List Nat) (a : Nat) (hm : Memory.wf m)
    (h : a ∉ offsets) : Memory.read (Memory.scramble m made offsets) a = Memory.read m a := by
  induction offsets generalizing m with
  | nil => rfl
  | cons off offsets ih =>
    obtain ⟨hoff, hrest⟩ := not_or.1 (List.mem_cons.not.1 h)
    exact (ih _ (Memory.wf_write _ _ _ hm) hrest).trans (Memory.read_write_other _ _ _ _ hm hoff)

/-- The stream holds the frame buffer's byte wherever the host wrote none. -/
theorem State.frameBytes_unraced (s : State) (a : Nat) (ha : a < Config.fbSize) (h : a ∉ racedOffsets s.env.racing) :
    s.frameBytes[a]? = some (Memory.read s.fb a) := by
  simp [State.frameBytes, ha, State.streamByte, h]

/-! ### Requests served -/

@[simp] theorem State.take_env (s : State) (i : Instr) : (s.take i).env = s.env := by
  obtain ⟨m, reads, h⟩ := s.take_cases i
  rw [h]

@[simp] theorem State.take_fb (s : State) (i : Instr) : (s.take i).fb = writtenBy s.fb s.env.racing := State.hostRaces_fb _

theorem State.take_fb_wf (s : State) (i : Instr) (h : Memory.wf s.fb) : Memory.wf (s.take i).fb := State.hostRaces_wf _ h

/-- A micro-operation that is done gives way to the next. -/
theorem runOps_done (op : Op) (rest : List Op) (s t : State) (h : s.env.resetIn = none) (hop : op.run s.tick = .done t) :
    runOps (op :: rest) s = runOps rest t := by
  rw [runOps_cons op rest s (by simp [h]), hop]

theorem State.busRequest_served (s : State) (i : Instr) (ops : List Op) (result : State → Response)
    (hp : precheck i s.dstate = none) (hs : BusFree s) : s.busRequest i ops result = .next (s.serve i ops result) := by
  rw [State.busRequest, hp]
  exact s.guarded_free _ hs

theorem State.lineRequest_served (s : State) (i : Instr) (ops : List Op) (result : State → Response)
    (hp : precheck i s.dstate = none) : s.lineRequest i ops result = .next (s.serve i ops result) := by
  rw [State.lineRequest, hp]

/-- A request whose micro-sequence ran to its end without a block reset answers its result. -/
theorem State.serve_done (s t : State) (i : Instr) (ops : List Op) (result : State → Response)
    (hrun : runOps ops (s.take i) = .done t) (ht : t.env.resetIn = none) :
    s.serve i ops result = t.settleRaces.respond (result t) := by
  rw [State.serve, hrun, Ran.finish, State.conclude, if_neg (by simp [ht])]

/-! ### `DISP_CLEAR` (R177) -/

/-- The buffer with a color at each of the given pixels, numbered in the order of R62. -/
def Memory.fill (m : Memory) (color : U16) (pixels : List Nat) : Memory :=
  pixels.foldl (fun m i => Memory.writeList m (2 * i) (enc16 color)) m

/-- A pixel has a color: its two bytes are those of the color, big-endian. -/
def Memory.holds (m : Memory) (color : U16) (i : Nat) : Prop :=
  Memory.read m (2 * i) = color.extractLsb' 8 8 ∧ Memory.read m (2 * i + 1) = color.extractLsb' 0 8

theorem Memory.wf_fill (m : Memory) (color : U16) (pixels : List Nat) (h : Memory.wf m) :
    Memory.wf (Memory.fill m color pixels) := by
  induction pixels generalizing m with
  | nil => exact h
  | cons i pixels ih => exact ih _ (Memory.wf_writeList m _ _ h)

theorem Memory.holds_writePixel (m : Memory) (color : U16) (i : Nat) (hm : Memory.wf m) (hi : i < Config.pixels) :
    Memory.holds (Memory.writeList m (2 * i) (enc16 color)) color i :=
  Memory.read_writePixel m (2 * i) _ _ hm (by rw [fbSize_eq]; have : i < 76800 := hi; omega)

/-- A pixel that has the color keeps it while others are given it. -/
theorem Memory.holds_writePixel_other (m : Memory) (color : U16) (i j : Nat) (hm : Memory.wf m) (hij : i ≠ j)
    (h : Memory.holds m color i) : Memory.holds (Memory.writeList m (2 * j) (enc16 color)) color i := by
  have hlen : (enc16 color).length = 2 := rfl
  exact ⟨(Memory.read_writeList_other m _ _ _ hm (by omega)).trans h.1,
    (Memory.read_writeList_other m _ _ _ hm (by omega)).trans h.2⟩

theorem Memory.holds_fill (m : Memory) (color : U16) (pixels : List Nat) (i : Nat) (hm : Memory.wf m) (hi : i < Config.pixels)
    (h : i ∈ pixels ∨ Memory.holds m color i) : Memory.holds (Memory.fill m color pixels) color i := by
  induction pixels generalizing m with
  | nil => exact h.resolve_left List.not_mem_nil
  | cons j pixels ih =>
    refine ih _ (Memory.wf_writeList m _ _ hm) ?_
    by_cases hij : i = j
    · exact .inr (hij ▸ Memory.holds_writePixel m color i hm hi)
    · exact (h.imp_left fun hmem => (List.mem_cons.1 hmem).resolve_left hij).imp_right
        (Memory.holds_writePixel_other m color i j hm hij)

/-- Writing pixels meets nothing that stops it: the buffer is filled, and what the outside does stays as it was. -/
theorem runOps_pixels (s : State) (color : U16) (pixels : List Nat) (h : s.env.resetIn = none) :
    ∃ t, runOps (pixels.map fun i => .pixel i color) s = .done t ∧ t.fb = Memory.fill s.fb color pixels ∧ t.env = s.env := by
  induction pixels generalizing s with
  | nil => exact ⟨s, rfl, rfl, rfl⟩
  | cons i pixels ih =>
    have henv : s.tick.env = s.env := by rw [s.tick_quiet h]
    obtain ⟨t, hrun, hfb, ht⟩ :=
      ih { s.tick with fb := Memory.writeList s.fb (2 * i) (enc16 color) } (by simp [h])
    exact ⟨t, (runOps_done _ _ s _ h rfl).trans hrun, hfb, ht.trans henv⟩

/-- At the end of `DISP_CLEAR` the offsets the host wrote meanwhile hold free bytes. -/
theorem State.settleRaces_clear (s : State) (color : U16) (k : Nat) (h : s.phase = .busy (.dispClear color) k) :
    s.settleRaces = { s with fb := Memory.scramble s.fb s.history (racedOffsets s.env.racing) } := by
  rw [State.settleRaces, h]

/-- Settles O51: every pixel is written after the host's writes, and only the raced offsets are made free again. -/
theorem clearFillsWhereNotRaced : Obligations.ClearFillsWhereNotRaced := by
  intro s color hr hwf
  have hruns : (s.take (.dispClear color)).Runs (.dispClear color) := s.enter_runs (.dispClear color) hr
  have hm := s.take_fb_wf (.dispClear color) hwf
  obtain ⟨t, hrun, hfb, henv⟩ := runOps_pixels (s.take (.dispClear color)) color (List.range' 0 Config.pixels) hruns.undisturbed
  have hend := runOps_runs (clearSequence color) _ _ hruns
  rw [clearSequence, hrun] at hend
  obtain ⟨⟨k, hk⟩, ht⟩ := hend
  rw [State.take_env] at henv
  have hfilled : Memory.wf t.fb := hfb ▸ Memory.wf_fill _ color _ hm
  refine ⟨t.settleRaces.respond (okResponse t), ?_, rfl, t.settleRaces_wf hfilled, fun i hi => ?_⟩
  · exact (s.lineRequest_served _ _ _ rfl).trans (congrArg _ (s.serve_done t _ _ okResponse hrun ht))
  · have hmem : i ∈ List.range' 0 Config.pixels := List.mem_range'_1.2 ⟨i.zero_le, by rwa [Nat.zero_add]⟩
    have hholds : Memory.holds t.fb color i := hfb ▸ Memory.holds_fill _ color _ i hm hi (.inl hmem)
    rw [State.respond_fb, t.settleRaces_clear color k hk, henv]
    exact ⟨fun hraced => (Memory.read_scramble_other _ _ _ _ hfilled hraced).trans hholds.1,
      fun hraced => (Memory.read_scramble_other _ _ _ _ hfilled hraced).trans hholds.2⟩

/-! ### `DISP_WRITE_FRAME` (R175) -/

/-- A micro-operation is done whose transfer, if it makes one, is answered. -/
theorem Op.run_answered (op : Op) (s : State) (h : s.env.resetIn = none)
    (hr : op.asks = true → ∃ given rest, s.env.replies = .ok given :: rest) :
    ∃ t, op.run s = .done t ∧ t.env.resetIn = none := by
  have hx : ∀ d tx, (∃ given rest, s.env.replies = .ok given :: rest) → ∃ t, s.xfer d tx = .done t ∧ t.env.resetIn = none := by
    rintro d tx ⟨given, rest, hlisted⟩
    exact ⟨_, s.xfer_ok d tx given (s.answer_listed d tx _ rest hlisted), h⟩
  cases op with
  | xfer d tx => exact hx d tx (hr rfl)
  | stream => exact hx .disp _ (hr rfl)
  | elapse => exact ⟨_, rfl, by unfold State.elapse; split <;> exact h⟩
  | line l b => exact ⟨_, rfl, by rwa [State.setLine_env]⟩
  | cs d b => exact ⟨_, rfl, by rwa [State.setCs_env]⟩
  | dstate | arm | duty | pixel | channel | sample | button => exact ⟨_, rfl, h⟩

/-- A micro-sequence whose transfers are all answered runs to its end. -/
theorem runOps_answered (ops : List Op) (s : State) (given : List Bytes) (rest : List Reply) (h : s.env.resetIn = none)
    (hr : s.env.replies = given.map Reply.ok ++ rest) (hn : ops.countP Op.asks = given.length) :
    ∃ t, runOps ops s = .done t ∧ t.env.replies = rest := by
  induction ops generalizing s given with
  | nil =>
    obtain rfl := List.length_eq_zero_iff.1 hn.symm
    exact ⟨s, rfl, hr⟩
  | cons op ops ih =>
    rw [List.countP_cons] at hn
    by_cases hasks : op.asks
    · rw [if_pos hasks] at hn
      obtain ⟨g, given, rfl⟩ := List.exists_cons_of_length_eq_add_one hn.symm
      obtain ⟨t, hrun, ht⟩ := op.run_answered s.tick (by simp [h]) fun _ => ⟨g, _, hr⟩
      rw [runOps_done op ops s t h hrun]
      refine ih t given ht ?_ (Nat.succ.inj hn)
      rw [op.run_replies t hrun, if_pos hasks, State.tick_replies, hr]
      rfl
    · rw [if_neg hasks] at hn
      obtain ⟨t, hrun, ht⟩ := op.run_answered s.tick (by simp [h]) (absurd · hasks)
      rw [runOps_done op ops s t h hrun]
      refine ih t given ht ?_ hn
      rw [op.run_replies t hrun, if_neg hasks, State.tick_replies, hr]

/-- The window in which the frame is sent (R139, R174). -/
def streamWindow : List Op := [.cs .disp true, .stream, .cs .disp false]

/-- What `DISP_WRITE_FRAME` runs before that window. -/
def frameOpening : List Op := emitWindow 0 0 lastColumn lastRow ++ sendCommand 0x2C [] ++ [.line .dc true]

theorem frameSequence_eq : frameSequence = frameOpening ++ streamWindow := rfl

/-- The state that window sends the stream from. -/
def State.atStream (s : State) : State := (s.tick.setCs .disp true).tick

/-- The window records the stream as one transfer of the whole buffer. -/
theorem runOps_streamWindow (s : State) (given : Bytes) (rest : List Reply) (h : s.env.resetIn = none)
    (hr : s.env.replies = .ok given :: rest) (hl : given.length = Config.fbSize) :
    ∃ t, runOps streamWindow s = .done t ∧
      t.history = s.history ++ [Event.cs .disp true, .xfer .disp s.atStream.frameBytes given, .cs .disp false] := by
  have hsent : ∃ u, Op.stream.run s.atStream = .done u ∧ u.env.resetIn = none ∧
      u.history = s.history ++ [Event.cs .disp true, .xfer .disp s.atStream.frameBytes given] := by
    refine ⟨_, s.atStream.xfer_ok .disp _ given (State.answer_listed _ _ _ _ rest (by simp [State.atStream, hr])), ?_, ?_⟩
    · simp [State.atStream, h]
    · rw [received_eq _ _ _ _ (hl.trans (State.frameBytes_length _).symm)]
      simp [State.atStream]
  obtain ⟨u, hstream, hu, hhistory⟩ := hsent
  refine ⟨u.tick.setCs .disp false, ?_, by simp [hhistory]⟩
  rw [streamWindow, runOps_done _ _ s _ h rfl, runOps_done _ _ _ u (by simp [h]) hstream, runOps_done _ _ u _ hu rfl, runOps_nil]

/-- Settles O50: the transfers before the stream are answered and leave the frame buffer as the host wrote it, and the stream
is that buffer wherever the host wrote nothing. -/
theorem streamIsTheBufferWhereNotRaced : Obligations.StreamIsTheBufferWhereNotRaced := by
  intro s r1 r3 r5 r2 r4 r6 rest hreset hs hd hwf _ _ hl hreplies
  have hruns : (s.take .dispWriteFrame).Runs .dispWriteFrame := s.enter_runs .dispWriteFrame hreset
  obtain ⟨u, hopening, hu⟩ := runOps_answered frameOpening (s.take .dispWriteFrame) [[r1], r2, [r3], r4, [r5]] (.ok r6 :: rest)
    hruns.undisturbed (by simp [hreplies]) rfl
  obtain ⟨made, hcoming⟩ := runOps_coming frameOpening _ hruns.undisturbed
  have hat := hcoming.at_
  have hnone := hcoming.none_
  have hfb := runOps_element frameOpening (s.take .dispWriteFrame) .fb (by decide)
  rw [hopening] at hat hnone hfb
  obtain ⟨t, hwindow, hhistory⟩ := runOps_streamWindow u r6 rest hnone hu hl
  have hrun : runOps frameSequence (s.take .dispWriteFrame) = .done t := by
    rw [frameSequence_eq, runOps_append, hopening]
    exact hwindow
  have hend := runOps_runs frameSequence _ _ hruns
  rw [hrun] at hend
  refine ⟨t.settleRaces.respond (okResponse t), .req (encode .dispWriteFrame) :: made, u.atStream.frameBytes, ?_, ?_,
    State.frameBytes_length _, fun a ha hraced => ?_⟩
  · exact (s.busRequest_served .dispWriteFrame _ _ (if_pos hd) hs).trans
      (congrArg _ (s.serve_done t _ _ okResponse hrun hend.undisturbed))
  · have hopened : u.history = _ := hat.hist
    rw [State.respond_history, State.settleRaces_history, hhistory, hopened, State.take_history]
    simp only [List.append_assoc, List.cons_append, List.nil_append]
    rfl
  · have hracing : u.atStream.env.racing = s.env.racing := by
      rw [← s.take_env .dispWriteFrame, ← hat.racing]
      rfl
    have hbuffer : u.atStream.fb = writtenBy s.fb s.env.racing := Eq.trans hfb (s.take_fb .dispWriteFrame)
    rw [State.frameBytes_unraced _ a ha (hracing ▸ hraced), hbuffer, read_writtenBy_unraced _ _ _ hwf ha hraced]

end Sys2Proof.Machine
end

section
/-! SUPPORT. Words and instructions (spec/30_encoding.md R90 to R98, R120, spec/42_adc.md R200, R202, R215, spec/43_mux.md
R241): layer by layer, a word decodes to an instruction exactly when it is the word of that instruction, in that layer and
well formed. -/

namespace Sys2Proof

/-! ### Operand bytes -/

theorem enc16_dec16 (hi lo : Byte) : enc16 (dec16 hi lo) = [hi, lo] :=
  congrArg₂ (fun a b => [a, b]) BitVec.extractLsb'_append_eq_left BitVec.extractLsb'_append_eq_right

theorem dec32_enc32 (v : BitVec 32) :
    dec32 (v.extractLsb' 24 8) (v.extractLsb' 16 8) (v.extractLsb' 8 8) (v.extractLsb' 0 8) = v := by
  rw [dec32, BitVec.extractLsb'_append_extractLsb'_eq_extractLsb' (by rfl),
    BitVec.extractLsb'_append_extractLsb'_eq_extractLsb' (by rfl),
    BitVec.extractLsb'_append_extractLsb'_eq_extractLsb' (by rfl)]
  exact BitVec.extractLsb'_eq_self

theorem enc32_dec32 (b3 b2 b1 b0 : Byte) : enc32 (dec32 b3 b2 b1 b0) = [b3, b2, b1, b0] := by
  have h3 : (dec32 b3 b2 b1 b0).extractLsb' 24 8 = b3 :=
    (BitVec.extractLsb'_append_eq_of_le (by decide)).trans
      ((BitVec.extractLsb'_append_eq_of_le (by decide)).trans BitVec.extractLsb'_append_eq_left)
  have h2 : (dec32 b3 b2 b1 b0).extractLsb' 16 8 = b2 :=
    (BitVec.extractLsb'_append_eq_of_le (by decide)).trans
      ((BitVec.extractLsb'_append_eq_of_le (by decide)).trans BitVec.extractLsb'_append_eq_right)
  have h1 : (dec32 b3 b2 b1 b0).extractLsb' 8 8 = b1 :=
    (BitVec.extractLsb'_append_eq_of_le (by decide)).trans BitVec.extractLsb'_append_eq_right
  have h0 : (dec32 b3 b2 b1 b0).extractLsb' 0 8 = b0 := BitVec.extractLsb'_append_eq_right
  rw [enc32, h3, h2, h1, h0]

/-! ### Request messages -/

/-- The format of an opcode is that of its row (R94). -/
theorem formatOf_eq_some_iff (op : Byte) (f : Format) : formatOf op = some f ↔ (op, f) ∈ opcodeMap := by
  constructor
  · intro h
    obtain ⟨⟨op', f'⟩, hfind, rfl⟩ := Option.map_eq_some_iff.1 h
    have hop : op' = op := by simpa using List.find?_some hfind
    exact hop ▸ List.mem_of_find?_eq_some hfind
  · intro h
    have hrows : opcodeMap.all (fun row => formatOf row.1 = some row.2) = true := by decide
    simpa using List.all_eq_true.1 hrows _ h

theorem formatOf_eq_none_iff (op : Byte) : formatOf op = none ↔ ∀ row ∈ opcodeMap, row.1 ≠ op := by
  simp [formatOf]

/-- An assembled request is the one whose message is the opcode and the operand bytes. -/
theorem encode_of_assemble (op : Byte) (operands : Bytes) (i : Instr) (h : assemble op operands = some i) :
    i.layer = .request ∧ encode i = op :: operands := by
  unfold assemble at h
  split at h
  · split_ifs at h <;> cases h <;> simp [Instr.layer, encode, *]
  · split_ifs at h <;> cases h <;> simp [Instr.layer, encode, *]
  · split_ifs at h
    cases h
    simp [Instr.layer, encode, enc16_dec16, *]
  · split_ifs at h
    cases h
    simp [Instr.layer, encode, enc32_dec32, *]
  · split_ifs at h
    cases h
    simp [Instr.layer, encode, enc16_dec16, *]
  · cases h

/-- A request's message is an assigned opcode and operand bytes, as many as its format has (R93, R94), and they assemble to
the request. -/
theorem assemble_of_encode (i : Instr) (h : i.layer = .request) : ∃ op operands f, encode i = op :: operands ∧
    (op, f) ∈ opcodeMap ∧ operands.length + 1 = formatLength f ∧ assemble op operands = some i := by
  cases i with
  | dispSetWindow => exact ⟨_, _, .w, rfl, by decide, rfl, by simp [enc16, assemble]⟩
  | dispClear => exact ⟨_, _, .p16, rfl, by decide, rfl, by simp [enc16, assemble]⟩
  | dispSetBacklight => exact ⟨_, _, .q32, rfl, by decide, rfl, by simp [enc32, assemble, dec32_enc32]⟩
  | ledWrite => exact ⟨_, _, .l8, rfl, by decide, rfl, rfl⟩
  | adcRead | muxSelect => exact ⟨_, _, .c8, rfl, by decide, rfl, rfl⟩
  | dispReset | dispInit | dispWriteFrame | btnRead | adcReadAll | adcSelftest | muxEnable | muxDisable =>
    exact ⟨_, _, .n, rfl, by decide, rfl, rfl⟩
  | _ => cases h

/-- Operand bytes as many as an assigned opcode's format has assemble to a request. -/
theorem exists_assemble (op : Byte) (operands : Bytes) (f : Format) (hf : (op, f) ∈ opcodeMap)
    (hl : operands.length + 1 = formatLength f) : ∃ i, assemble op operands = some i := by
  cases f with
  | n =>
    obtain rfl := List.length_eq_zero_iff.1 (Nat.succ.inj hl)
    have hop : op = 0x01 ∨ op = 0x02 ∨ op = 0x04 ∨ op = 0x07 ∨ op = 0x11 ∨ op = 0x12 ∨ op = 0x21 ∨ op = 0x22 := by
      simpa [opcodeMap] using hf
    rcases hop with rfl | rfl | rfl | rfl | rfl | rfl | rfl | rfl <;> exact ⟨_, rfl⟩
  | c8 =>
    obtain ⟨b, rfl⟩ := List.length_eq_one_iff.1 (Nat.succ.inj hl)
    have hop : op = 0x10 ∨ op = 0x20 := by simpa [opcodeMap] using hf
    rcases hop with rfl | rfl <;> exact ⟨_, rfl⟩
  | w =>
    obtain rfl : op = 0x03 := by simpa [opcodeMap] using hf
    match operands, hl with
    | [_, _, _, _, _, _, _, _], _ => exact ⟨_, rfl⟩
  | p16 =>
    obtain rfl : op = 0x05 := by simpa [opcodeMap] using hf
    match operands, hl with
    | [_, _], _ => exact ⟨_, rfl⟩
  | q32 =>
    obtain rfl : op = 0x06 := by simpa [opcodeMap] using hf
    match operands, hl with
    | [_, _, _, _], _ => exact ⟨_, rfl⟩
  | l8 =>
    obtain ⟨b, rfl⟩ := List.length_eq_one_iff.1 (Nat.succ.inj hl)
    obtain rfl : op = 0x08 := by simpa [opcodeMap] using hf
    exact ⟨_, rfl⟩

/-- The reserved bits of an L8 operand are 0 in the message of a well-formed request, and that is all its well-formedness
asks (R93, R98). -/
theorem reserved_iff_wf (i : Instr) (op : Byte) (operands : Bytes) (f : Format) (hl : i.layer = .request)
    (he : encode i = op :: operands) (hf : (op, f) ∈ opcodeMap) :
    ¬(f = .l8 ∧ reservedSet operands = true) ↔ i.wf = true := by
  have hop : f = .l8 → op = 0x08 := by
    rintro rfl
    simpa [opcodeMap] using hf
  cases i with
  | ledWrite rgb =>
    obtain ⟨rfl, rfl⟩ := List.cons.inj he
    obtain rfl : f = .l8 := by simpa [opcodeMap] using hf
    simp [reservedSet, Instr.wf]
  | dispReset | dispInit | dispSetWindow | dispWriteFrame | dispClear | dispSetBacklight | btnRead | adcRead | adcReadAll
  | adcSelftest | muxSelect | muxEnable | muxDisable =>
    obtain ⟨rfl, rfl⟩ := List.cons.inj he
    exact iff_of_true (fun h => absurd (hop h.1) (by decide)) rfl
  | _ => cases hl

/-- The tests of R95: an assigned opcode, the length of its format, no reserved bit set. -/
theorem decodeRequest_eq_ok (m : Bytes) (i : Instr) : decodeRequest m = .ok i ↔
    ∃ op operands f, m = op :: operands ∧ formatOf op = some f ∧ m.length = formatLength f ∧
      ¬(f = .l8 ∧ reservedSet operands = true) ∧ assemble op operands = some i := by
  constructor
  · intro h
    unfold decodeRequest at h
    split at h
    · cases h
    · next op operands =>
      split at h
      · cases h
      · next f hf =>
        split_ifs at h with hlen hres
        split at h
        · next hi =>
          cases h
          exact ⟨op, operands, f, rfl, hf, not_not.1 hlen, hres, hi⟩
        · cases h
  · rintro ⟨op, operands, f, rfl, hf, hlen, hres, hi⟩
    simp only [decodeRequest, hf, hlen, hi, ne_eq, not_true_eq_false, if_false, if_neg hres]

theorem decodeRequest_iff (m : Bytes) (i : Instr) :
    decodeRequest m = .ok i ↔ encode i = m ∧ i.layer = .request ∧ i.wf = true := by
  rw [decodeRequest_eq_ok]
  constructor
  · rintro ⟨op, operands, f, rfl, hf, -, hres, hi⟩
    obtain ⟨hlayer, he⟩ := encode_of_assemble op operands i hi
    exact ⟨he, hlayer, (reserved_iff_wf i op operands f hlayer he ((formatOf_eq_some_iff op f).1 hf)).1 hres⟩
  · rintro ⟨rfl, hlayer, hwf⟩
    obtain ⟨op, operands, f, he, hf, hlen, hi⟩ := assemble_of_encode i hlayer
    exact ⟨op, operands, f, he, (formatOf_eq_some_iff op f).2 hf, by rw [he]; exact hlen,
      (reserved_iff_wf i op operands f hlayer he hf).2 hwf, hi⟩

/-! ### Wire words -/

theorem decodeDisplay_iff (word : Bytes) (i : Instr) :
    decodeDisplay word = .ok i ↔ encode i = word ∧ i.layer = .display ∧ i.wf = true := by
  constructor
  · intro h
    unfold decodeDisplay at h
    split at h
    · split_ifs at h <;> cases h <;> simp [encode, Instr.layer, Instr.wf, *]
    · split_ifs at h <;> cases h <;> simp [encode, Instr.layer, Instr.wf, enc16_dec16, *]
    · cases h
  · rintro ⟨rfl, hlayer, hwf⟩
    cases i with
    | dcsSwreset | dcsSlpout | dcsColmod | dcsMadctl | dcsDispon | dcsRamwr => rfl
    | dcsCaset | dcsRaset =>
      rw [Instr.wf] at hwf
      simp [encode, enc16, decodeDisplay, hwf]
    | _ => cases hlayer

/-- The channel of a request frame has three bits. -/
theorem adcFrameChannel_lt (b0 b1 : Byte) : (adcFrameChannel b0 b1).toNat < 8 := by
  have hhigh : ((b0 &&& 1) <<< 2 : Byte).toNat < 2 ^ 3 := by
    have hbit : b0.toNat &&& (1 : Byte).toNat ≤ 1 := Nat.and_le_right
    simp only [BitVec.toNat_shiftLeft, BitVec.toNat_and, Nat.shiftLeft_eq]
    omega
  have hlow : (b1 >>> 6 : Byte).toNat < 2 ^ 3 := by
    simp only [BitVec.toNat_ushiftRight, Nat.shiftRight_eq_div_pow]
    omega
  exact Nat.or_lt_two_pow hhigh hlow

theorem adcFrameChannel_adcFrame (ch : Byte) (h : ch.toNat < 8) :
    adcFrameChannel (0x06 ||| ((ch &&& 4) >>> 2)) ((ch &&& 3) <<< 6) = ch := by
  obtain ⟨n, hn, rfl⟩ : ∃ n < 8, ch = BitVec.ofNat 8 n := ⟨ch.toNat, h, by simp⟩
  interval_cases n <;> rfl

theorem decodeAdcOut_iff (word : Bytes) (i : Instr) :
    decodeAdcOut word = .ok i ↔ encode i = word ∧ i.layer = .adcOut ∧ i.wf = true := by
  constructor
  · intro h
    unfold decodeAdcOut at h
    split at h
    · split_ifs at h with hframe
      cases h
      exact ⟨hframe, rfl, decide_eq_true (adcFrameChannel_lt _ _)⟩
    · split_ifs at h with hframe
      cases h
      exact ⟨hframe.symm, rfl, rfl⟩
    · cases h
  · rintro ⟨rfl, hlayer, hwf⟩
    cases i with
    | adcFrame ch =>
      rw [encode, adcFrame, decodeAdcOut, adcFrameChannel_adcFrame ch (of_decide_eq_true hwf)]
      exact if_pos rfl
    | adcSelftestFrame => rfl
    | _ => cases hlayer

theorem decodeAdcIn_iff (word : Bytes) (i : Instr) :
    decodeAdcIn word = .ok i ↔ encode i = word ∧ i.layer = .adcIn ∧ i.wf = true := by
  constructor
  · intro h
    unfold decodeAdcIn at h
    split at h <;> cases h
    exact ⟨rfl, rfl, rfl⟩
  · rintro ⟨rfl, hlayer, -⟩
    cases i with
    | adcResponse => rfl
    | _ => cases hlayer

theorem decodeMuxLines_iff (word : Bytes) (i : Instr) :
    decodeMuxLines word = .ok i ↔ encode i = word ∧ i.layer = .muxLines ∧ i.wf = true := by
  constructor
  · intro h
    unfold decodeMuxLines at h
    split at h
    · split_ifs at h with hp
      cases h
      exact ⟨rfl, rfl, decide_eq_true hp⟩
    · cases h
  · rintro ⟨rfl, hlayer, hwf⟩
    cases i with
    | muxAddress ch => exact if_pos (of_decide_eq_true hwf)
    | _ => cases hlayer

/-- A word decodes to an instruction exactly when it is its word, in its layer, and it is well formed. -/
theorem decode_iff (l : Layer) (word : Bytes) (i : Instr) :
    decode l word = .ok i ↔ encode i = word ∧ i.layer = l ∧ i.wf = true := by
  cases l with
  | request => exact decodeRequest_iff word i
  | display => exact decodeDisplay_iff word i
  | adcOut => exact decodeAdcOut_iff word i
  | adcIn => exact decodeAdcIn_iff word i
  | muxLines => exact decodeMuxLines_iff word i

/-! ### The statements -/

/-- Settles O1: an instruction's own word, in its own layer, is read as it. -/
theorem encodeThenDecodeGivesBack : Obligations.EncodeThenDecodeGivesBack :=
  fun i hwf => (decode_iff i.layer (encode i) i).2 ⟨rfl, rfl, hwf⟩

/-- Settles O2: what a word is read as has that word, in that layer. -/
theorem decodeThenEncodeGivesBack : Obligations.DecodeThenEncodeGivesBack :=
  fun l word i h => (decode_iff l word i).1 h

/-- Settles O4: the tests of R95 leave only words that assemble, and the opcodes in no row of R94 are the gaps between its
rows. -/
theorem requestDecodesIffLegal : Obligations.RequestDecodesIffLegal := by
  refine ⟨fun m => ⟨?legal, ?decodes⟩, fun op => ?unassigned⟩
  case legal =>
    rintro ⟨i, h⟩
    obtain ⟨op, operands, f, hm, hf, hlen, hres, -⟩ := (decodeRequest_eq_ok m i).1 h
    exact ⟨op, operands, f, hm, hf, hlen, hres⟩
  case decodes =>
    rintro ⟨op, operands, f, rfl, hf, hlen, hres⟩
    obtain ⟨i, hi⟩ := exists_assemble op operands f ((formatOf_eq_some_iff op f).1 hf) hlen
    exact ⟨i, (decodeRequest_eq_ok _ i).2 ⟨op, operands, f, rfl, hf, hlen, hres, hi⟩⟩
  case unassigned =>
    rw [formatOf_eq_none_iff]
    simp only [opcodeMap, List.forall_mem_cons, List.not_mem_nil, false_implies, implies_true, and_true]
    bv_omega

/-- Settles O3: words of the spec's vectors, read by evaluation. -/
theorem specWordsDecode : Obligations.SpecWordsDecode := by
  unfold Obligations.SpecWordsDecode
  decide

end Sys2Proof
end

section
/-! SUPPORT. Sample records (spec/30_encoding.md R113) and the assembler's text (R100, R101). -/

namespace Sys2Proof.Machine

open Sys2Proof

/-- The record's second and third byte hold the twelve bits where `decodeRaw` takes them (R113, R202). -/
theorem decodeRaw_sampleRecord (x : Sample) : decodeRaw (sampleRecord x) = x.raw := by
  have hhigh : ((x.raw.extractLsb' 8 4).setWidth 8).extractLsb' 0 4 = x.raw.extractLsb' 8 4 :=
    (BitVec.extractLsb'_setWidth_of_le (by decide)).trans BitVec.extractLsb'_eq_self
  calc decodeRaw (sampleRecord x)
      = ((x.raw.extractLsb' 8 4).setWidth 8).extractLsb' 0 4 ++ x.raw.extractLsb' 0 8 := rfl
    _ = x.raw.extractLsb' 8 4 ++ x.raw.extractLsb' 0 8 := by rw [hhigh]
    _ = x.raw.extractLsb' 0 12 := BitVec.extractLsb'_append_extractLsb'_eq_extractLsb' (by rfl)
    _ = x.raw := BitVec.extractLsb'_eq_self

/-- Settles O34: the record gives back the sample's raw value, and the voltage is that value's. -/
theorem recordCarriesTheVoltage : Obligations.RecordCarriesTheVoltage := by
  intro ch r0 r1 r2
  rw [recordVoltage, decodeRaw_sampleRecord]
  rfl

/-- Settles O60: the spec's lines, assembled by evaluation. -/
theorem assemblerExamples : Obligations.AssemblerExamples := by
  unfold Obligations.AssemblerExamples
  decide

end Sys2Proof.Machine
end

section
/-! SUPPORT. The step of an idle block that has a request message or a wire frame presented to it (spec/30_encoding.md R90,
R95). -/

namespace Sys2Proof.Machine

open Sys2Proof

theorem step_idle (s : State) (mv : Move) (rest : List Move) (hp : s.phase = .idle) (ha : s.env.agenda = mv :: rest) :
    step s = (s.afterMove rest).whileIdle mv := by
  rw [step, State.advance, hp, ha]

theorem State.present_decoded (s : State) (m : Bytes) (i : Instr) (hracing : notAdmitted s.env.racing = none)
    (h : decodeRequest m = .ok i) : s.present m = exec i s := by
  rw [State.present, hracing, h]

theorem State.presentFrame_decoded (s : State) (l : Layer) (word : Bytes) (i : Instr) (hl : l ≠ .request)
    (hracing : notAdmitted s.env.racing = none) (h : decode l word = .ok i) : s.presentFrame l word = exec i s := by
  rw [State.presentFrame, if_neg hl, hracing, h]

/-- Settles O7: the idle block takes the move off the agenda and presents its message, with what the outside does beside it. -/
theorem stepRunsDecodedRequest : Obligations.StepRunsDecodedRequest := by
  intro s m i racing k rest hp ha hracing h
  rw [step_idle s _ rest hp ha]
  exact ((s.afterMove rest).beside racing k).present_decoded m i hracing h

/-- Settles O8: the idle block takes the move off the agenda and issues its frame, with what the outside does beside it. -/
theorem stepIssuesDecodedFrame : Obligations.StepIssuesDecodedFrame := by
  intro s l word i racing k rest hp ha hl hracing h
  rw [step_idle s _ rest hp ha]
  exact ((s.afterMove rest).beside racing k).presentFrame_decoded l word i hl hracing h

end Sys2Proof.Machine
end

section
/-! SUPPORT. A request's one response (spec/30_encoding.md R110): what the ends of a request record and leave at the port. -/

namespace Sys2Proof.Machine

open Sys2Proof

/-- `t` is `s` after one response, which is the one at the port and has a payload only where its status is `OK`. -/
def AnsweredOnce (s t : State) : Prop :=
  ∃ r : Response, t.respPort = some r ∧ t.history = s.history ++ [.resp r.message] ∧ (r.status ≠ .ok → r.payload = [])

theorem State.conclude_answers (s : State) (r : Response) (h : s.env.resetIn = none) (hr : r.status ≠ .ok → r.payload = []) :
    AnsweredOnce s (s.conclude r) := by
  obtain ⟨hcut, -⟩ | ⟨-, hc⟩ := s.conclude_cases r
  · exact nomatch h.symm.trans hcut
  · rw [hc]
    exact ⟨r, rfl, by simp, hr⟩

theorem State.raise_answers (s : State) (e : Status) (h : s.env.resetIn = none) : AnsweredOnce s (s.raise e) := by
  obtain ⟨d, hd⟩ := s.abortRule_frame e
  have hanswer := (s.abortRule e).conclude_answers (bare e) (by rw [hd]; exact h) fun _ => rfl
  rwa [AnsweredOnce, State.abortRule_history] at hanswer

/-- A request that ran to its end answers `OK`. -/
theorem answerOf_status (i : Instr) (s : State) : (answerOf i s).status = .ok := by
  cases i <;> rfl

theorem State.close_answers (s : State) (i : Instr) (hl : i.layer = .request) (h : s.env.resetIn = none) :
    AnsweredOnce s (s.close i) := by
  rw [State.close, if_pos hl]
  exact s.conclude_answers _ h fun hne => absurd (answerOf_status i s) hne

theorem State.abandon_answers (s : State) (i : Instr) (hl : i.layer = .request) (h : s.env.resetIn = none) :
    AnsweredOnce s (s.abandon i) := by
  rw [State.abandon, if_neg (not_not.2 hl)]
  split
  · exact s.conclude_answers _ h fun hne => absurd rfl hne
  · exact s.raise_answers .bus h

/-- A request that ends idle recorded its `REQ`, then its micro-sequence's events, no response among them, then its answer. -/
theorem exec_answers (i : Instr) (s t : State) (hl : i.layer = .request) (hq : s.env.resetIn = none) (h : exec i s = .next t)
    (hidle : t.phase = .idle) : ∃ (u : State) (made : List Event),
      u.history = s.history ++ .req (encode i) :: made ∧ (∀ e ∈ made, ∀ m, e ≠ .resp m) ∧ AnsweredOnce u t := by
  have hruns : (s.take i).Runs i := s.enter_request i hl ▸ s.enter_runs i hq
  obtain ⟨e, -, rfl⟩ | ⟨-, rfl⟩ := exec_ran i s t h
  · exact ⟨s.take i, [], s.take_history i, by simp, (s.take i).raise_answers e hruns.undisturbed⟩
  · rw [s.enter_request i hl] at hidle ⊢
    obtain ⟨made, hmade⟩ := runOps_coming (opsOf i) (s.take i) hruns.undisturbed
    have hrecorded : (runOps (opsOf i) (s.take i)).state.history = s.history ++ .req (encode i) :: made := by
      rw [hmade.at_.hist, State.take_history, List.append_assoc, List.singleton_append]
    have hend := runOps_runs (opsOf i) _ i hruns
    obtain ⟨u, hr, hu⟩ | ⟨u, hr, hu⟩ | ⟨u, hr, hu⟩ | ⟨u, hr, -⟩ :=
      (runOps (opsOf i) (s.take i)).finish_cases (State.close i) (State.abandon i)
    · rw [hr] at hrecorded hend
      exact ⟨u, made, hrecorded, hmade.noresp, hu ▸ u.close_answers i hl hend.undisturbed⟩
    · rw [hr] at hrecorded hend
      exact ⟨u, made, hrecorded, hmade.noresp, hu ▸ u.abandon_answers i hl hend.undisturbed⟩
    · obtain ⟨k, hk⟩ := (hr ▸ hend).busy
      rw [hu] at hidle
      exact nomatch hk.symm.trans hidle
    · exact absurd hr (hmade.nocut u)

/-- Settles O48: `REQ` comes first, the micro-sequence records no response, and the end records one; a request that hangs does
not end idle. -/
theorem everyServedRequestAnswersOnce : Obligations.EveryServedRequestAnswersOnce := by
  intro s t i hl hq h hidle
  obtain ⟨u, made, hu, hmade, r, hport, hhistory, hpayload⟩ := exec_answers i s t hl hq h hidle
  exact ⟨r, made, hport, hu ▸ hhistory, hmade, hpayload⟩

end Sys2Proof.Machine
end

section
/-! SUPPORT. The display's command bytes (spec/30_encoding.md R120, R121): what a micro-operation, a micro-sequence and an
instruction send to the display while `DC` is 0. -/

namespace Sys2Proof.Machine

open Sys2Proof

/-! ### What a list of events sends -/

/-- What is sent with `DC` at 0 is one of the command bytes by itself. -/
def tableByte (dc : Bool) (tx : Bytes) : Prop := dc = false → ∃ c ∈ commandSet, tx = [c]

/-- `DC` is as the events between `s` and `t` leave it, and what they send to the display is commands of the table or data. -/
def Tabled (s t : State) : Prop :=
  ∃ made, t.history = s.history ++ made ∧ t.dc = made.foldl dcAfter s.dc ∧
    ∀ x ∈ displayTransfers s.dc made, tableByte x.1 x.2

/-- A transfer leaves `DC` alone. -/
theorem dcAfter_sentTo (dc : Bool) (d : Device) (e : Event) (tx : Bytes) (h : sentTo d e = some tx) : dcAfter dc e = dc := by
  cases e <;> simp_all [sentTo, dcAfter]

theorem displayTransfers_cons (dc : Bool) (e : Event) (t : List Event) : displayTransfers dc (e :: t) =
    ((sentTo .disp e).map fun tx => (dc, tx)).toList ++ displayTransfers (dcAfter dc e) t := by
  rw [displayTransfers]
  split
  · next tx h => simp [h, dcAfter_sentTo dc .disp e tx h]
  · next h => simp [h]

theorem displayTransfers_append (dc : Bool) (a b : List Event) :
    displayTransfers dc (a ++ b) = displayTransfers dc a ++ displayTransfers (a.foldl dcAfter dc) b := by
  induction a generalizing dc with
  | nil => rfl
  | cons e a ih => simp [displayTransfers_cons, ih]

theorem Tabled.refl (s : State) : Tabled s s := ⟨[], by simp, rfl, by simp [displayTransfers]⟩

theorem Tabled.trans {s t u : State} (h1 : Tabled s t) (h2 : Tabled t u) : Tabled s u := by
  obtain ⟨a, ha, hdca, htx⟩ := h1
  obtain ⟨b, hb, hdcb, htxb⟩ := h2
  refine ⟨a ++ b, by rw [hb, ha, List.append_assoc], by rw [hdcb, hdca, List.foldl_append], fun x hx => ?_⟩
  rw [displayTransfers_append, ← hdca] at hx
  exact (List.mem_append.1 hx).elim (htx x) (htxb x)

/-- One event, on a state with the `DC` it leaves. -/
theorem Tabled.event {s t : State} (e : Event) (hist : t.history = s.history ++ [e]) (hdc : t.dc = dcAfter s.dc e)
    (htx : ∀ tx, sentTo .disp e = some tx → tableByte s.dc tx) : Tabled s t := by
  refine ⟨[e], hist, hdc, fun x hx => ?_⟩
  obtain ⟨tx, hsent, rfl⟩ : ∃ tx, sentTo .disp e = some tx ∧ (s.dc, tx) = x := by
    rw [displayTransfers_cons] at hx
    simpa [displayTransfers] using hx
  exact htx tx hsent

/-- No event, and `DC` as it was. -/
theorem Tabled.silent {s t : State} (hist : t.history = s.history) (hdc : t.dc = s.dc) : Tabled s t :=
  ⟨[], by simp [hist], hdc, by simp [displayTransfers]⟩

/-! ### Micro-sequences -/

/-- Does a micro-operation run with this `DC` send the display a command of the table, data, or nothing? -/
def Op.keepsTable (dc : Bool) (op : Op) : Bool :=
  match op with
  | .xfer .disp tx => dc || commandSet.any fun c => tx == [c]
  | .stream => dc
  | _ => true

/-- The `DC` a micro-operation leaves. -/
def Op.dcAfter (dc : Bool) (op : Op) : Bool :=
  match op with
  | .line .dc b => b
  | _ => dc

/-- Does every micro-operation of a sequence keep to the table, from this `DC` on? -/
def opsKeepTable (dc : Bool) (ops : List Op) : Bool :=
  match ops with
  | [] => true
  | op :: rest => op.keepsTable dc && opsKeepTable (op.dcAfter dc) rest

theorem State.setLine_dcAfter (s : State) (l : Line) (b : Bool) : (s.setLine l b).dc = dcAfter s.dc (.line l b) := by
  cases l <;> rfl

theorem State.setLine_tabled (s : State) (l : Line) (b : Bool) : Tabled s (s.setLine l b) :=
  .event (.line l b) (s.setLine_history l b) (s.setLine_dcAfter l b) nofun

theorem State.setCs_tabled (s : State) (d : Device) (b : Bool) : Tabled s (s.setCs d b) :=
  .event (.cs d b) (s.setCs_history d b) (s.setCs_dc d b) nofun

theorem State.xfer_tabled (s : State) (d : Device) (tx : Bytes) (h : d = .disp → tableByte s.dc tx) :
    Tabled s (s.xfer d tx).state := by
  have hsent : ∀ tx', (if d = .disp then some tx else none) = some tx' → tableByte s.dc tx' := by
    intro tx' htx
    obtain ⟨hd, heq⟩ := Option.ite_none_right_eq_some.1 htx
    exact Option.some.inj heq ▸ h hd
  obtain ⟨rx, -, hx⟩ | hx | hx | hx := s.xfer_cases d tx <;> rw [hx]
  · exact .event (.xfer d tx rx) rfl rfl hsent
  · have hfailed : Tabled s
        (({ s with env := { s.env with replies := s.env.replies.tail } } : State).record (.xferFail d tx)).tick :=
      .event (.xferFail d tx) rfl rfl hsent
    exact hfailed.trans (State.setCs_tabled _ d false)
  · exact .event (.xferFail d tx) rfl rfl hsent
  · exact .silent rfl rfl

theorem State.elapse_tabled (s : State) : Tabled s s.elapse := by
  unfold State.elapse
  split
  · next ms _ => exact .event (.wait ms) rfl rfl nofun
  · exact .refl s

theorem Op.run_tabled (op : Op) (s : State) (h : op.keepsTable s.dc = true) : Tabled s (op.run s).state := by
  cases op with
  | line l b => exact s.setLine_tabled l b
  | cs d b => exact s.setCs_tabled d b
  | xfer d tx =>
    refine s.xfer_tabled d tx fun hd hdc => ?_
    subst hd
    simpa [Op.keepsTable, hdc] using h
  | stream => exact s.xfer_tabled .disp _ fun _ hdc => absurd (hdc.symm.trans h) Bool.false_ne_true
  | elapse => exact s.elapse_tabled
  | duty n => exact .event (.bl n) rfl rfl nofun
  | dstate | arm | pixel | channel | sample | button => exact .silent rfl rfl

/-- Only `SetLine(DC, b)` sets `DC`. -/
theorem Op.run_dc (op : Op) (s : State) : (op.run s).state.dc = op.dcAfter s.dc := by
  cases op with
  | line l b => cases l <;> rfl
  | _ => exact Op.run_element _ s .dc (by simp [Op.sets])

theorem runOps_tabled (ops : List Op) (s : State) (h : opsKeepTable s.dc ops = true) : Tabled s (runOps ops s).state := by
  induction ops generalizing s with
  | nil => exact .refl s
  | cons op rest ih =>
    obtain ⟨hop, hrest⟩ := Bool.and_eq_true_iff.1 h
    have hrun : Tabled s (op.run s.tick).state := Tabled.trans (.silent rfl rfl) (op.run_tabled s.tick hop)
    have hdc := op.run_dc s.tick
    rw [runOps]
    split
    · exact .refl s
    · match op.run s.tick, hrun, hdc with
      | .done t, hrun, hdc => exact hrun.trans (ih t (hdc ▸ hrest))
      | .stop why t, hrun, _ => exact hrun

/-- Every instruction's micro-sequence sets `DC` to 0 before a command byte and to 1 before data (R145). -/
theorem opsOf_keepTable (i : Instr) (dc : Bool) : opsKeepTable dc (opsOf i) = true := by
  cases i with
  | dispClear color =>
    have key : ∀ l : List Nat, opsKeepTable dc (l.map fun n => Op.pixel n color) = true := by
      intro l
      induction l with
      | nil => rfl
      | cons n l ih => exact ih
    exact key _
  | muxEnable | muxDisable => cases hm : Config.hasMuxEn <;> simp [opsOf, enableSequence, hm, opsKeepTable, Op.keepsTable]
  | _ => rfl

/-! ### How an instruction begins and ends -/

theorem State.blockReset_tabled (s : State) : Tabled s s.blockReset := .event .reset s.blockReset_history rfl nofun

theorem State.settleRaces_tabled (s : State) : Tabled s s.settleRaces := by
  obtain ⟨m, h⟩ := s.settleRaces_frame
  exact .silent s.settleRaces_history (by rw [h])

theorem State.conclude_tabled (s : State) (r : Response) : Tabled s (s.conclude r) := by
  refine s.settleRaces_tabled.trans ?_
  obtain ⟨-, h⟩ | ⟨-, h⟩ := s.conclude_cases r <;> rw [h]
  · exact s.settleRaces.blockReset_tabled
  · exact .event (.resp r.message) rfl rfl nofun

theorem State.raise_tabled (s : State) (e : Status) : Tabled s (s.raise e) := by
  obtain ⟨d, h⟩ := s.abortRule_frame e
  exact Tabled.trans (.silent (s.abortRule_history e) (by rw [h])) ((s.abortRule e).conclude_tabled (bare e))

theorem State.retire_tabled (s : State) : Tabled s s.retire := by
  obtain ⟨-, h⟩ | ⟨-, h⟩ := s.retire_cases <;> rw [h]
  · exact s.blockReset_tabled
  · exact .silent rfl rfl

theorem State.close_tabled (s : State) (i : Instr) : Tabled s (s.close i) := by
  unfold State.close
  split
  · exact s.conclude_tabled _
  · exact s.retire_tabled

theorem State.abandon_tabled (s : State) (i : Instr) : Tabled s (s.abandon i) := by
  unfold State.abandon
  split
  · exact s.retire_tabled
  · split
    · exact s.conclude_tabled _
    · exact s.raise_tabled .bus

theorem State.take_tabled (s : State) (i : Instr) : Tabled s (s.take i) := by
  obtain ⟨m, reads, h⟩ := s.take_cases i
  exact .event (.req (encode i)) (s.take_history i) (by rw [h]; rfl) nofun

theorem State.enter_tabled (s : State) (i : Instr) : Tabled s (s.enter i) := by
  by_cases hl : i.layer = .request
  · exact s.enter_request i hl ▸ s.take_tabled i
  · exact .silent (by cases i <;> simp_all [State.enter, Instr.layer]) (s.enter_element i .dc nofun nofun)

/-- Settles O56: a micro-sequence keeps to the table whatever `DC` was before it, and no begin or end of an instruction sends
anything. -/
theorem onlyTableCommandsAreSent : Obligations.OnlyTableCommandsAreSent := by
  intro s t i h
  suffices hs : Tabled s t by
    obtain ⟨made, hhistory, -, hsent⟩ := hs
    exact ⟨made, hhistory, hsent⟩
  obtain ⟨e, -, rfl⟩ | ⟨-, rfl⟩ := exec_ran i s t h
  · exact (s.take_tabled i).trans ((s.take i).raise_tabled e)
  · have hran := (s.enter_tabled i).trans (runOps_tabled (opsOf i) (s.enter i) (opsOf_keepTable i _))
    obtain ⟨u, hr, hu⟩ | ⟨u, hr, hu⟩ | ⟨u, hr, hu⟩ | ⟨u, hr, hu⟩ :=
      (runOps (opsOf i) (s.enter i)).finish_cases (State.close i) (State.abandon i) <;> rw [hu] <;> rw [hr] at hran
    · exact hran.trans (u.close_tabled i)
    · exact hran.trans (u.abandon_tabled i)
    · exact hran
    · exact hran.trans (u.settleRaces_tabled.trans u.settleRaces.blockReset_tabled)

end Sys2Proof.Machine
end

section
/-! SUPPORT. Undisturbed windows (spec/40_transaction.md R135, R145): a transaction with one answered transfer, and the command
and data phases of the display, each as the state it leaves. -/

namespace Sys2Proof.Machine

open Sys2Proof

/-- `s` after an undisturbed window in which `tx` was sent and `rx` received: three micro-operations, one reply used up. -/
def State.afterWindow (s : State) (d : Device) (tx rx : Bytes) : State :=
  { s with
    phase := s.phase.next.next.next
    history := s.history ++ windowEvents d tx rx
    work := { s.work with rx := rx }
    env := { s.env with replies := s.env.replies.tail } }

/-- `s` after an undisturbed command or data phase: `DC` driven, then a window of the display. -/
def State.afterPhase (s : State) (dc : Bool) (tx rx : Bytes) : State :=
  { s.afterWindow .disp tx rx with
    phase := s.phase.next.next.next.next
    dc := dc
    history := s.history ++ .line .dc dc :: windowEvents .disp tx rx }

/-- The micro-operation `op` sends `tx` to the device from every state with the frame buffer and the outside of `s`. -/
def Op.Sends (op : Op) (s : State) (d : Device) (tx : Bytes) : Prop :=
  ∀ t : State, t.fb = s.fb → t.env = s.env → op.run t = t.xfer d tx

theorem Op.xfer_sends (s : State) (d : Device) (tx : Bytes) : (Op.xfer d tx).Sends s d tx := fun _ _ _ => rfl

/-- Without races the stream sends the frame buffer (R175). -/
theorem Op.stream_sends (s : State) (h : s.env.racing = []) :
    Op.stream.Sends s .disp (Memory.readList s.fb 0 Config.fbSize) := by
  intro t hfb henv
  rw [Op.run, t.frameBytes_quiet (henv ▸ h), hfb]

section
variable {s : State} {op : Op} {tx given : Bytes} {rest : List Reply}

/-- A window whose one transfer is answered is recorded, and leaves the chip-select deasserted. -/
theorem runOps_window {d : Device} (hq : s.env.resetIn = none) (hfree : BusFree s) (hop : op.Sends s d tx)
    (hr : s.env.replies = .ok given :: rest) (hl : given.length = tx.length) :
    runOps [.cs d true, op, .cs d false] s = .done (s.afterWindow d tx given) := by
  have htick : s.tick.env = s.env := by rw [s.tick_quiet hq]
  have henv : (s.tick.setCs d true).tick.env = s.env := by
    rw [State.tick_quiet _ (by simp [hq]), State.setCs_env, htick]
  have hsent := (hop (s.tick.setCs d true).tick (by simp) henv).trans
    (State.xfer_ok _ d tx given (State.answer_listed _ _ _ _ rest (henv ▸ hr)))
  rw [received_eq _ _ _ _ hl] at hsent
  rw [runOps_done _ _ s _ hq rfl, runOps_done _ _ _ _ (by simp [hq]) hsent, runOps_done _ _ _ _ (by simp [hq]) rfl, runOps_nil]
  obtain ⟨hdisp, hadc⟩ := hfree
  rw [s.tick_quiet hq, State.tick_quiet _ (by simp [hq]), State.tick_quiet _ (by simp [hq])]
  cases d <;> simp [State.setCs, State.select, State.record, State.afterWindow, windowEvents, hdisp, hadc]

theorem runOps_dcPhase (dc : Bool) (hq : s.env.resetIn = none) (hfree : BusFree s) (hop : op.Sends s .disp tx)
    (hr : s.env.replies = .ok given :: rest) (hl : given.length = tx.length) :
    runOps [.line .dc dc, .cs .disp true, op, .cs .disp false] s = .done (s.afterPhase dc tx given) := by
  rw [runOps_done _ _ s _ hq rfl, s.tick_quiet hq]
  refine Eq.trans (runOps_window (rest := rest) hq hfree hop hr hl) ?_
  simp [State.afterWindow, State.afterPhase, State.setLine, State.drive, State.record]

/-- A command byte and then data, each in a phase of its own whose transfer is answered (R145, R148). -/
theorem runOps_command (cmd : Byte) {given' : Bytes} (hq : s.env.resetIn = none) (hfree : BusFree s)
    (hop : op.Sends (s.afterPhase false [cmd] given) .disp tx) (hr : s.env.replies = .ok given :: .ok given' :: rest)
    (hl : given.length = 1) (hl' : given'.length = tx.length) :
    runOps (sendCommand cmd [] ++ [.line .dc true, .cs .disp true, op, .cs .disp false]) s =
      .done ((s.afterPhase false [cmd] given).afterPhase true tx given') := by
  have hcommand : runOps (sendCommand cmd []) s = .done (s.afterPhase false [cmd] given) :=
    runOps_dcPhase false hq hfree (Op.xfer_sends s .disp [cmd]) hr hl
  rw [runOps_append, hcommand]
  exact runOps_dcPhase (rest := rest) true hq hfree hop (by simp [State.afterPhase, State.afterWindow, hr]) hl'

/-- A wire frame whose micro-sequence ran to its end undisturbed leaves what that left, the block idle. -/
theorem State.issue_done {i : Instr} {ops : List Op} {t : State} (hrun : runOps ops (s.begin i) = .done t) (ht : Quiet t) :
    s.issue i ops = { t with phase := .idle } := by
  rw [State.issue, hrun, Ran.finish, t.retire_quiet ht]

end

/-- The two phases, on the state of the whole instruction. -/
theorem State.afterPhases_issued (s : State) (i : Instr) (cmd : Byte) (data given given' : Bytes) :
    ({ ((({ s with phase := .busy i 0 } : State).afterPhase false [cmd] given).afterPhase true data given') with
        phase := .idle } : State) =
      (({ s with dc := true } : State).afterReplies 2).issued (commandEvents cmd data given given') given' := by
  have hused : s.env.replies.tail.tail = s.env.replies.drop 2 := by rw [← List.drop_one, ← List.drop_one, List.drop_drop]
  simp [State.afterPhase, State.afterWindow, State.issued, State.afterReplies, commandEvents, commandPhase, dataEvents, hused]

/-- Settles O40: a command phase with the command byte, then a data phase with the frame buffer. -/
theorem memoryWriteFrameStreams : Obligations.MemoryWriteFrameStreams := by
  intro s r1 r2 rest hfree hq hl hr
  have hrun : runOps ramwr ({ s with phase := .busy .dcsRamwr 0 } : State) = .done _ :=
    runOps_command (given := [r1]) 0x2C hq.2 hfree (Op.stream_sends _ hq.1) hr rfl
      (hl.trans (Memory.length_readList _ _ _).symm)
  have hissue := State.issue_done ((congrArg (runOps ramwr) (s.begin_quiet .dcsRamwr hq.1)).trans hrun) hq
  exact (s.guarded_free _ hfree).trans (congrArg _ (hissue.trans (s.afterPhases_issued .dcsRamwr 0x2C _ [r1] r2)))

end Sys2Proof.Machine
end

section
/-! SUPPORT. The invariant along a run (spec/40_transaction.md R134 to R138): what holds in the middle of an instruction, that
each micro-operation keeps it, and that every end of an instruction and every move from outside meets the invariant. -/

namespace Sys2Proof.Machine

open Sys2Proof

/-! ### Sound, ready, and in the middle of an instruction -/

/-- The part of the invariant that holds at every moment, with the open window said. -/
structure State.Sound (w : Option Device) (s : State) : Prop where
  trail : windowTrail none s.history = some w
  opens : s.opens w
  canonical : Memory.wf s.fb
  dutyBounded : s.blDuty ≤ Config.pwmMax

/-- Nothing is under way: no window is open, no wait runs, and `DSTATE` is one it has between requests. -/
structure State.Ready (s : State) : Prop extends s.Sound none where
  timer : s.timer = none
  dstate : restingState s.dstate

/-- What every micro-operation of an instruction keeps besides the chip-select discipline: only `DISP_INIT` leaves the resting
states, and only a request is held at the port. -/
structure State.Kept (i : Instr) (s : State) : Prop where
  canonical : Memory.wf s.fb
  dutyBounded : s.blDuty ≤ Config.pwmMax
  dstate : i ≠ .dispInit → restingState s.dstate
  reqPort : i.layer ≠ .request → s.reqPort = none

/-- In the middle of an instruction with window `w`. -/
structure State.Inside (i : Instr) (w : Option Device) (s : State) : Prop extends s.Kept i where
  trail : windowTrail none s.history = some w
  opens : s.opens w
  busy : ∃ k, s.phase = .busy i k

section
variable {s t : State} {w v : Option Device} {i : Instr}

theorem State.Sound.after (hs : s.Sound w) (h : Disciplined w s v t) (hfb : Memory.wf t.fb)
    (hduty : t.blDuty ≤ Config.pwmMax) : t.Sound v := by
  obtain ⟨made, hist, htrail, hopens⟩ := h
  exact ⟨by rw [hist, windowTrail_append, hs.trail]; exact htrail, hopens, hfb, hduty⟩

theorem State.Sound.exclusive (hs : s.Sound w) : ¬(s.csDisp = true ∧ s.csAdc = true) := by
  obtain ⟨hd, ha⟩ := hs.opens
  rw [hd, ha]
  cases w with
  | none => simp
  | some d => cases d <;> simp

theorem State.Sound.invariant (hs : s.Sound w) (hrest : s.phase = .idle →
    s.csDisp = false ∧ s.csAdc = false ∧ s.timer = none ∧ s.reqPort = none ∧ restingState s.dstate) : Invariant s where
  windowed := by rw [s.opens_window w hs.opens, hs.trail]
  exclusive := hs.exclusive
  resting := hrest
  canonical := hs.canonical
  dutyBounded := hs.dutyBounded

/-- Block reset ends any window and brings every element to rest (R43, R302). -/
theorem State.Sound.blockReset (hs : s.Sound w) : Invariant s.blockReset :=
  (hs.after (Disciplined.refl w s hs.opens).blockReset hs.canonical (Nat.zero_le _)).invariant
    fun _ => ⟨rfl, rfl, rfl, rfl, .inl rfl⟩

theorem State.Sound.settleRaces (hs : s.Sound w) : s.settleRaces.Sound w := by
  refine hs.after (s.settleRaces_disciplined w hs.opens) (s.settleRaces_wf hs.canonical) ?_
  obtain ⟨m, h⟩ := s.settleRaces_frame
  rw [h]
  exact hs.dutyBounded

theorem Invariant.sound (h : Invariant s) : s.Sound s.openWindow where
  trail := h.windowed
  opens := by
    have hx := h.exclusive
    cases hd : s.csDisp <;> cases ha : s.csAdc <;> simp_all [State.opens, State.openWindow]
  canonical := h.canonical
  dutyBounded := h.dutyBounded

theorem Invariant.ready (h : Invariant s) (hi : s.phase = .idle) : s.Ready := by
  obtain ⟨hd, ha, htimer, -, hdstate⟩ := h.resting hi
  have hs := h.sound
  rw [s.opens_window none (s.opens_busFree.2 ⟨hd, ha⟩)] at hs
  exact ⟨hs, htimer, hdstate⟩

/-! ### How an instruction begins and ends -/

theorem State.Ready.hostRaces (hs : s.Ready) : s.hostRaces.Ready := by
  have hfb := s.hostRaces_wf hs.canonical
  obtain ⟨m, reads, h⟩ := s.hostRaces_frame
  rw [h] at hfb ⊢
  exact ⟨⟨hs.trail, hs.opens, hfb, hs.dutyBounded⟩, hs.timer, hs.dstate⟩

theorem State.Ready.req (hs : s.Ready) (m : Bytes) : (s.record (.req m)).Ready :=
  ⟨hs.after (.event (.req m) hs.opens rfl rfl rfl rfl) hs.canonical hs.dutyBounded, hs.timer, hs.dstate⟩

@[simp] theorem State.hostRaces_reqPort (s : State) : s.hostRaces.reqPort = s.reqPort := by
  obtain ⟨m, reads, h⟩ := s.hostRaces_frame
  rw [h]

/-- A wire frame takes nothing from the request port. -/
theorem State.enter_reqPort (s : State) (i : Instr) (hl : i.layer ≠ .request) : (s.enter i).reqPort = s.reqPort := by
  cases i <;> simp_all [State.enter, State.begin, Instr.layer]

/-- A waiting block that is given an instruction is in the middle of it, with nothing under way yet. -/
theorem State.Ready.enter (hs : s.Ready) (hport : s.reqPort = none) (i : Instr) :
    (s.enter i).Ready ∧ (s.enter i).Inside i none := by
  have hfb : Memory.wf (s.enter i).fb := by
    obtain ⟨port, made, work, h⟩ := s.enter_eq i
    rw [h]
    exact State.hostRaces_wf _ hs.canonical
  have hduty : (s.enter i).blDuty = s.blDuty := s.enter_element i .blDuty nofun nofun
  have htimer : (s.enter i).timer = s.timer := s.enter_element i .timer nofun nofun
  have hdstate : (s.enter i).dstate = s.dstate := s.enter_element i .dstate nofun nofun
  have hsound := hs.after (s.enter_disciplined i hs.opens) hfb (hduty ▸ hs.dutyBounded)
  have hrest : restingState (s.enter i).dstate := hdstate ▸ hs.dstate
  refine ⟨⟨hsound, htimer.trans hs.timer, hrest⟩,
    ⟨hfb, hsound.dutyBounded, fun _ => hrest, fun hl => (s.enter_reqPort i hl).trans hport⟩, hsound.trail, hsound.opens, ?_⟩
  obtain ⟨port, made, work, m, reads, h⟩ := s.enter_frame i
  exact ⟨0, by rw [h]⟩

/-- A request answers at rest, or is cut by block reset. -/
theorem State.Ready.conclude (hs : s.Ready) (r : Response) : Invariant (s.conclude r) := by
  obtain ⟨-, h⟩ | ⟨-, h⟩ := s.conclude_cases r
  · rw [h]
    exact hs.settleRaces.blockReset
  · have hdisc := s.conclude_disciplined r hs.opens
    have hsettled := hs.settleRaces
    obtain ⟨m, hm⟩ := s.settleRaces_frame
    rw [h] at hdisc ⊢
    refine (hs.after hdisc hsettled.canonical hsettled.dutyBounded).invariant fun _ => ?_
    obtain ⟨hd, ha⟩ := (State.opens_busFree _).1 hdisc.opens
    exact ⟨hd, ha, by simp [hm, hs.timer], rfl, by simpa [hm] using hs.dstate⟩

/-- A wire frame ends at rest, or is cut by block reset. -/
theorem State.Ready.retire (hs : s.Ready) (hport : s.reqPort = none) : Invariant s.retire := by
  obtain ⟨-, h⟩ | ⟨-, h⟩ := s.retire_cases <;> rw [h]
  · exact hs.blockReset
  · obtain ⟨hd, ha⟩ := s.opens_busFree.1 hs.opens
    exact State.Sound.invariant ⟨hs.trail, hs.opens, hs.canonical, hs.dutyBounded⟩
      fun _ => ⟨hd, ha, hs.timer, hport, hs.dstate⟩

theorem State.Sound.uninit (hs : s.Sound none) (htimer : s.timer = none) : ({ s with dstate := .uninit } : State).Ready :=
  ⟨⟨hs.trail, hs.opens, hs.canonical, hs.dutyBounded⟩, htimer, .inl rfl⟩

theorem State.Ready.raise (hs : s.Ready) (e : Status) : Invariant (s.raise e) := by
  have habort : (s.abortRule e).Ready := by
    unfold State.abortRule
    split
    · exact hs.uninit hs.timer
    · exact hs
  exact habort.conclude (bare e)

theorem State.Inside.sound (h : s.Inside i w) : s.Sound w := ⟨h.trail, h.opens, h.canonical, h.dutyBounded⟩

theorem State.Inside.invariant (h : s.Inside i w) : Invariant s := by
  obtain ⟨k, hk⟩ := h.busy
  exact h.sound.invariant fun hi => by simp [hk] at hi

theorem State.Inside.close (h : s.Inside i none) (hs : s.Ready) : Invariant (s.close i) := by
  unfold State.close
  split
  · exact hs.conclude _
  · next hl => exact hs.retire (h.reqPort hl)

/-- After a failed transfer `DISP_INIT` is aborted (R166), any other instruction ends at rest. -/
theorem State.Inside.abandon (h : s.Inside i none) (htimer : s.timer = none) : Invariant (s.abandon i) := by
  by_cases hi : i = .dispInit
  · subst hi
    obtain ⟨k, hk⟩ := h.busy
    have habort : s.abortRule .bus = { s with dstate := .uninit } := by simp [State.abortRule, hk]
    have hready : (s.abortRule .bus).Ready := habort ▸ h.sound.uninit htimer
    exact hready.conclude (bare .bus)
  · have hs : s.Ready := ⟨h.sound, htimer, h.dstate hi⟩
    unfold State.abandon
    split
    · next hl => exact hs.retire (h.reqPort hl)
    · split
      · exact hs.conclude _
      · exact hs.raise .bus

end

/-! ### Micro-operations -/

theorem dutyOf_le (pwmMax : Nat) (frac : BitVec 32) : dutyOf pwmMax frac ≤ pwmMax := by
  have hclamp : clampFraction frac ≤ 65536 := by
    unfold clampFraction
    omega
  exact Nat.div_le_of_le_mul (Nat.mul_le_mul_right pwmMax hclamp)

/-- The duty is set to values in range only (R33, R179). -/
theorem opsOf_duty (i : Instr) (n : Nat) (h : Op.duty n ∈ opsOf i) : n ≤ Config.pwmMax := by
  obtain ⟨frac, rfl⟩ := blDuty_writers (opsOf_sets i _ h .blDuty rfl)
  have hn : n = dutyOf Config.pwmMax frac := by simpa [opsOf] using h
  exact hn ▸ dutyOf_le _ frac

/-- Outside `DISP_INIT` only resting values of `DSTATE` are set (R24, R161). -/
theorem opsOf_dstate (i : Instr) (d : DState) (h : Op.dstate d ∈ opsOf i) (hi : i ≠ .dispInit) : restingState d := by
  obtain rfl | rfl := dstate_writers (opsOf_sets i _ h .dstate rfl)
  · have hd : d = .resetting := by simpa [opsOf, resetSequence, wait] using h
    exact .inr (.inl hd)
  · exact absurd rfl hi

theorem State.Kept.unchanged {i : Instr} {s t : State} (h : s.Kept i) (hfb : t.fb = s.fb) (hduty : t.blDuty = s.blDuty)
    (hdstate : t.dstate = s.dstate) (hport : t.reqPort = s.reqPort) : t.Kept i where
  canonical := hfb ▸ h.canonical
  dutyBounded := hduty ▸ h.dutyBounded
  dstate := hdstate ▸ h.dstate
  reqPort := hport ▸ h.reqPort

theorem State.Kept.xfer {i : Instr} {s : State} (h : s.Kept i) (d : Device) (tx : Bytes) : (s.xfer d tx).state.Kept i := by
  obtain ⟨rx, -, hx⟩ | hx | hx | hx := s.xfer_cases d tx <;> rw [hx] <;>
    exact h.unchanged (by simp) (by simp) (by simp) (by simp)

theorem Op.run_kept (i : Instr) (op : Op) (hop : op ∈ opsOf i) (s : State) (h : s.Kept i) : (op.run s).state.Kept i := by
  cases op with
  | dstate d => exact ⟨h.canonical, h.dutyBounded, opsOf_dstate i d hop, h.reqPort⟩
  | duty n => exact ⟨h.canonical, opsOf_duty i n hop, h.dstate, h.reqPort⟩
  | pixel n color => exact ⟨Memory.wf_writeList _ _ _ h.canonical, h.dutyBounded, h.dstate, h.reqPort⟩
  | xfer d tx => exact h.xfer d tx
  | stream => exact h.xfer .disp s.frameBytes
  | line l b => exact h.unchanged (s.setLine_fb l b) (s.setLine_blDuty l b) (s.setLine_dstate l b) (s.setLine_reqPort l b)
  | cs d b => exact h.unchanged (s.setCs_fb d b) (s.setCs_blDuty d b) (s.setCs_dstate d b) (s.setCs_reqPort d b)
  | elapse =>
    simp only [Op.run, State.elapse]
    split <;> exact h.unchanged rfl rfl rfl rfl
  | arm | channel | sample | button => exact h.unchanged rfl rfl rfl rfl

/-! ### Waits (R281) -/

/-- Whether a wait runs after a micro-operation that runs to its end; none where a transfer would start during one. -/
def Op.waiting (during : Bool) (op : Op) : Option Bool :=
  match op with
  | .arm _ => some true
  | .elapse => some false
  | .xfer .. | .stream => if during then none else some false
  | .dstate _ | .line .. | .cs .. | .duty _ | .pixel .. | .channel _ | .sample | .button _ => some during

/-- Whether a wait runs after a micro-sequence that runs to its end. -/
def opsWaiting (during : Bool) (ops : List Op) : Option Bool :=
  match ops with
  | [] => some during
  | op :: rest => (op.waiting during).bind fun after => opsWaiting after rest

/-- What a micro-operation or a micro-sequence leaves of `TIMER`: a wait or none at its end, none after a failed transfer. -/
def Ran.Waiting (after : Bool) (r : Ran) : Prop :=
  match r with
  | .done t => t.timer.isSome = after
  | .stop .bus t => t.timer = none
  | .stop .hung _ | .stop .cut _ => True

/-- A transfer, however it ends, leaves no wait where none ran. -/
theorem State.xfer_waiting (s : State) (d : Device) (tx : Bytes) (h : s.timer = none) : (s.xfer d tx).Waiting false := by
  obtain ⟨rx, -, hx⟩ | hx | hx | hx := s.xfer_cases d tx <;> rw [hx] <;> simp [Ran.Waiting, h]

theorem Op.waiting_xfer {during after : Bool} {d : Device} {tx : Bytes} (h : (Op.xfer d tx).waiting during = some after) :
    during = false ∧ after = false := by
  cases during <;> simp_all [Op.waiting]

theorem Op.run_waiting (op : Op) (s : State) (after : Bool) (h : op.waiting s.timer.isSome = some after) :
    (op.run s).Waiting after := by
  have hxfer : ∀ d tx, (Op.xfer d tx).waiting s.timer.isSome = some after → (s.xfer d tx).Waiting after := by
    intro d tx hd
    obtain ⟨hs, rfl⟩ := Op.waiting_xfer hd
    exact s.xfer_waiting d tx (by simpa using hs)
  cases op with
  | xfer d tx => exact hxfer d tx h
  | stream => exact hxfer .disp s.frameBytes h
  | elapse =>
    injection h with h
    subst h
    simp only [Op.run, State.elapse]
    split
    · rfl
    · next ht => simp [Ran.Waiting, ht]
  | line | cs =>
    injection h with h
    simpa [Ran.Waiting, Op.run] using h
  | arm | dstate | duty | pixel | channel | sample | button => injection h

theorem runOps_waiting (ops : List Op) (s : State) (after : Bool) (h : opsWaiting s.timer.isSome ops = some after) :
    (runOps ops s).Waiting after := by
  induction ops generalizing s with
  | nil => injection h
  | cons op rest ih =>
    obtain ⟨during, hop, hrest⟩ := Option.bind_eq_some_iff.1 h
    have hrun := op.run_waiting s.tick during hop
    rw [runOps]
    split
    · trivial
    · match op.run s.tick, hrun with
      | .done t, hrun =>
        subst hrun
        exact ih t hrest
      | .stop .bus t, hrun => exact hrun
      | .stop .hung t, hrun => exact hrun
      | .stop .cut t, hrun => exact hrun

/-- Every wait of an instruction is over before its next transfer and before its end. -/
theorem opsOf_waiting (i : Instr) : opsWaiting false (opsOf i) = some false := by
  cases i with
  | dispClear color =>
    have key : ∀ l : List Nat, opsWaiting false (l.map fun n => Op.pixel n color) = some false := by
      intro l
      induction l with
      | nil => rfl
      | cons n l ih => exact ih
    exact key _
  | muxEnable | muxDisable => cases hm : Config.hasMuxEn <;> simp [opsOf, enableSequence, hm, opsWaiting, Op.waiting]
  | _ => rfl

/-! ### Instructions -/

/-- What a micro-sequence of an instruction leaves: no window at its end and after a failed transfer (R135). -/
def Ran.Inside (i : Instr) (r : Ran) : Prop :=
  match r with
  | .done t | .stop .bus t => t.Inside i none
  | .stop .hung t | .stop .cut t => ∃ v, t.Inside i v

theorem runOps_inside (i : Instr) (s : State) (h : s.Inside i none) : (runOps (opsOf i) s).Inside i := by
  have hkept := runOps_keeps (State.Kept i) (opsOf i) s
    (fun op hop t ht => op.run_kept i hop t.tick (ht.unchanged rfl rfl rfl rfl)) h.toKept
  have hinside : ∀ v, Disciplined none s v (runOps (opsOf i) s).state → (runOps (opsOf i) s).state.Inside i v := fun v hv =>
    have hsound := h.sound.after hv hkept.canonical hkept.dutyBounded
    ⟨hkept, hsound.trail, hsound.opens, runOps_phase i (opsOf i) s h.busy⟩
  have hran := runOps_windowed (opsOf i) s none none h.opens (opsOf_window i)
  generalize runOps (opsOf i) s = r at hran hinside ⊢
  match r, hran with
  | .done t, hran | .stop .bus t, hran => exact hinside none hran
  | .stop .hung t, ⟨v, hran⟩ | .stop .cut t, ⟨v, hran⟩ => exact ⟨v, hinside v hran⟩

/-- `DISP_INIT` that runs to its end leaves the panel on (R165). -/
theorem runOps_initSequence_dstate (s t : State) (h : runOps initSequence s = .done t) : t.dstate = .on := by
  rw [initSequence, runOps_append] at h
  split at h
  · simp only [runOps, Op.run] at h
    split at h
    · cases h
    · injection h with h
      rw [← h]
  · cases h

/-- At the end of a micro-sequence nothing is under way. -/
theorem State.Inside.ready {i : Instr} {s t : State} (h : t.Inside i none) (htimer : t.timer = none)
    (hr : runOps (opsOf i) s = .done t) : t.Ready := by
  refine ⟨h.sound, htimer, ?_⟩
  by_cases hi : i = .dispInit
  · subst hi
    exact .inr (.inr (runOps_initSequence_dstate s t hr))
  · exact h.dstate hi

theorem exec_invariant (i : Instr) (s t : State) (hs : Invariant s) (hi : s.phase = .idle) (h : exec i s = .next t) :
    Invariant t := by
  obtain ⟨-, -, -, hport, -⟩ := hs.resting hi
  obtain ⟨hready, hinside⟩ := (hs.ready hi).enter hport i
  obtain ⟨status, hp, rfl⟩ | ⟨-, rfl⟩ := exec_ran i s t h
  · rw [s.enter_request i (precheck_request i _ status hp)] at hready
    exact hready.raise status
  · have hran := runOps_inside i _ hinside
    have hwait := runOps_waiting (opsOf i) (s.enter i) false (by rw [hready.timer]; exact opsOf_waiting i)
    match hr : runOps (opsOf i) (s.enter i), hran, hwait with
    | .done u, hran, hwait => exact hran.close (hran.ready (by simpa [Ran.Waiting] using hwait) hr)
    | .stop .bus u, hran, hwait => exact hran.abandon hwait
    | .stop .hung u, ⟨v, hran⟩, _ => exact hran.invariant
    | .stop .cut u, ⟨v, hran⟩, _ => exact hran.sound.settleRaces.blockReset

/-! ### Moves from outside -/

theorem Invariant.rejectMessage {s : State} (hs : Invariant s) (hi : s.phase = .idle) (m : Bytes) : Invariant (s.rejectMessage m) :=
  ((hs.ready hi).req m).hostRaces.conclude _

theorem Invariant.beside {s : State} (hs : Invariant s) (racing : List Access) (k : Option Nat) : Invariant (s.beside racing k) :=
  ⟨hs.windowed, hs.exclusive, hs.resting, hs.canonical, hs.dutyBounded⟩

theorem Invariant.afterMove {s : State} (hs : Invariant s) (rest : List Move) : Invariant (s.afterMove rest) :=
  ⟨hs.windowed, hs.exclusive, hs.resting, hs.canonical, hs.dutyBounded⟩

theorem Invariant.takeResponse {s : State} (hs : Invariant s) : Invariant { s with respPort := none } :=
  ⟨hs.windowed, hs.exclusive, hs.resting, hs.canonical, hs.dutyBounded⟩

theorem Invariant.hostAccess {s : State} (hs : Invariant s) (a : Access) : Invariant (s.hostAccess a) := by
  have hfb := s.hostAccess_wf a hs.canonical
  cases a <;> exact ⟨hs.windowed, hs.exclusive, hs.resting, hfb, hs.dutyBounded⟩

theorem Invariant.present {s t : State} (hs : Invariant s) (hi : s.phase = .idle) (m : Bytes) (h : s.present m = .next t) :
    Invariant t := by
  unfold State.present at h
  split at h
  · cases h
  · split at h
    · exact exec_invariant _ s t hs hi h
    · cases h
      exact hs.rejectMessage hi m

theorem Invariant.presentFrame {s t : State} (hs : Invariant s) (hi : s.phase = .idle) (l : Layer) (word : Bytes)
    (h : s.presentFrame l word = .next t) : Invariant t := by
  unfold State.presentFrame at h
  split at h
  · cases h
  · split at h
    · cases h
    · split at h
      · exact exec_invariant _ s t hs hi h
      · cases h

theorem Invariant.presentAccess {s t : State} (hs : Invariant s) (a : Access) (h : s.presentAccess a = .next t) : Invariant t := by
  unfold State.presentAccess at h
  split at h
  · cases h
  · cases h
    exact hs.hostAccess a

theorem Invariant.whileIdle {s t : State} (hs : Invariant s) (hi : s.phase = .idle) (mv : Move) (h : s.whileIdle mv = .next t) :
    Invariant t := by
  cases mv with
  | request m racing k => exact (hs.beside racing k).present hi m h
  | frame l word racing k => exact (hs.beside racing k).presentFrame hi l word h
  | access a => exact hs.presentAccess a h
  | takeResponse =>
    cases h
    exact hs.takeResponse
  | blockReset =>
    cases h
    exact hs.sound.blockReset

theorem Invariant.whileHung {s t : State} (hs : Invariant s) (mv : Move) (h : s.whileHung mv = .next t) : Invariant t := by
  cases mv with
  | request | frame => cases h
  | access a => exact hs.presentAccess a h
  | takeResponse =>
    cases h
    exact hs.takeResponse
  | blockReset =>
    cases h
    exact hs.sound.blockReset

/-- Settles O53: an idle block serves one whole instruction, which is in the middle of it until it ends at rest, hangs or
is cut; every other move keeps the invariant or brings the block to its reset state. -/
theorem everyStepKeepsTheInvariant : Obligations.EveryStepKeepsTheInvariant := by
  intro s t hs h
  unfold step State.advance at h
  split at h
  · cases h
    exact hs
  · next mv rest hi _ => exact (hs.afterMove rest).whileIdle hi mv h
  · cases h
  · next mv rest _ _ => exact (hs.afterMove rest).whileHung mv h

end Sys2Proof.Machine
end

section
/-! SUPPORT. The display's command frames by themselves (spec/40_transaction.md R148). -/

namespace Sys2Proof.Machine

open Sys2Proof

/-- A data phase is a phase of its own, after the command's. -/
theorem sendCommand_data (cmd : Byte) (data : Bytes) (h : data ≠ []) :
    sendCommand cmd data =
      sendCommand cmd [] ++ [.line .dc true, .cs .disp true, .xfer .disp data, .cs .disp false] := by
  simp [sendCommand, dataPhase, txn, h]

section
variable {s : State} {cmd : Byte} {given given' data : Bytes} {rest : List Reply}

/-- A command without data, issued by itself, leaves its one phase. -/
theorem State.issue_command (i : Instr) (hfree : BusFree s) (hq : Quiet s) (hr : s.env.replies = .ok given :: rest)
    (hl : given.length = 1) :
    s.issue i (sendCommand cmd []) =
      (({ s with dc := false } : State).afterReplies 1).issued (commandPhase cmd given) given := by
  have hrun : runOps (sendCommand cmd []) ({ s with phase := .busy i 0 } : State) = .done _ :=
    runOps_dcPhase false hq.2 hfree (Op.xfer_sends _ .disp [cmd]) hr hl
  rw [State.issue_done ((congrArg _ (s.begin_quiet i hq.1)).trans hrun) hq]
  simp [State.afterPhase, State.afterWindow, State.issued, State.afterReplies, commandPhase]

/-- A command with data, issued by itself, leaves its two phases. -/
theorem State.issue_commandData (i : Instr) (hdata : data ≠ []) (hfree : BusFree s) (hq : Quiet s)
    (hr : s.env.replies = .ok given :: .ok given' :: rest) (hl : given.length = 1) (hl' : given'.length = data.length) :
    s.issue i (sendCommand cmd data) =
      (({ s with dc := true } : State).afterReplies 2).issued (commandEvents cmd data given given') given' := by
  have hrun : runOps (sendCommand cmd data) ({ s with phase := .busy i 0 } : State) = .done _ :=
    (congrArg (runOps · _) (sendCommand_data cmd data hdata)).trans
      (runOps_command cmd hq.2 hfree (Op.xfer_sends _ .disp data) hr hl hl')
  rw [State.issue_done ((congrArg _ (s.begin_quiet i hq.1)).trans hrun) hq]
  exact s.afterPhases_issued i cmd data given given'

end

/-- Settles O38: each of the three frames is `SendCommand` of its byte alone. -/
theorem commandFramesIssueOnePhase : Obligations.CommandFramesIssueOnePhase := by
  intro s i cmd r rest hi hfree hq hr
  have hexec : exec i s = s.guarded (s.issue i (sendCommand cmd [])) := by
    obtain ⟨rfl, rfl⟩ | ⟨rfl, rfl⟩ | ⟨rfl, rfl⟩ := hi <;> rfl
  rw [hexec, s.guarded_free _ hfree, State.issue_command i hfree hq hr rfl]

/-- Settles O39: each of the four frames is `SendCommand` of its byte and its data. -/
theorem dataFramesIssueTwoPhases : Obligations.DataFramesIssueTwoPhases := by
  intro s i cmd r1 data r2 rest hi hfree hq hl hr
  obtain ⟨hdata, hexec⟩ : data ≠ [] ∧ exec i s = s.guarded (s.issue i (sendCommand cmd data)) := by
    obtain ⟨rfl, rfl, rfl⟩ | ⟨rfl, rfl, rfl⟩ | ⟨x0, x1, rfl, rfl, rfl⟩ | ⟨y0, y1, rfl, rfl, rfl⟩ := hi <;>
      exact ⟨nofun, rfl⟩
  rw [hexec, s.guarded_free _ hfree, State.issue_commandData i hdata hfree hq hr rfl hl]

end Sys2Proof.Machine
end

section
/-! SUPPORT. Requests served undisturbed (spec/10_state.md R21, spec/30_encoding.md R110): the middle of a request, what each kind
of micro-operation does to it, and the response at its end. -/

namespace Sys2Proof.Machine

open Sys2Proof

/-- `s` in the middle of the request `i`: `k` micro-operations started, and the events `made` recorded since `REQ`. -/
def State.amid (s : State) (i : Instr) (k : Nat) (made : List Event) : State :=
  { s with phase := .busy i k, reqPort := some (encode i), history := s.history ++ .req (encode i) :: made }

/-- An instruction that its checks let through runs its micro-sequence, where it makes transfers on a free bus. -/
theorem exec_free (i : Instr) (s : State) (hp : precheck i s.dstate = none) (hfree : transfersOf i s.fb ≠ [] → BusFree s) :
    exec i s = .next ((runOps (opsOf i) (s.enter i)).finish (State.close i) (State.abandon i)) := by
  cases i with
  | dispInit | dispSetWindow | dispWriteFrame | adcRead | adcReadAll =>
    exact s.busRequest_served _ _ _ hp (hfree (List.cons_ne_nil _ _))
  | dispReset | dispClear | dispSetBacklight | btnRead | ledWrite | muxSelect | muxEnable | muxDisable =>
    exact s.lineRequest_served _ _ _ hp
  | adcSelftest | dcsSwreset | dcsSlpout | dcsColmod | dcsMadctl | dcsDispon | dcsCaset | dcsRaset | dcsRamwr | adcFrame
  | adcSelftestFrame => exact s.guarded_free _ (hfree (List.cons_ne_nil _ _))
  | adcResponse | muxAddress => rfl

/-- From the request `i` at `s` on, `ops` run to their end undisturbed and leave the middle of it at `t`, with the events `made`. -/
structure Reaches (s : State) (i : Instr) (ops : List Op) (t : State) (made : List Event) : Prop where
  quiet : Quiet t
  run : ∃ k, runOps ops (s.take i) = .done (t.amid i k made)

/-- `s` with the variables of a request that has just been taken. -/
def State.fresh (s : State) : State := { s with work := {} }

/-- `s` with `DSTATE` at `d`. -/
def State.turned (s : State) (d : DState) : State := { s with dstate := d }

/-- `s` after a wait: no timer runs. -/
def State.waited (s : State) : State := { s with timer := none }

/-- `s` after a command or data phase of the display in which `rx` was received, `rest` being the replies left. -/
def State.phased (s : State) (dc : Bool) (rx : Bytes) (rest : List Reply) : State :=
  { s with dc := dc, work := { s.work with rx := rx }, env := { s.env with replies := rest } }

section
variable {i : Instr} {s t u : State} {ops : List Op} {made made' : List Event}

theorem State.take_amid (h : s.env.racing = []) : s.take i = s.fresh.amid i 0 [] := s.take_quiet i h

/-- The response ends an undisturbed request. -/
theorem State.conclude_amid (r : Response) (k : Nat) (h : Quiet s) : (s.amid i k made).conclude r = s.served i made r := by
  rw [State.conclude_quiet (s.amid i k made) r h]
  obtain ⟨hracing, hreset⟩ := h
  cases s with
  | mk phase dstate csDisp csAdc dc rst muxA muxEnN ledR ledG ledB blDuty timer fb reqPort respPort history work fbReads env =>
    cases env
    subst hracing hreset
    simp [State.respond, State.amid, State.served]

/-- A request refused by its checks makes no event of its own (R261, R262). -/
theorem State.reject_quiet (e : Status) (hi : i ≠ .dispInit) (hq : Quiet s) : s.reject i e = s.served i [] ⟨e, [], []⟩ := by
  have hbusy : (s.take i).phase = .busy i 0 := by rw [State.take_amid hq.1]; rfl
  rw [State.reject, State.raise, State.abortRule_other _ i 0 e hbusy hi, State.take_amid hq.1]
  exact State.conclude_amid _ 0 hq

namespace Reaches

theorem start (hq : Quiet s) (i : Instr) : Reaches s i [] s.fresh [] :=
  ⟨hq, 0, congrArg Ran.done (State.take_amid hq.1)⟩

/-- One more micro-operation, which is done. -/
theorem next {op : Op} (h : Reaches s i ops t made) (hu : Quiet u)
    (hop : ∀ k, op.run (t.amid i k made) = .done (u.amid i k made')) : Reaches s i (ops ++ [op]) u made' := by
  obtain ⟨k, hrun⟩ := h.run
  refine ⟨hu, k + 1, ?_⟩
  rw [runOps_append, hrun]
  have htick : (t.amid i k made).tick = t.amid i (k + 1) made := State.tick_quiet _ h.quiet.2
  exact runOps_done op [] _ _ h.quiet.2 (htick ▸ hop (k + 1))

theorem dstate (h : Reaches s i ops t made) (d : DState) : Reaches s i (ops ++ [Op.dstate d]) (t.turned d) made :=
  h.next h.quiet fun _ => rfl

theorem line (h : Reaches s i ops t made) (l : Line) (b : Bool) :
    Reaches s i (ops ++ [Op.line l b]) (t.drive l b) (made ++ [Event.line l b]) := by
  refine h.next ?_ fun k => ?_
  · cases l <;> exact h.quiet
  · cases l <;> simp [Op.run, State.setLine, State.drive, State.record, State.amid]

theorem duty (h : Reaches s i ops t made) (n : Nat) :
    Reaches s i (ops ++ [Op.duty n]) { t with blDuty := n } (made ++ [Event.bl n]) :=
  h.next h.quiet fun k => by simp [Op.run, State.record, State.amid]

/-- A wait is recorded when it is over, and leaves no timer running (R42, R281). -/
theorem wait (h : Reaches s i ops t made) (ms : Nat) :
    Reaches s i (ops ++ wait ms) t.waited (made ++ [Event.wait ms]) := by
  have harmed : Reaches s i (ops ++ [Op.arm ms]) { t with timer := some ms } made := h.next h.quiet fun _ => rfl
  have helapsed : Reaches s i (ops ++ [Op.arm ms] ++ [Op.elapse]) t.waited (made ++ [Event.wait ms]) :=
    harmed.next h.quiet fun k => by simp [Op.run, State.elapse, State.waited, State.record, State.amid]
  rwa [List.append_assoc] at helapsed

theorem pixels (h : Reaches s i ops t made) (color : U16) (pixels : List Nat) :
    Reaches s i (ops ++ pixels.map fun n => Op.pixel n color) { t with fb := Memory.fill t.fb color pixels } made := by
  induction pixels generalizing ops t with
  | nil => rwa [List.map_nil, List.append_nil]
  | cons n pixels ih =>
    have hpixel : Reaches s i (ops ++ [Op.pixel n color]) { t with fb := Memory.writeList t.fb (2 * n) (enc16 color) } made :=
      h.next h.quiet fun _ => rfl
    have hall := ih hpixel
    rwa [List.append_assoc] at hall

section
variable {cmd : Byte} {tx data given given' : Bytes} {rest : List Reply}

/-- A phase of the display whose transfer is answered (R145). -/
theorem phase {op : Op} (h : Reaches s i ops t made) (dc : Bool) (hfree : BusFree t) (hop : op.Sends t .disp tx)
    (hr : t.env.replies = .ok given :: rest) (hl : given.length = tx.length) :
    Reaches s i (ops ++ [Op.line .dc dc, .cs .disp true, op, .cs .disp false]) (t.phased dc given rest)
      (made ++ Event.line .dc dc :: windowEvents .disp tx given) := by
  obtain ⟨k, hrun⟩ := h.run
  refine ⟨h.quiet, k + 4, ?_⟩
  rw [runOps_append, hrun]
  refine (runOps_dcPhase (s := t.amid i k made) dc h.quiet.2 hfree hop hr hl).trans ?_
  simp [State.afterPhase, State.afterWindow, State.amid, State.phased, SeqPhase.next, hr]

theorem command (h : Reaches s i ops t made) (cmd : Byte) (hfree : BusFree t) (hr : t.env.replies = .ok given :: rest)
    (hl : given.length = 1) :
    Reaches s i (ops ++ sendCommand cmd []) (t.phased false given rest) (made ++ commandPhase cmd given) :=
  h.phase false hfree (Op.xfer_sends t .disp [cmd]) hr hl

/-- A command phase, then a data phase that sends what `op` sends (R145, R148). -/
theorem commandWith {op : Op} (h : Reaches s i ops t made) (cmd : Byte) (hfree : BusFree t)
    (hop : op.Sends (t.phased false given (.ok given' :: rest)) .disp tx)
    (hr : t.env.replies = .ok given :: .ok given' :: rest) (hl : given.length = 1) (hl' : given'.length = tx.length) :
    Reaches s i (ops ++ (sendCommand cmd [] ++ [Op.line .dc true, .cs .disp true, op, .cs .disp false]))
      (t.phased true given' rest) (made ++ commandEvents cmd tx given given') := by
  have hboth := (h.command cmd hfree hr hl).phase true hfree hop rfl hl'
  rwa [List.append_assoc, List.append_assoc] at hboth

theorem commandData (h : Reaches s i ops t made) (cmd : Byte) (hdata : data ≠ []) (hfree : BusFree t)
    (hr : t.env.replies = .ok given :: .ok given' :: rest) (hl : given.length = 1) (hl' : given'.length = data.length) :
    Reaches s i (ops ++ sendCommand cmd data) (t.phased true given' rest) (made ++ commandEvents cmd data given given') := by
  rw [sendCommand_data cmd data hdata]
  exact h.commandWith cmd hfree (Op.xfer_sends _ .disp data) hr hl hl'

end

/-- A request that ran to its end is served: its events lie between `REQ` and its response. -/
theorem exec_eq {r : Response} (h : Reaches s i (opsOf i) t made) (hl : i.layer = .request) (hp : precheck i s.dstate = none)
    (hfree : transfersOf i s.fb ≠ [] → BusFree s) (hr : ∀ k, answerOf i (t.amid i k made) = r) :
    exec i s = .next (t.served i made r) := by
  obtain ⟨k, hrun⟩ := h.run
  rw [exec_free i s hp hfree, s.enter_request i hl, hrun, Ran.finish, State.close, if_pos hl, hr,
    State.conclude_amid r k h.quiet]

end Reaches

end

end Sys2Proof.Machine
end

section
/-! SUPPORT. Instructions whose transfer fails (spec/40_transaction.md R135, R137, spec/60_exceptions.md R263, R266): they reach
their end for a failed transfer with both chip-selects deasserted. -/

namespace Sys2Proof.Machine

open Sys2Proof

/-- A micro-sequence that asks for a reply after some answered ones, and is given a failure, stops there. -/
theorem runOps_failed (ops : List Op) (s : State) (before : List Bytes) (rest : List Reply) (h : s.env.resetIn = none)
    (hr : s.env.replies = before.map Reply.ok ++ .fail :: rest) (hn : before.length < ops.countP Op.asks) :
    ∃ t, runOps ops s = .stop .bus t := by
  induction ops generalizing s before with
  | nil => exact absurd hn (Nat.not_lt_zero _)
  | cons op ops ih =>
    have htick : s.tick.env.resetIn = none := by simp [h]
    rw [List.countP_cons] at hn
    by_cases hasks : op.asks
    · rw [if_pos hasks] at hn
      cases before with
      | nil =>
        have hfail : ∀ d tx, ∃ t, s.tick.xfer d tx = .stop .bus t := fun d tx =>
          ⟨_, s.tick.xfer_fail d tx (s.tick.answer_listed d tx _ rest hr) (by simp [h])⟩
        obtain ⟨t, ht⟩ : ∃ t, op.run s.tick = .stop .bus t := by
          cases op with
          | xfer d tx => exact hfail d tx
          | stream => exact hfail .disp _
          | _ => exact absurd hasks Bool.false_ne_true
        exact ⟨t, by rw [runOps_cons op ops s (by simp [h]), ht]⟩
      | cons given before =>
        obtain ⟨t, hrun, ht⟩ := op.run_answered s.tick htick fun _ => ⟨given, _, hr⟩
        rw [runOps_done op ops s t h hrun]
        refine ih t before ht ?_ (Nat.lt_of_succ_lt_succ hn)
        rw [op.run_replies t hrun, if_pos hasks, State.tick_replies, hr]
        rfl
    · rw [if_neg hasks] at hn
      obtain ⟨t, hrun, ht⟩ := op.run_answered s.tick htick (absurd · hasks)
      rw [runOps_done op ops s t h hrun]
      refine ih t before ht ?_ hn
      rw [op.run_replies t hrun, if_neg hasks, State.tick_replies, hr]

@[simp] theorem State.enter_env (s : State) (i : Instr) : (s.enter i).env = s.env := by
  obtain ⟨port, made, work, m, reads, h⟩ := s.enter_frame i
  rw [h]

/-- An undisturbed instruction whose transfer fails ends as such, in the middle of it and with the bus released. -/
theorem exec_failed (i : Instr) (s : State) (before : List Bytes) (rest : List Reply) (hp : precheck i s.dstate = none)
    (hq : Quiet s) (hfree : BusFree s) (hn : before.length < (transfersOf i s.fb).length)
    (hr : s.env.replies = before.map Reply.ok ++ .fail :: rest) :
    ∃ t, exec i s = .next (t.abandon i) ∧ t.Runs i ∧ Quiet t ∧ BusFree t := by
  have henter := s.enter_runs i hq.2
  obtain ⟨t, hrun⟩ := runOps_failed (opsOf i) (s.enter i) before rest henter.undisturbed (by rw [s.enter_env, hr])
    (by rwa [opsOf_asks i s.fb])
  have hruns := runOps_runs (opsOf i) _ i henter
  have hwindow := runOps_windowed (opsOf i) _ none none
    (s.enter_disciplined i (s.opens_busFree.2 hfree)).opens (opsOf_window i)
  obtain ⟨made, hcoming⟩ := runOps_coming (opsOf i) (s.enter i) henter.undisturbed
  have hracing := hcoming.at_.racing
  rw [hrun] at hruns hwindow hracing
  refine ⟨t, ?_, hruns, ⟨?_, hruns.undisturbed⟩, t.opens_busFree.1 (Disciplined.opens hwindow)⟩
  · rw [exec_free i s hp fun _ => hfree, hrun, Ran.finish]
  · exact hracing.trans (by rw [s.enter_env, hq.1])

end Sys2Proof.Machine
end

section
/-! SUPPORT. The display unit's requests (spec/41_display.md): the events and the state that each leaves undisturbed. -/

namespace Sys2Proof.Machine

open Sys2Proof

/-! ### Power-up (R161, R165, R166) -/

/-- Settles O15: the panel's reset line goes low and high again, with a wait after each. -/
theorem dispResetPulsesAndWaits : Obligations.DispResetPulsesAndWaits := by
  intro s hq
  have hpulse := ((Reaches.start hq .dispReset).dstate .resetting).line .rst false |>.wait 50 |>.line .rst true |>.wait 50
  exact hpulse.exec_eq rfl rfl (absurd rfl) fun _ => rfl

/-- `s` in `DISP_INIT` between two commands: `DSTATE`, `DC`, the bytes last received and the replies left. -/
def State.powering (s : State) (d : DState) (dc : Bool) (rx : Bytes) (rest : List Reply) : State :=
  { s with dstate := d, dc := dc, timer := none, work := { rx := rx }, env := { s.env with replies := rest } }

/-- Settles O16: five commands, two of them with data, with their waits and the steps of `DSTATE` between them. -/
theorem dispInitRunsThePowerUpSequence : Obligations.DispInitRunsThePowerUpSequence := by
  intro s r1 r2 r3 r4 r5 r6 r7 rest hq hfree hd hr
  have hswreset : Reaches s .dispInit _ (s.powering .awakening false [r1] _) _ :=
    (Reaches.start hq .dispInit).command 0x01 hfree hr rfl |>.wait 150 |>.dstate .awakening
  have hslpout : Reaches s .dispInit _ (s.powering .colormode false [r2] _) _ :=
    hswreset.command 0x11 hfree rfl rfl |>.wait 10 |>.dstate .colormode
  have hcolmod : Reaches s .dispInit _ (s.powering .addrmode true [r4] _) _ :=
    hslpout.commandData (data := [0x55]) 0x3A nofun hfree rfl rfl rfl |>.dstate .addrmode
  have hmadctl : Reaches s .dispInit _ (s.powering .addrmode true [r6] _) _ :=
    hcolmod.commandData (data := [0x00]) 0x36 nofun hfree rfl rfl rfl
  have hdispon : Reaches s .dispInit _ (s.powering .on false [r7] rest) _ :=
    hmadctl.command 0x29 hfree rfl rfl |>.wait 100 |>.dstate .on
  have hused : s.env.replies.drop 7 = rest := by rw [hr]; rfl
  rw [State.afterReplies, hused]
  exact hdispon.exec_eq rfl (if_pos hd) (fun _ => hfree) fun _ => rfl

/-- Settles O17: the failed transfer leaves the block in the middle of `DISP_INIT` with the bus released, where the abort rule
sets `DSTATE` before the response. -/
theorem failedInitIsUninit : Obligations.FailedInitIsUninit := by
  intro s before rest hq hfree hd hn hr
  obtain ⟨t, hexec, ⟨⟨k, hk⟩, -⟩, hqt, hfreet⟩ := exec_failed .dispInit s before rest (if_pos hd) hq hfree hn hr
  have habort : t.abortRule .bus = { t with dstate := .uninit } := by simp [State.abortRule, hk]
  have hend : t.abandon .dispInit = ({ t with dstate := .uninit } : State).respond (bare .bus) :=
    (congrArg (State.conclude · (bare .bus)) habort).trans (State.conclude_quiet _ _ hqt)
  rw [hend] at hexec
  exact ⟨_, hexec, rfl, rfl, rfl, hfreet⟩

/-! ### The window and the frame (R170 to R176) -/

theorem validWindow_iff (x0 y0 x1 y1 : U16) : validWindow x0 y0 x1 y1 = true ↔
    x0.toNat ≤ x1.toNat ∧ x1.toNat < 320 ∧ y0.toNat ≤ y1.toNat ∧ y1.toNat < 240 := by
  simp only [validWindow, axisOk, Bool.and_eq_true, decide_eq_true_eq, and_assoc]
  rfl

theorem precheck_setWindow_on (x0 y0 x1 y1 : U16) :
    precheck (.dispSetWindow x0 y0 x1 y1) .on = if validWindow x0 y0 x1 y1 then none else some .range := rfl

/-- `EmitWindow` with its four transfers answered. -/
theorem Reaches.window {s t : State} {i : Instr} {ops : List Op} {made : List Event} {r1 r2 r3 r4 : Bytes} {rest : List Reply}
    (h : Reaches s i ops t made) (x0 y0 x1 y1 : U16) (hfree : BusFree t)
    (hr : t.env.replies = .ok r1 :: .ok r2 :: .ok r3 :: .ok r4 :: rest)
    (h1 : r1.length = 1) (h2 : r2.length = 4) (h3 : r3.length = 1) (h4 : r4.length = 4) :
    Reaches s i (ops ++ emitWindow x0 y0 x1 y1) (t.phased true r4 rest)
      (made ++ windowProtocol x0 y0 x1 y1 r1 r2 r3 r4) := by
  have hboth := (h.commandData (data := windowBytes x0 x1) 0x2A nofun hfree hr h1 h2).commandData
    (data := windowBytes y0 y1) 0x2B nofun hfree rfl h3 h4
  rwa [List.append_assoc, List.append_assoc] at hboth

/-- Settles O18: in `ON` a valid window is sent by `EmitWindow`. -/
theorem setWindowSendsBothAddressSets : Obligations.SetWindowSendsBothAddressSets := by
  intro s x0 y0 x1 y1 r1 r3 r2 r4 rest hq hfree hd hx hx1 hy hy1 h2 h4 hr
  have hp : precheck (.dispSetWindow x0 y0 x1 y1) s.dstate = none := by
    rw [hd, precheck_setWindow_on, if_pos ((validWindow_iff ..).2 ⟨hx, hx1, hy, hy1⟩)]
  have hwindow := (Reaches.start hq (.dispSetWindow x0 y0 x1 y1)).window x0 y0 x1 y1 hfree hr rfl h2 rfl h4
  have hused : s.env.replies.drop 4 = rest := by rw [hr]; rfl
  rw [State.afterReplies, hused]
  exact hwindow.exec_eq rfl hp (fun _ => hfree) fun _ => rfl

/-- Settles O19: the check of `DSTATE` comes before that of the window. -/
theorem setWindowRefusesStateThenRange : Obligations.SetWindowRefusesStateThenRange := by
  intro s x0 y0 x1 y1 hq
  have hrefused : ∀ e, precheck (.dispSetWindow x0 y0 x1 y1) s.dstate = some e →
      exec (.dispSetWindow x0 y0 x1 y1) s = .next (s.served (.dispSetWindow x0 y0 x1 y1) [] ⟨e, [], []⟩) := by
    intro e he
    rw [← State.reject_quiet e Instr.noConfusion hq]
    simp only [exec, execDispSetWindow, State.busRequest, he]
  refine ⟨fun hd => hrefused .state (if_pos hd), fun hd hw => hrefused .range ?_⟩
  rw [hd, precheck_setWindow_on, if_neg (mt (validWindow_iff ..).1 hw)]

/-- Settles O20: the last column is 0x013F and the last row 0x00EF. -/
theorem fullPanelWindowBytes : Obligations.FullPanelWindowBytes :=
  ⟨rfl, rfl, rfl⟩

/-- Settles O21: the full window, then the memory write, whose data phase streams the frame buffer. -/
theorem writeFrameStreamsTheBuffer : Obligations.WriteFrameStreamsTheBuffer := by
  intro s r1 r3 r5 r2 r4 r6 rest hq hfree hd h2 h4 h6 hr
  have hwindow := (Reaches.start hq .dispWriteFrame).window 0 0 319 239 hfree hr rfl h2 rfl h4
  have hframe := hwindow.commandWith 0x2C hfree (Op.stream_sends _ hq.1) rfl rfl
    (h6.trans (Memory.length_readList s.fb 0 _).symm)
  have hused : s.env.replies.drop 6 = rest := by rw [hr]; rfl
  rw [State.afterReplies, hused]
  exact hframe.exec_eq rfl (if_pos hd) (fun _ => hfree) fun _ => rfl

/-- Settles O22: neither request sets `DSTATE` or the frame buffer, and neither has an abort rule. -/
theorem failedFrameKeepsBufferAndOn : Obligations.FailedFrameKeepsBufferAndOn := by
  intro s i before rest hi hq hfree hd hn hr
  obtain ⟨hp, hinit, hl, hadc, hdstate, hfb⟩ : precheck i s.dstate = none ∧ i ≠ .dispInit ∧ i.layer = .request ∧
      i ≠ .adcSelftest ∧ .dstate ∉ elementsOf i ∧ .fb ∉ elementsOf i := by
    obtain rfl | ⟨x0, y0, x1, y1, rfl, hw⟩ := hi
    · exact ⟨if_pos hd, nofun, rfl, nofun, by decide, by decide⟩
    · exact ⟨by rw [hd, precheck_setWindow_on, if_pos hw], nofun, rfl, nofun, by simp [elementsOf], by simp [elementsOf]⟩
  obtain ⟨t, hexec, ⟨⟨k, hk⟩, -⟩, hqt, -⟩ := exec_failed i s before rest hp hq hfree hn hr
  have hend : t.abandon i = t.respond (bare .bus) := by
    rw [State.abandon, if_neg (not_not.2 hl), if_neg hadc, State.raise, t.abortRule_other i k .bus hk hinit,
      State.conclude_quiet _ _ hqt]
  refine ⟨_, hexec, ?_, ?_, by simp [hend, bare], by simp [hend]⟩
  · exact ((exec_element i s _ .dstate hq.2 hexec hdstate).trans (s.enter_element i .dstate nofun nofun)).trans hd
  · refine (exec_element i s _ .fb hq.2 hexec hfb).trans ((s.enter_fb i).trans ?_)
    rw [hq.1]
    rfl

/-! ### Clear (R177) -/

/-- Pixels lie in the buffer, so filling them leaves every offset beyond it alone. -/
theorem Memory.read_fill_beyond (m : Memory) (color : U16) (pixels : List Nat) (a : Nat) (hm : Memory.wf m)
    (hpixels : ∀ i ∈ pixels, i < Config.pixels) (ha : Config.fbSize ≤ a) :
    Memory.read (Memory.fill m color pixels) a = Memory.read m a := by
  induction pixels generalizing m with
  | nil => rfl
  | cons i pixels ih =>
    have hi : i < 76800 := hpixels i List.mem_cons_self
    have hlen : (enc16 color).length = 2 := rfl
    rw [fbSize_eq] at ha
    exact (ih _ (Memory.wf_writeList m _ _ hm) fun j hj => hpixels j (List.mem_cons_of_mem i hj)).trans
      (Memory.read_writeList_other m _ _ a hm (by omega))

/-- Settles O23: the buffer is filled at each pixel in turn, and later pixels leave the earlier ones alone. -/
theorem clearFillsEveryPixel : Obligations.ClearFillsEveryPixel := by
  intro s color hq hwf
  have hclear := (Reaches.start hq (.dispClear color)).pixels color (List.range' 0 Config.pixels)
  have hpixels : ∀ i, i ∈ List.range' 0 Config.pixels ↔ i < Config.pixels := by simp [List.mem_range'_1]
  refine ⟨Memory.fill s.fb color (List.range' 0 Config.pixels), ?_, Memory.wf_fill _ _ _ hwf, fun i hi => ?_, fun a ha => ?_⟩
  · exact hclear.exec_eq rfl rfl (absurd rfl) fun _ => rfl
  · exact Memory.holds_fill s.fb color _ i hwf hi (.inl ((hpixels i).2 hi))
  · exact Memory.read_fill_beyond s.fb color _ a hwf (fun i => (hpixels i).1) (fbSize_eq ▸ ha)

/-! ### Backlight (R179) -/

/-- Settles O24: one micro-operation sets the duty. -/
theorem backlightSetsClampedDuty : Obligations.BacklightSetsClampedDuty := by
  intro s frac hq
  have hduty := (Reaches.start hq (.dispSetBacklight frac)).duty (dutyOf Config.pwmMax frac)
  exact hduty.exec_eq rfl rfl (absurd rfl) fun _ => rfl

theorem clampFraction_le (frac : BitVec 32) : clampFraction frac ≤ 65536 := by
  unfold clampFraction
  omega

theorem clampFraction_of_nonpos (frac : BitVec 32) (h : frac.toInt ≤ 0) : clampFraction frac = 0 := by
  unfold clampFraction
  omega

theorem clampFraction_of_one_le (frac : BitVec 32) (h : 65536 ≤ frac.toInt) : clampFraction frac = 65536 := by
  unfold clampFraction
  omega

theorem dutyOf_eq_zero_iff (p : Nat) (frac : BitVec 32) : dutyOf p frac = 0 ↔ clampFraction frac * p < 65536 := by
  simp [dutyOf, Nat.div_eq_zero_iff]

/-- Only the whole fraction gives the whole duty: a smaller one loses at least a part of a count. -/
theorem dutyOf_eq_max_iff (p : Nat) (frac : BitVec 32) (hp : 0 < p) : dutyOf p frac = p ↔ clampFraction frac = 65536 := by
  constructor
  · intro h
    by_contra hne
    have hlt : clampFraction frac < 65536 := Nat.lt_of_le_of_ne (clampFraction_le frac) hne
    have hduty : dutyOf p frac < p := Nat.div_lt_of_lt_mul (Nat.mul_lt_mul_of_pos_right hlt hp)
    omega
  · intro h
    rw [dutyOf, h]
    exact Nat.mul_div_cancel_left p (by decide)

/-- Settles O25: the laws of the clamped fraction and of the division. -/
theorem dutyLaws : Obligations.DutyLaws := by
  intro p frac hp
  refine ⟨dutyOf_le p frac, dutyOf_eq_zero_iff p frac, dutyOf_eq_max_iff p frac hp, fun h => ?_, fun h => ?_⟩
  · rw [dutyOf_eq_zero_iff, clampFraction_of_nonpos frac h, Nat.zero_mul]
    decide
  · exact (dutyOf_eq_max_iff p frac hp).2 (clampFraction_of_one_le frac h)

/-! ### Buttons (R180) -/

/-- `p` after the first `n` samples of the raw levels. -/
def pressedBits (raw : Nat → Bool) (n : Nat) : Byte :=
  match n with
  | 0 => 0
  | n + 1 => withBit 8 (pressedBits raw n) n (!raw n)

/-- Four samples give the byte of the response (R112). -/
theorem pressedBits_four (raw : Nat → Bool) : pressedBits raw 4 = pressedByte raw := by
  simp only [pressedBits, pressedByte]
  cases raw 0 <;> cases raw 1 <;> cases raw 2 <;> cases raw 3 <;> rfl

/-- The raw level of sample `n` of a `BTN_READ` at `s`: the listed one, else the free one of the history after `REQ` (R34). -/
def State.buttonRaw (s : State) (n : Nat) : Bool :=
  s.env.buttons.getD n (Config.buttonLevel (s.history ++ [.req (encode .btnRead)]) n)

/-- `s` after the first `n` samples: their levels used up, their inverses in `p`. -/
def State.sampled (s : State) (raw : Nat → Bool) (n : Nat) : State :=
  { s with
    work := { s.work with p := pressedBits raw n }
    env := { s.env with buttons := s.env.buttons.drop n } }

theorem State.rawButton_eq (s : State) (n : Nat) :
    s.rawButton n = s.env.buttons.headD (Config.buttonLevel s.history n) := by
  unfold State.rawButton
  cases s.env.buttons <;> rfl

theorem Reaches.button {s t : State} {i : Instr} {ops : List Op} {made : List Event} {raw : Nat → Bool} {n : Nat}
    (h : Reaches s i ops (t.sampled raw n) made)
    (hraw : raw n = t.env.buttons.getD n (Config.buttonLevel (t.history ++ .req (encode i) :: made) n)) :
    Reaches s i (ops ++ [Op.button n]) (t.sampled raw (n + 1)) made := by
  refine h.next h.quiet fun k => ?_
  have hlevel : ((t.sampled raw n).amid i k made).rawButton n = raw n := by
    rw [State.rawButton_eq, hraw]
    simp [State.sampled, State.amid, List.headD_eq_head?_getD, List.getD_eq_getElem?_getD]
  rw [Op.run, State.sampleButton, hlevel]
  simp [State.sampled, State.amid, pressedBits]

/-- Settles O26: the raw levels are the listed ones where there are any, else the free ones of the history after `REQ`. -/
theorem buttonsAreInverted : Obligations.ButtonsAreInverted := by
  intro s hq
  have hstart : Reaches s .btnRead [] (s.fresh.sampled s.buttonRaw 0) [] := .start hq .btnRead
  have hsamples := hstart.button rfl |>.button rfl |>.button rfl |>.button rfl
  refine ⟨s.buttonRaw, fun n b _ hb => by simp [State.buttonRaw, List.getD_eq_getElem?_getD, hb], ?_⟩
  rw [← pressedBits_four]
  exact hsamples.exec_eq rfl rfl (absurd rfl) fun _ => rfl

/-! ### Indicator (R183) -/

/-- Settles O27: three lines, each driven once. -/
theorem ledWriteDrivesThreeLines : Obligations.LedWriteDrivesThreeLines := by
  intro s rgb hq
  have hlines := (Reaches.start hq (.ledWrite rgb)).line .ledR (rgb.getLsbD 0) |>.line .ledG (rgb.getLsbD 1)
    |>.line .ledB (rgb.getLsbD 2)
  exact hlines.exec_eq rfl rfl (absurd rfl) fun _ => rfl

end Sys2Proof.Machine
end

section
/-! SUPPORT. The ADC unit's requests (spec/42_adc.md): the values of R202 to R204, and the events, samples and state that each
request leaves undisturbed. -/

namespace Sys2Proof.Machine

open Sys2Proof

/-! ### The raw value, the voltage and the sample (R202 to R204) -/

theorem decodeRaw_toNat (r0 r1 r2 : Byte) : (decodeRaw [r0, r1, r2]).toNat = r1.toNat % 16 * 256 + r2.toNat := by
  have hraw : decodeRaw [r0, r1, r2] = r1.extractLsb' 0 4 ++ r2 := rfl
  rw [hraw, BitVec.toNat_append, ← Nat.shiftLeft_add_eq_or_of_lt r2.isLt, Nat.shiftLeft_eq]
  simp

/-- Settles O32: the value is that of its twelve bits. -/
theorem decodeRawTakesTwelveBits : Obligations.DecodeRawTakesTwelveBits := by
  intro r0 r1 r2
  refine ⟨decodeRaw_toNat r0 r1 r2, Nat.le_of_lt_succ (decodeRaw [r0, r1, r2]).isLt, fun r0' r1' h => ?_⟩
  apply BitVec.eq_of_toNat_eq
  rw [decodeRaw_toNat, decodeRaw_toNat, h]

theorem vref_pos : 0 < Config.vref :=
  div_pos (Nat.cast_pos.2 (Nat.succ_pos _)) (Nat.cast_pos.2 (Nat.succ_pos _))

theorem voltage_strictMono {q : Rat} (hq : 0 < q) {a b : BitVec 12} (h : a.toNat < b.toNat) : voltage q a < voltage q b :=
  div_lt_div_of_pos_right (mul_lt_mul_of_pos_right (Nat.cast_lt.2 h) hq) (by norm_num)

theorem voltage_mono {q : Rat} (hq : 0 < q) {a b : BitVec 12} (h : a.toNat ≤ b.toNat) : voltage q a ≤ voltage q b :=
  h.lt_or_eq.elim (fun hlt => (voltage_strictMono hq hlt).le) fun heq => by rw [BitVec.eq_of_toNat_eq heq]

theorem voltage_zero (q : Rat) : voltage q 0 = 0 := by
  simp [voltage]

theorem voltage_full (q : Rat) : voltage q 4095 = q :=
  mul_div_cancel_left₀ q (show (4095 : Rat) ≠ 0 by norm_num)

/-- Settles O33: the voltage rises with the raw value from 0 at the least one to `VREF` at the greatest. -/
theorem voltageLaws : Obligations.VoltageLaws := by
  refine ⟨vref_pos, fun q hq =>
    ⟨fun raw => ⟨rfl, ?_, ?_⟩, voltage_zero q, voltage_full q, fun _ _ => voltage_strictMono hq⟩⟩
  · exact (voltage_zero q).ge.trans (voltage_mono hq (Nat.zero_le _))
  · exact (voltage_mono hq (Nat.le_of_lt_succ raw.isLt)).trans (voltage_full q).le

/-- The record of a sample is its channel, the low nibble of byte 1 and byte 2 (R113, R202). -/
theorem sampleRecord_sampleOf (ch r0 r1 r2 : Byte) : sampleRecord (sampleOf ch [r0, r1, r2]) = [ch, r1 &&& 0x0F, r2] := by
  have hhigh : (decodeRaw [r0, r1, r2]).extractLsb' 8 4 = r1.extractLsb' 0 4 := BitVec.extractLsb'_append_eq_left
  have hlow : (decodeRaw [r0, r1, r2]).extractLsb' 0 8 = r2 := BitVec.extractLsb'_append_eq_right
  have hnibble : (r1.extractLsb' 0 4).setWidth 8 = r1 &&& 0x0F := by
    apply BitVec.eq_of_toNat_eq
    have hfits : r1.toNat % 16 < 256 := by omega
    simp [Nat.and_two_pow_sub_one_eq_mod _ 4, Nat.mod_eq_of_lt hfits]
  rw [sampleRecord, sampleOf, hhigh, hlow, hnibble]

theorem sweepSamples_getElem? (n : Nat) (rxs : List Bytes) (k : Nat) :
    (sweepSamples n rxs)[k]? = rxs[k]?.map (sampleOf (BitVec.ofNat 8 (n + k))) := by
  induction rxs generalizing n k with
  | nil => rfl
  | cons rx rxs ih =>
    cases k with
    | zero => rfl
    | succ k => simpa [sweepSamples, Nat.add_assoc, Nat.add_comm 1 k] using ih (n + 1) k

theorem sweepSamples_channels (n : Nat) (rxs : List Bytes) :
    (sweepSamples n rxs).map Sample.channel = (List.range' n rxs.length).map (BitVec.ofNat 8) := by
  induction rxs generalizing n with
  | nil => rfl
  | cons rx rxs ih => exact congrArg (BitVec.ofNat 8 n :: ·) (ih (n + 1))

/-! ### Transactions inside a request -/

/-- `s` with the variables `w` of the running request, `replies` being the bus replies left. -/
def State.holding (s : State) (w : Work) (replies : List Reply) : State :=
  { s with work := w, env := { s.env with replies := replies } }

/-- `s` after a window whose transfer of `tx` failed: three micro-operations, one reply used up. -/
def State.afterFailedWindow (s : State) (d : Device) (tx : Bytes) : State :=
  { s with
    phase := s.phase.next.next.next
    history := s.history ++ failedWindow d tx
    env := { s.env with replies := s.env.replies.tail } }

section
variable {i : Instr} {s t : State} {ops : List Op} {made : List Event} {w : Work} {given : Bytes} {rest : List Reply}

theorem State.afterReplies_one {r : Reply} (hr : s.env.replies = r :: rest) : s.afterReplies 1 = s.holding s.work rest := by
  rw [State.afterReplies, hr]
  rfl

theorem samplesResponse_of_out {out : List Sample} (h : s.work.out = out) :
    samplesResponse s = ⟨.ok, out.flatMap sampleRecord, out⟩ := by
  rw [samplesResponse, h]

theorem Reaches.start_holding (hq : Quiet s) (i : Instr) (hr : s.env.replies = rest) :
    Reaches s i [] (s.holding {} rest) [] := by
  subst hr
  exact .start hq i

theorem Reaches.txn (h : Reaches s i ops (t.holding w (.ok given :: rest)) made) (d : Device) (tx : Bytes) (hfree : BusFree t)
    (hl : given.length = tx.length) :
    Reaches s i (ops ++ txn d [tx]) (t.holding { w with rx := given } rest) (made ++ windowEvents d tx given) := by
  obtain ⟨k, hrun⟩ := h.run
  refine ⟨h.quiet, k + 3, ?_⟩
  rw [runOps_append, hrun]
  refine (runOps_window (s := (t.holding w (.ok given :: rest)).amid i k made) h.quiet.2 hfree
    (Op.xfer_sends _ d tx) rfl hl).trans ?_
  simp [State.afterWindow, State.amid, State.holding, SeqPhase.next]

/-- One channel read: its window, and its sample among those gathered (R205). -/
theorem Reaches.readChannel (h : Reaches s i ops (t.holding w (.ok given :: rest)) made) (ch : Byte) (hfree : BusFree t)
    (hl : given.length = 3) :
    Reaches s i (ops ++ readChannel ch) (t.holding { w with ch := ch, rx := given, out := w.out ++ [sampleOf ch given] } rest)
      (made ++ windowEvents .adc (adcFrame ch) given) := by
  have hchannel : Reaches s i (ops ++ [Op.channel ch]) (t.holding { w with ch := ch } (.ok given :: rest)) made :=
    h.next h.quiet fun _ => rfl
  have hwindow := hchannel.txn .adc (adcFrame ch) hfree hl
  have hsample := hwindow.next (op := .sample)
    (u := t.holding { w with ch := ch, rx := given, out := w.out ++ [sampleOf ch given] } rest) hwindow.quiet fun _ => rfl
  simpa [Machine.readChannel, adcExchange] using hsample

/-- Channels from `n` on, one for each reply, read in turn (R211). -/
theorem Reaches.readChannels (rxs : List Bytes) (n : Nat) (h : Reaches s i ops (t.holding w (rxs.map .ok ++ rest)) made)
    (hfree : BusFree t) (hl : ∀ rx ∈ rxs, rx.length = 3) :
    ∃ w', w'.out = w.out ++ sweepSamples n rxs ∧
      Reaches s i (ops ++ (List.range' n rxs.length).flatMap fun k => Machine.readChannel (BitVec.ofNat 8 k))
        (t.holding w' rest) (made ++ sweepEvents n rxs) := by
  induction rxs generalizing n ops w made with
  | nil => exact ⟨w, by simp [sweepSamples], by simpa [sweepEvents] using h⟩
  | cons rx rxs ih =>
    obtain ⟨hrx, hrxs⟩ := List.forall_mem_cons.1 hl
    obtain ⟨w', hout, hall⟩ := ih (n + 1) (h.readChannel (BitVec.ofNat 8 n) hfree hrx) hrxs
    refine ⟨w', by simpa [sweepSamples] using hout, ?_⟩
    simpa [sweepEvents, List.range'_succ] using hall

/-- A window whose one transfer fails is recorded, and leaves the chip-select deasserted (R135). -/
theorem runOps_failedWindow (d : Device) (tx : Bytes) (hq : s.env.resetIn = none) (hfree : BusFree s)
    (hr : s.env.replies = .fail :: rest) : runOps (txn d [tx]) s = .stop .bus (s.afterFailedWindow d tx) := by
  have hopen : runOps (txn d [tx]) s = runOps [.xfer d tx, .cs d false] (s.tick.setCs d true) :=
    runOps_done _ _ s _ hq rfl
  have hfail := State.xfer_fail (s.tick.setCs d true).tick d tx (State.answer_listed _ d tx _ rest (by simpa using hr))
    (by simp [hq])
  rw [hopen, runOps_cons _ _ _ (by simp [hq]), Op.run, hfail, s.tick_quiet hq, State.tick_quiet _ (by simp [hq]),
    State.tick_quiet _ (by simp [hq])]
  obtain ⟨hdisp, hadc⟩ := hfree
  cases d <;> simp [State.setCs, State.select, State.record, State.afterFailedWindow, failedWindow, hdisp, hadc]

/-- A window that fails stops the request in the middle of it. -/
theorem Reaches.txn_fails (h : Reaches s i ops (t.holding w (.fail :: rest)) made) (d : Device) (tx : Bytes) (hfree : BusFree t) :
    ∃ k, runOps (ops ++ Machine.txn d [tx]) (s.take i) =
      .stop .bus ((t.holding w rest).amid i k (made ++ failedWindow d tx)) := by
  obtain ⟨k, hrun⟩ := h.run
  refine ⟨k + 3, ?_⟩
  rw [runOps_append, hrun]
  refine (runOps_failedWindow (s := (t.holding w (.fail :: rest)).amid i k made) d tx h.quiet.2 hfree rfl).trans ?_
  simp [State.afterFailedWindow, State.amid, State.holding, SeqPhase.next]

end

/-! ### The requests (R205, R211, R215) -/

/-- A single read of a channel in its domain, whatever three bytes it receives. -/
theorem exec_adcRead {s : State} {ch : Byte} {rx : Bytes} {rest : List Reply} (hq : Quiet s) (hfree : BusFree s)
    (hch : ch.toNat ≤ 7) (hl : rx.length = 3) (hr : s.env.replies = .ok rx :: rest) :
    exec (.adcRead ch) s = .next ((s.afterReplies 1).served (.adcRead ch) (windowEvents .adc (adcFrame ch) rx)
      ⟨.ok, [sampleOf ch rx].flatMap sampleRecord, [sampleOf ch rx]⟩) := by
  have hread := (Reaches.start_holding hq (.adcRead ch) hr).readChannel ch hfree hl
  have hp : precheck (.adcRead ch) s.dstate = none := if_pos (decide_eq_true hch)
  rw [State.afterReplies_one hr]
  exact hread.exec_eq rfl hp (fun _ => hfree) fun _ => samplesResponse_of_out rfl

/-- Settles O28: the record of the one sample is the payload. -/
theorem adcReadAnswersOneSample : Obligations.AdcReadAnswersOneSample := by
  intro s ch r0 r1 r2 rest hq hfree hch hr
  rw [exec_adcRead hq hfree hch rfl hr, List.flatMap_singleton, sampleRecord_sampleOf]
  rfl

/-- Settles O29: the sweep reads the channels from 0 on, one for each of the eight replies. -/
theorem adcReadAllSweepsInOrder : Obligations.AdcReadAllSweepsInOrder := by
  intro s rxs rest hq hfree h8 hl hr
  obtain ⟨w, hout, hsweep⟩ := (Reaches.start_holding hq .adcReadAll hr).readChannels rxs 0 hfree hl
  rw [h8] at hsweep
  have hused : s.env.replies.drop 8 = rest := by rw [hr, ← h8]; simp
  rw [State.afterReplies, hused]
  exact hsweep.exec_eq rfl rfl (fun _ => hfree) fun _ => samplesResponse_of_out hout

/-- Settles O30: sample `k` of the sweep is made of channel `k` and reply `k`, and so is that of the single read. -/
theorem sweepAgreesWithSingleReads : Obligations.SweepAgreesWithSingleReads := by
  intro s t rxs rest hq hfree h8 hl hr ht
  rw [adcReadAllSweepsInOrder s rxs rest hq hfree h8 hl hr] at ht
  obtain rfl := Host.Outcome.next.inj ht
  have hchannels := sweepSamples_channels 0 rxs
  rw [h8] at hchannels
  refine ⟨_, rfl, by simpa using congrArg List.length hchannels, hchannels, ?_⟩
  intro k s' t' rx rest' hk hrx hq' hfree' hr' ht'
  have hch : (BitVec.ofNat 8 k).toNat ≤ 7 := by rw [BitVec.toNat_ofNat]; omega
  rw [exec_adcRead hq' hfree' hch (hl rx (List.mem_of_getElem? hrx)) hr'] at ht'
  obtain rfl := Host.Outcome.next.inj ht'
  exact ⟨_, rfl, by simp [sweepSamples_getElem?, hrx]⟩

/-- Settles O31: the answer of a pair is its verdict, that of a failed transfer the verdict 0x00. -/
theorem selftestVerdict : Obligations.SelftestVerdict := by
  intro s rest hq hfree
  refine ⟨fun r0 r1 hr => ?_, fun hr => ?_⟩ <;> rw [State.afterReplies_one hr]
  · have hpair := (Reaches.start_holding hq .adcSelftest hr).txn .adc selftestFrame hfree rfl
    exact hpair.exec_eq rfl rfl (fun _ => hfree) fun _ => by simp [answerOf, verdict, State.holding, State.amid]
  · obtain ⟨k, hrun⟩ := (Reaches.start_holding hq .adcSelftest hr).txn_fails .adc selftestFrame hfree
    refine (exec_free .adcSelftest s rfl fun _ => hfree).trans (congrArg Host.Outcome.next ?_)
    exact (congrArg (Ran.finish · _ _) hrun).trans (State.conclude_amid (verdict false) k hq)

/-! ### The frames by themselves (R200, R202, R215, R241) -/

theorem adcFrame_eq (ch : Byte) (h : ch.toNat < 8) :
    adcFrame ch = [BitVec.ofNat 8 (6 + ch.toNat / 4), BitVec.ofNat 8 (ch.toNat % 4 * 64), 0x00] := by
  obtain ⟨n, hn, rfl⟩ : ∃ n < 8, ch = BitVec.ofNat 8 n := ⟨ch.toNat, h, by simp⟩
  interval_cases n <;> rfl

section
variable {s : State} {given : Bytes} {rest : List Reply}

/-- A wire frame whose micro-sequence runs to its end undisturbed. -/
theorem State.issue_quiet {i : Instr} {ops : List Op} {t : State} (hq : Quiet s)
    (hrun : runOps ops { s with phase := .busy i 0 } = .done t) (ht : Quiet t) : s.issue i ops = { t with phase := .idle } :=
  State.issue_done ((congrArg (runOps ops) (s.begin_quiet i hq.1)).trans hrun) ht

/-- A wire frame that is one window leaves its events, the bytes received and one reply less. -/
theorem State.issue_window {i : Instr} {ops : List Op} {u : State} {p : SeqPhase} {d : Device} {tx rx : Bytes} (hq : Quiet s)
    (hrun : runOps ops { s with phase := .busy i 0 } = .done (({ u with phase := p } : State).afterWindow d tx rx))
    (hu : Quiet u) : s.issue i ops = (u.afterReplies 1).issued (windowEvents d tx rx) rx := by
  rw [State.issue_quiet hq hrun hu]
  simp [State.afterWindow, State.issued, State.afterReplies]

/-- The exchange of a channel is a window, after the channel is taken note of. -/
theorem runOps_adcExchange (ch : Byte) (hq : s.env.resetIn = none) (hfree : BusFree s) (hr : s.env.replies = .ok given :: rest)
    (hl : given.length = 3) :
    runOps (adcExchange ch) s = .done (({ s with phase := s.phase.next, work := { s.work with ch := ch } } : State).afterWindow
      .adc (adcFrame ch) given) := by
  rw [adcExchange, runOps_done _ _ s _ hq rfl, s.tick_quiet hq]
  exact runOps_window hq hfree (Op.xfer_sends _ .adc (adcFrame ch)) hr hl

theorem runOps_sample (hq : s.env.resetIn = none) :
    runOps [.sample] s = .done { s.takeSample with phase := s.phase.next } := by
  rw [runOps_done _ _ s _ hq rfl, s.tick_quiet hq, runOps_nil]
  rfl

/-- The decode by itself takes a sample and makes no event (R202). -/
theorem State.issue_sample (i : Instr) (hq : Quiet s) : s.issue i [.sample] = { s.takeSample with phase := .idle } := by
  rw [State.issue_quiet hq (runOps_sample (s := { s with phase := .busy i 0 }) hq.2) hq]
  rfl

theorem runOps_line (l : Line) (b : Bool) (ops : List Op) (hq : s.env.resetIn = none) :
    runOps (.line l b :: ops) s =
      runOps ops { s.drive l b with phase := s.phase.next, history := s.history ++ [.line l b] } := by
  rw [runOps_done _ _ s _ hq rfl, s.tick_quiet hq]
  cases l <;> rfl

/-- The four lines of a channel put it on the address (R241). -/
theorem runOps_muxSequence (ch : Byte) (hq : s.env.resetIn = none) :
    runOps (muxSequence ch) s = .done
      { s with
        phase := s.phase.next.next.next.next
        muxA := ch.setWidth 4
        history := s.history ++ [.line .muxA0 (ch.getLsbD 0), .line .muxA1 (ch.getLsbD 1), .line .muxA2 (ch.getLsbD 2),
          .line .muxA3 (ch.getLsbD 3)] } := by
  rw [muxSequence, runOps_line _ _ _ hq, runOps_line _ _ _ (by exact hq), runOps_line _ _ _ (by exact hq),
    runOps_line _ _ _ (by exact hq), runOps_nil, ← address_of_lines s.muxA ch]
  simp [State.drive, channelBit]

end

/-- Settles O41: each frame is one window. -/
theorem adcFramesExchange : Obligations.AdcFramesExchange := by
  refine ⟨fun s ch r0 r1 r2 rest hch hfree hq hr => ?_, fun s r0 r1 rest hfree hq hr => ?_⟩
  · have hrun := runOps_adcExchange (s := { s with phase := .busy (.adcFrame ch) 0 }) ch hq.2 hfree hr rfl
    rw [← adcFrame_eq ch hch]
    exact (s.guarded_free _ hfree).trans
      (congrArg _ (State.issue_window (u := { s with work := { s.work with ch := ch } }) hq hrun hq))
  · have hrun := runOps_window (s := { s with phase := .busy .adcSelftestFrame 0 }) hq.2 hfree
      (Op.xfer_sends _ .adc selftestFrame) hr rfl
    exact (s.guarded_free _ hfree).trans (congrArg _ (State.issue_window (u := s) hq hrun hq))

/-- Settles O42: the one takes a sample of the bytes it is given, the other drives the four lines. -/
theorem responseAndAddressPatterns : Obligations.ResponseAndAddressPatterns := by
  refine ⟨fun s r0 r1 r2 hq => congrArg Host.Outcome.next ?_, fun s ch hq _ => congrArg Host.Outcome.next ?_⟩
  · refine (State.issue_sample (s := { s with work := { s.work with rx := [r0, r1, r2] } }) _ hq).trans ?_
    simp [State.issued, State.takeSample, sampleOf]
  · exact State.issue_quiet hq (runOps_muxSequence (s := { s with phase := .busy (.muxAddress ch) 0 }) ch hq.2) hq

end Sys2Proof.Machine
end

section
/-! SUPPORT. The multiplexer's requests (spec/43_mux.md): what the four address lines and the enable line leave of an undisturbed
request. -/

namespace Sys2Proof.Machine

open Sys2Proof

section
variable {s t : State} {i : Instr} {ops : List Op} {made : List Event}

/-- The four lines of a channel put it on the address, whatever the address was (R241, R242). -/
theorem Reaches.muxSequence (h : Reaches s i ops t made) (ch : Byte) :
    Reaches s i (ops ++ muxSequence ch) { t with muxA := ch.setWidth 4 }
      (made ++ [.line .muxA0 (ch.getLsbD 0), .line .muxA1 (ch.getLsbD 1), .line .muxA2 (ch.getLsbD 2),
        .line .muxA3 (ch.getLsbD 3)]) := by
  have hlines := h.line .muxA0 (channelBit ch 0) |>.line .muxA1 (channelBit ch 1) |>.line .muxA2 (channelBit ch 2)
    |>.line .muxA3 (channelBit ch 3)
  rw [← address_of_lines t.muxA ch]
  simp only [List.append_assoc, List.cons_append, List.nil_append] at hlines
  exact hlines

/-- A request without transfers whose checks let it through answers `OK` when its micro-sequence has run to its end. -/
theorem Reaches.lineRequest_eq (h : Reaches s i ops t made) (hp : precheck i s.dstate = none) :
    s.lineRequest i ops okResponse = .next (t.served i made ⟨.ok, [], []⟩) := by
  obtain ⟨k, hrun⟩ := h.run
  rw [State.lineRequest, hp, State.serve, hrun]
  exact congrArg Host.Outcome.next (State.conclude_amid _ k h.quiet)

/-- The enable line is driven once where there is one, and nothing is where there is none (R244). -/
theorem State.lineRequest_enableSequence (hasMuxEn level : Bool) (hq : Quiet s) (hp : precheck i s.dstate = none) :
    s.lineRequest i (enableSequence hasMuxEn level) okResponse =
      .next (if hasMuxEn then
          ({ s with muxEnN := level } : State).served i [.line .muxEnN level] ⟨.ok, [], []⟩
        else s.served i [] ⟨.ok, [], []⟩) := by
  cases hasMuxEn with
  | true => exact ((Reaches.start hq i).line .muxEnN level).lineRequest_eq hp
  | false => exact (Reaches.start hq i).lineRequest_eq hp

end

/-- Settles O35: a channel in the domain passes the check, and its four lines are driven in turn. -/
theorem muxSelectDrivesAddress : Obligations.MuxSelectDrivesAddress := by
  intro s ch hq hch
  have hp : precheck (.muxSelect ch) s.dstate = none := if_pos (decide_eq_true hch)
  exact ((Reaches.start hq (.muxSelect ch)).muxSequence ch).lineRequest_eq hp

/-- Settles O36: the two requests differ in the level of the line only. -/
theorem muxEnableDrivesTheFifthLine : Obligations.MuxEnableDrivesTheFifthLine := fun _ hq =>
  ⟨State.lineRequest_enableSequence (i := .muxEnable) Config.hasMuxEn false hq rfl,
    State.lineRequest_enableSequence (i := .muxDisable) Config.hasMuxEn true hq rfl⟩

end Sys2Proof.Machine
end

section
/-! SUPPORT. Requests refused by their checks (spec/60_exceptions.md R261, R262): the request that a check refuses only answers. -/

namespace Sys2Proof.Machine

open Sys2Proof

/-- A request that its checks refuse is rejected, whatever the chip-selects are. -/
theorem exec_refused (i : Instr) (s : State) (e : Status) (h : precheck i s.dstate = some e) :
    exec i s = .next (s.reject i e) := by
  have hbus : ∀ ops result, s.busRequest i ops result = .next (s.reject i e) := fun ops result => by
    rw [State.busRequest, h]
  have hline : ∀ ops result, s.lineRequest i ops result = .next (s.reject i e) := fun ops result => by
    rw [State.lineRequest, h]
  cases i with
  | dispInit | dispSetWindow | dispWriteFrame | adcRead | adcReadAll => exact hbus _ _
  | dispReset | dispClear | dispSetBacklight | btnRead | ledWrite | muxSelect | muxEnable | muxDisable => exact hline _ _
  | _ => exact nomatch h

/-- The checks find the state or an operand wrong, never the bus. -/
theorem precheck_ne_bus (i : Instr) (d : DState) : precheck i d ≠ some .bus := by
  cases i with
  | dispInit | dispSetWindow | dispWriteFrame | adcRead | muxSelect =>
    simp only [precheck]
    split_ifs <;> exact nofun
  | _ => exact nofun

/-- The abort rule is for `BUS` only (R266). -/
theorem State.abortRule_ne_bus (s : State) (e : Status) (he : e ≠ .bus) : s.abortRule e = s := by
  unfold State.abortRule
  split
  · exact absurd rfl he
  · rfl

/-- An undisturbed request that its checks refuse only answers. -/
theorem exec_refused_quiet (i : Instr) (s : State) (e : Status) (hq : Quiet s) (h : precheck i s.dstate = some e) :
    exec i s = .next (s.served i [] ⟨e, [], []⟩) := by
  have he : e ≠ .bus := fun he => precheck_ne_bus i s.dstate (he ▸ h)
  rw [exec_refused i s e h, State.reject, State.raise, State.abortRule_ne_bus _ e he, State.take_amid hq.1]
  exact congrArg Host.Outcome.next (State.conclude_amid _ 0 hq)

/-- Settles O43: the check of the channel refuses it. -/
theorem channelOutsideItsDomainIsRange : Obligations.ChannelOutsideItsDomainIsRange := by
  refine fun s ch hq => ⟨fun hch => ?_, fun hch => ?_⟩
  · exact exec_refused_quiet (.adcRead ch) s .range hq (if_neg (by simpa [adcChannelOk] using hch))
  · exact exec_refused_quiet (.muxSelect ch) s .range hq (if_neg (by simpa [muxChannelOk] using hch))

/-- Settles O44: the check of `DSTATE` refuses both requests. -/
theorem wrongDisplayStateIsState : Obligations.WrongDisplayStateIsState := fun s hq =>
  ⟨fun hd => exec_refused_quiet .dispInit s .state hq (if_neg hd),
    fun hd => exec_refused_quiet .dispWriteFrame s .state hq (if_neg hd)⟩

/-- Settles O49: an instruction is refused by its checks, or runs its micro-sequence on the free bus. -/
theorem everyInstructionHasAStep : Obligations.EveryInstructionHasAStep := by
  intro s i hfree
  cases hp : precheck i s.dstate with
  | some e => exact ⟨_, exec_refused i s e hp⟩
  | none => exact ⟨_, exec_free i s hp fun _ => hfree⟩

end Sys2Proof.Machine
end

section
/-! SUPPORT. Messages that do not decode and moves that reach a hung block (spec/60_exceptions.md R264, R270). -/

namespace Sys2Proof.Machine

open Sys2Proof

theorem State.rejectMessage_quiet (s : State) (m : Bytes) (hq : Quiet s) :
    s.rejectMessage m = (s.record (.req m)).respond (bare .illegal) := by
  have hquiet : Quiet (s.record (.req m)) := hq
  rw [State.rejectMessage, State.hostRaces_quiet _ hquiet.1, State.conclude_quiet _ _ hquiet]

/-- Settles O6: the idle block takes the move off the agenda, records the message and answers it. -/
theorem illegalMessageOnlyAnswers : Obligations.IllegalMessageOnlyAnswers := by
  intro s m e rest hp ha h
  have hpresent : ((s.afterMove rest).beside [] none).present m =
      .next (((s.afterMove rest).beside [] none).rejectMessage m) := by
    rw [State.present, h]
    rfl
  rw [step_idle s _ rest hp ha]
  refine hpresent.trans (congrArg Host.Outcome.next ?_)
  rw [State.rejectMessage_quiet _ m ⟨rfl, rfl⟩]
  simp [State.respond, State.record, State.beside, State.afterMove, bare, Response.message, Status.code, hp]

theorem step_hung (s : State) (i : Instr) (k : Nat) (mv : Move) (rest : List Move) (hp : s.phase = .busy i k)
    (ha : s.env.agenda = mv :: rest) : step s = (s.afterMove rest).whileHung mv := by
  rw [step, State.advance, hp, ha]

theorem step_hung_alone (s : State) (i : Instr) (k : Nat) (hp : s.phase = .busy i k) (ha : s.env.agenda = []) :
    step s = .fault .hungTransfer := by
  rw [step, State.advance, hp, ha]

@[simp] theorem State.hostAccess_phase (s : State) (a : Access) : (s.hostAccess a).phase = s.phase := by
  cases a <;> rfl

theorem State.presentAccess_phase (s t : State) (a : Access) (h : s.presentAccess a = .next t) : t.phase = s.phase := by
  unfold State.presentAccess at h
  split at h
  · cases h
  · injection h with h
    simp [← h]

/-- Only block reset ends a hang. -/
theorem State.whileHung_phase (s t : State) (mv : Move) (h : s.whileHung mv = .next t) :
    t.phase = s.phase ∨ mv = .blockReset := by
  cases mv with
  | request | frame => exact nomatch h
  | access a => exact .inl (s.presentAccess_phase t a h)
  | takeResponse =>
    injection h with h
    exact .inl (by rw [← h])
  | blockReset => exact .inr rfl

/-- Settles O10: a hung block has a step only for a move that reaches it, and refuses requests and frames. -/
theorem hungBlockOnlyResets : Obligations.HungBlockOnlyResets := by
  intro s i k hp
  refine ⟨step_hung_alone s i k hp, fun m racing n rest ha => step_hung s i k _ rest hp ha,
    fun l word racing n rest ha => step_hung s i k _ rest hp ha, fun rest ha => step_blockReset s rest ha, fun t ht => ?_⟩
  cases ha : s.env.agenda with
  | nil =>
    rw [step_hung_alone s i k hp ha] at ht
    exact nomatch ht
  | cons mv rest =>
    rw [step_hung s i k mv rest hp ha] at ht
    obtain hphase | rfl := State.whileHung_phase _ t mv ht
    · exact .inl (hphase.trans hp)
    · exact .inr ⟨rest, rfl⟩

end Sys2Proof.Machine
end

section
/-! SUPPORT. The statuses of each request (spec/60_exceptions.md R265): which response each of its ends leaves at the port. -/

namespace Sys2Proof.Machine

open Sys2Proof

theorem precheck_status (i : Instr) (d : DState) (e : Status) (h : precheck i d = some e) : e ∈ statusesOf i := by
  cases i with
  | dispInit | dispSetWindow | dispWriteFrame | adcRead | muxSelect =>
    simp only [precheck] at h
    split_ifs at h <;> cases h <;> simp [statusesOf]
  | _ => exact nomatch h

theorem ok_mem_statusesOf (i : Instr) (hl : i.layer = .request) : .ok ∈ statusesOf i := by
  cases i <;> simp_all [statusesOf, Instr.layer]

/-- A request that makes transfers may answer what a failed one is answered with. -/
theorem failureResponse_status (i : Instr) (m : Memory) (r : Response) (htransfers : transfersOf i m ≠ [])
    (h : failureResponse i = some r) : r.status ∈ statusesOf i := by
  cases i with
  | dispInit | dispSetWindow | dispWriteFrame | adcRead | adcReadAll | adcSelftest =>
    obtain rfl := Option.some.inj h
    simp [statusesOf]
  | dispReset | dispClear | dispSetBacklight | btnRead | ledWrite | muxSelect | muxEnable | muxDisable =>
    exact absurd rfl htransfers
  | _ => exact nomatch h

/-- A response at the port after a request's end is the one it ended with: block reset leaves none (R302). -/
theorem State.conclude_port (s : State) (r answer : Response) (h : (s.conclude answer).respPort = some r) : answer = r := by
  obtain ⟨-, hc⟩ | ⟨-, hc⟩ := s.conclude_cases answer <;> rw [hc] at h
  · exact nomatch h
  · exact Option.some.inj h

theorem State.abandon_port (s : State) (i : Instr) (r : Response) (hl : i.layer = .request)
    (h : (s.abandon i).respPort = some r) : failureResponse i = some r := by
  rw [State.abandon, if_neg (not_not.2 hl)] at h
  rw [failureResponse, if_neg (not_not.2 hl)]
  split at h
  · next hi => rw [if_pos hi, ← s.conclude_port r _ h]; rfl
  · next hi => rw [if_neg hi, ← State.conclude_port _ r _ h]; rfl

/-- Only a micro-operation that asks the bus stops a micro-sequence (R131). -/
theorem Op.run_stop (op : Op) (s t : State) (why : Stop) (h : op.run s = .stop why t) : op.asks = true := by
  cases op with
  | xfer | stream => rfl
  | _ => exact nomatch h

theorem runOps_bus (ops : List Op) (s t : State) (h : runOps ops s = .stop .bus t) : ∃ op ∈ ops, op.asks = true := by
  induction ops generalizing s with
  | nil => exact nomatch h
  | cons op rest ih =>
    rw [runOps] at h
    split at h
    · exact nomatch h
    · split at h
      · next u _ =>
        obtain ⟨asking, hmem, hasks⟩ := ih u h
        exact ⟨asking, List.mem_cons_of_mem op hmem, hasks⟩
      · next why u hrun => exact ⟨op, List.mem_cons_self, op.run_stop _ u why hrun⟩

/-- An instruction whose transfer failed has transfers. -/
theorem transfersOf_ne_nil_of_bus (i : Instr) (m : Memory) (s t : State) (h : runOps (opsOf i) s = .stop .bus t) :
    transfersOf i m ≠ [] := by
  rw [← List.length_pos_iff, ← opsOf_asks]
  exact List.countP_pos_iff.2 (runOps_bus _ s t h)

/-- Settles O47: the status is that of a check, `OK` at the end of the micro-sequence, or the answer to a failed transfer of a
request that has transfers; a hung request does not end idle, and block reset leaves no response. -/
theorem statusesAreThoseOfTheTable : Obligations.StatusesAreThoseOfTheTable := by
  intro s t i r hl h hidle hport
  obtain ⟨e, hp, rfl⟩ | ⟨-, rfl⟩ := exec_ran i s t h
  · obtain rfl := State.conclude_port _ r _ hport
    exact precheck_status i s.dstate e hp
  · obtain ⟨port, made, work, m, reads, henter⟩ := s.enter_frame i
    have hbusy := runOps_phase i (opsOf i) (s.enter i) ⟨0, by rw [henter]⟩
    obtain ⟨u, hr, hu⟩ | ⟨u, hr, hu⟩ | ⟨u, hr, hu⟩ | ⟨u, hr, hu⟩ :=
      (runOps (opsOf i) (s.enter i)).finish_cases (State.close i) (State.abandon i) <;> rw [hu] at hidle hport
    · rw [State.close, if_pos hl] at hport
      rw [← u.conclude_port r _ hport, answerOf_status]
      exact ok_mem_statusesOf i hl
    · exact failureResponse_status i s.fb r (transfersOf_ne_nil_of_bus i _ _ u hr) (u.abandon_port i r hl hport)
    · obtain ⟨k, hk⟩ := hbusy
      rw [hr, Ran.state_stop, hidle] at hk
      exact nomatch hk
    · exact nomatch hport

end Sys2Proof.Machine
end

section
/-! SUPPORT. Instructions whose transfer fails or hangs (spec/60_exceptions.md R263, R270): the micro-sequence up to the window
of that transfer, and what the window then leaves. -/

namespace Sys2Proof.Machine

open Sys2Proof

/-! ### The transfers of a micro-sequence -/

/-- The transfer a micro-operation asks the bus for, with the frame buffer that is streamed. -/
def Op.transfer (fb : Memory) (op : Op) : Option (Device × Bytes) :=
  match op with
  | .xfer d tx => some (d, tx)
  | .stream => some (.disp, Memory.readList fb 0 Config.fbSize)
  | _ => none

theorem Op.transfer_isSome (fb : Memory) (op : Op) : (op.transfer fb).isSome = op.asks := by
  cases op <;> rfl

theorem Op.transfer_sends (op : Op) (s : State) (d : Device) (tx : Bytes) (hracing : s.env.racing = [])
    (h : op.transfer s.fb = some (d, tx)) : op.Sends s d tx := by
  cases op with
  | xfer d' tx' =>
    obtain ⟨rfl, rfl⟩ := Prod.mk.inj (Option.some.inj h)
    exact Op.xfer_sends s d' tx'
  | stream =>
    obtain ⟨rfl, rfl⟩ := Prod.mk.inj (Option.some.inj h)
    exact Op.stream_sends s hracing
  | _ => exact nomatch h

/-- The micro-sequence of an instruction makes the transfers that its rules list. -/
theorem opsOf_transfers (i : Instr) (fb : Memory) : (opsOf i).filterMap (Op.transfer fb) = transfersOf i fb := by
  cases i with
  | dispClear color =>
    refine List.filterMap_eq_nil_iff.2 fun op hop => ?_
    obtain ⟨n, -, rfl⟩ := List.mem_map.1 hop
    rfl
  | muxEnable | muxDisable => cases hm : Config.hasMuxEn <;> simp [opsOf, enableSequence, hm, Op.transfer, transfersOf]
  | _ => rfl

/-- Does every transfer of a micro-sequence come right after the assertion of its chip-select, `previous` being the
micro-operation before the sequence (R135)? -/
def opsSelected (fb : Memory) (previous : Op) (ops : List Op) : Bool :=
  match ops with
  | [] => true
  | op :: rest => (op.transfer fb).all (fun x => previous == .cs x.1 true) && opsSelected fb op rest

theorem opsOf_selected (i : Instr) (fb : Memory) (h : transfersOf i fb ≠ []) : opsSelected fb .sample (opsOf i) = true := by
  cases i with
  | dispReset | dispClear | dispSetBacklight | btnRead | ledWrite | muxSelect | muxEnable | muxDisable | adcResponse
  | muxAddress => exact absurd rfl h
  | _ => rfl

theorem opsSelected_getLast (fb : Memory) (previous op : Op) (before after : List Op) (d : Device) (tx : Bytes)
    (h : opsSelected fb previous (before ++ op :: after) = true) (hop : op.transfer fb = some (d, tx)) :
    (previous :: before).getLast? = some (.cs d true) := by
  induction before generalizing previous with
  | nil =>
    obtain ⟨hprevious, -⟩ := Bool.and_eq_true_iff.1 h
    simpa [hop] using hprevious
  | cons next before ih =>
    obtain ⟨-, hrest⟩ := Bool.and_eq_true_iff.1 h
    rw [List.getLast?_cons_cons]
    exact ih next hrest

theorem opsSelected_asserted (fb : Memory) (op : Op) (before after : List Op) (d : Device) (tx : Bytes)
    (h : opsSelected fb .sample (before ++ op :: after) = true) (hop : op.transfer fb = some (d, tx)) :
    ∃ leading, before = leading ++ [.cs d true] := by
  have hlast := opsSelected_getLast fb .sample op before after d tx h hop
  obtain rfl | ⟨leading, last, rfl⟩ := before.eq_nil_or_concat'
  · cases hlast
  · rw [← List.cons_append, List.getLast?_concat] at hlast
    exact ⟨leading, by rw [Option.some.inj hlast]⟩

/-- The micro-sequence of an instruction around its transfer number `n`: what comes before its window, the assertion of its
chip-select, and the micro-operation that makes it. -/
theorem opsOf_split (i : Instr) (fb : Memory) (n : Nat) (d : Device) (tx : Bytes) (h : (transfersOf i fb)[n]? = some (d, tx)) :
    ∃ before op after, opsOf i = before ++ .cs d true :: op :: after ∧ op.transfer fb = some (d, tx) ∧
      before.filterMap (Op.transfer fb) = (transfersOf i fb).take n := by
  obtain ⟨hn, hget⟩ := List.getElem?_eq_some_iff.1 h
  have hlist : (opsOf i).filterMap (Op.transfer fb) =
      (transfersOf i fb).take n ++ (d, tx) :: (transfersOf i fb).drop (n + 1) := by
    rw [opsOf_transfers, ← hget, ← List.drop_eq_getElem_cons hn, List.take_append_drop]
  obtain ⟨before, later, hops, hbefore, hlater⟩ := List.filterMap_eq_append_iff.1 hlist
  obtain ⟨silent, op, after, rfl, hsilent, hop, -⟩ := List.filterMap_eq_cons_iff.1 hlater
  have hselected := opsOf_selected i fb (List.ne_nil_of_length_pos (Nat.zero_lt_of_lt hn))
  rw [hops, ← List.append_assoc] at hselected
  obtain ⟨leading, hleading⟩ := opsSelected_asserted fb op _ after d tx hselected hop
  refine ⟨leading, op, after, ?_, hop, ?_⟩
  · rw [hops, ← List.append_assoc, hleading, List.append_assoc]
    rfl
  · have hmade := congrArg (List.filterMap (Op.transfer fb)) hleading
    rw [List.filterMap_append, List.filterMap_append, hbefore, List.filterMap_eq_nil_iff.2 hsilent, List.append_nil] at hmade
    exact (hmade.trans (List.append_nil _)).symm

/-! ### What a micro-sequence that runs to its end leaves -/

/-- From `s` to `t` by events that show these transfers completed, and no response. -/
def Sent (transfers : List (Device × Bytes)) (s t : State) : Prop :=
  ∃ made, t.history = s.history ++ made ∧ made.filterMap completedTransfer = transfers ∧ ∀ e ∈ made, ∀ m, e ≠ .resp m

theorem Sent.trans {a b : List (Device × Bytes)} {s t u : State} (h1 : Sent a s t) (h2 : Sent b t u) : Sent (a ++ b) s u := by
  obtain ⟨made1, hist1, hmade1, hresp1⟩ := h1
  obtain ⟨made2, hist2, hmade2, hresp2⟩ := h2
  refine ⟨made1 ++ made2, by rw [hist2, hist1, List.append_assoc], by rw [List.filterMap_append, hmade1, hmade2], fun e he => ?_⟩
  exact (List.mem_append.1 he).elim (hresp1 e) (hresp2 e)

theorem Sent.silent {s t : State} (hist : t.history = s.history) : Sent [] s t := ⟨[], by simp [hist], rfl, nofun⟩

theorem Sent.event {s t : State} (e : Event) (hist : t.history = s.history ++ [e]) (he : ∀ m, e ≠ .resp m) :
    Sent (completedTransfer e).toList s t :=
  ⟨[e], hist, by cases h : completedTransfer e <;> simp [h], by simpa using he⟩

theorem State.elapse_sent (s : State) : Sent [] s s.elapse := by
  unfold State.elapse
  split
  · next ms _ => exact .event (.wait ms) rfl nofun
  · exact .silent rfl

/-- A transfer that is done is recorded as completed. -/
theorem State.xfer_sent (s t : State) (d : Device) (tx : Bytes) (h : s.xfer d tx = .done t) : Sent [(d, tx)] s t := by
  obtain ⟨rx, -, hx⟩ | hx | hx | hx := s.xfer_cases d tx <;> rw [hx] at h <;> cases h
  exact .event (.xfer d tx rx) rfl nofun

theorem Op.run_sent (op : Op) (s t : State) (hracing : s.env.racing = []) (h : op.run s = .done t) :
    Sent (op.transfer s.fb).toList s t := by
  cases op with
  | xfer d tx => exact s.xfer_sent t d tx h
  | stream => exact s.xfer_sent t .disp _ ((Op.stream_sends s hracing s rfl rfl).symm.trans h)
  | line l b => cases h; exact .event (.line l b) (s.setLine_history l b) nofun
  | cs d b => cases h; exact .event (.cs d b) (s.setCs_history d b) nofun
  | duty n => cases h; exact .event (.bl n) rfl nofun
  | elapse => cases h; exact s.elapse_sent
  | dstate | arm | pixel | channel | sample | button => cases h; exact .silent rfl

theorem Op.run_quiet (op : Op) (s t : State) (hq : Quiet s) (h : op.run s = .done t) : Quiet t := by
  obtain ⟨made, -, ⟨u, hu, hreset, hcut, -⟩ | ⟨u, hu, -⟩ | ⟨u, hu, -⟩⟩ := op.run_coming s hq.2 <;> rw [hu] at h <;> cases h
  exact ⟨hcut.racing.trans hq.1, hreset⟩

theorem runOps_sent (ops : List Op) (s t : State) (hq : Quiet s) (hfb : ∀ op ∈ ops, op.sets ≠ some .fb)
    (h : runOps ops s = .done t) : Sent (ops.filterMap (Op.transfer s.fb)) s t ∧ Quiet t := by
  induction ops generalizing s with
  | nil =>
    cases h
    exact ⟨.silent rfl, hq⟩
  | cons op ops ih =>
    obtain ⟨hop, hops⟩ := List.forall_mem_cons.1 hfb
    have hqt : Quiet s.tick := by rwa [s.tick_quiet hq.2]
    have hkept := op.run_element s.tick .fb hop
    have hsent := op.run_sent s.tick
    rw [runOps_cons op ops s (by simp [hq.2])] at h
    cases hrun : op.run s.tick with
    | stop why u => rw [hrun] at h; cases h
    | done u =>
      rw [hrun] at h hkept
      obtain ⟨hlater, hqu⟩ := ih u (op.run_quiet s.tick u hqt hrun) hops h
      have hsame : u.fb = s.fb := hkept
      rw [hsame] at hlater
      have hfirst : Sent (op.transfer s.fb).toList s u := hsent u hqt.1 hrun
      have hall : (op :: ops).filterMap (Op.transfer s.fb) = (op.transfer s.fb).toList ++ ops.filterMap (Op.transfer s.fb) := by
        cases ho : op.transfer s.fb <;> simp [ho]
      exact ⟨hall ▸ hfirst.trans hlater, hqu⟩

/-- The request port and the response port (R37). -/
def State.ports (s : State) : Option Bytes × Option Response := (s.reqPort, s.respPort)

theorem State.xfer_ports (s : State) (d : Device) (tx : Bytes) : (s.xfer d tx).state.ports = s.ports := by
  obtain ⟨rx, -, h⟩ | h | h | h := s.xfer_cases d tx <;> rw [h]
  case inr.inl => cases d <;> rfl
  all_goals rfl

/-- No micro-operation touches a port. -/
theorem Op.run_ports (op : Op) (s : State) : (op.run s).state.ports = s.ports := by
  cases op with
  | xfer d tx => exact s.xfer_ports d tx
  | stream => exact s.xfer_ports .disp _
  | line l b => cases l <;> rfl
  | cs d b => cases d <;> rfl
  | elapse =>
    simp only [Op.run, State.elapse]
    split <;> rfl
  | _ => rfl

theorem runOps_ports (ops : List Op) (s : State) : (runOps ops s).state.ports = s.ports :=
  runOps_keeps (fun t => t.ports = s.ports) ops s (fun op _ t ht => (op.run_ports t.tick).trans ht) rfl

/-- The `DSTATE` a micro-operation leaves. -/
def Op.dstateAfter (d : DState) (op : Op) : DState :=
  match op with
  | .dstate d' => d'
  | _ => d

theorem Op.run_dstate (op : Op) (s : State) : (op.run s).state.dstate = op.dstateAfter s.dstate := by
  cases op with
  | dstate d => rfl
  | line l b => exact s.setLine_dstate l b
  | _ => exact Op.run_element _ s .dstate (by simp [Op.sets])

theorem runOps_dstate (ops : List Op) (s t : State) (h : runOps ops s = .done t) :
    t.dstate = ops.foldl Op.dstateAfter s.dstate := by
  induction ops generalizing s with
  | nil => cases h; rfl
  | cons op ops ih =>
    have hop := op.run_dstate s.tick
    rw [runOps] at h
    split at h
    · cases h
    · cases hrun : op.run s.tick with
      | stop why u => rw [hrun] at h; cases h
      | done u =>
        rw [hrun] at h hop
        rw [ih u h, List.foldl_cons]
        exact congrArg (ops.foldl Op.dstateAfter) hop

theorem opsWindow_append (w : Option Device) (a b : List Op) :
    opsWindow w (a ++ b) = (opsWindow w a).bind fun v => opsWindow v b := by
  induction a generalizing w with
  | nil => rfl
  | cons op a ih =>
    simp only [List.cons_append, opsWindow, ih, Option.bind_assoc]

/-- No window is open where an instruction asserts a chip-select (R136). -/
theorem opsWindow_before_assert (before after : List Op) (d : Device)
    (h : opsWindow none (before ++ .cs d true :: after) = some none) : opsWindow none before = some none := by
  rw [opsWindow_append] at h
  obtain ⟨w, hw, hafter⟩ := Option.bind_eq_some_iff.1 h
  obtain ⟨v, hassert, -⟩ := Option.bind_eq_some_iff.1 hafter
  rwa [windowAfter_assert hassert] at hw

/-! ### Up to the window of a transfer -/

/-- The `DSTATE` of `DISP_INIT` where it asserts a chip-select is that of R167 for the transfers before it. -/
theorem initSequence_dstate (d : Device) : ∀ k < initSequence.length, initSequence[k]? = some (.cs d true) →
    (initSequence.take k).foldl Op.dstateAfter .resetting = initState ((initSequence.take k).countP Op.asks) := by
  cases d <;> decide

/-- `DISP_INIT` that passed its check has the `DSTATE` of R167 where it asserts a chip-select, any other instruction that
does has the one it began with (R23). -/
theorem runOps_dstate_before_assert {i : Instr} {leading after : List Op} {d : Device} {s t : State}
    (hops : opsOf i = leading ++ .cs d true :: after) (hp : precheck i s.dstate = none) (hrun : runOps leading s = .done t) :
    t.dstate = if i = .dispInit then initState (leading.countP Op.asks) else s.dstate := by
  split
  · next hi =>
    subst hi
    have hresetting : s.dstate = .resetting := by simpa [precheck] using hp
    have hinit : initSequence = leading ++ .cs d true :: after := hops
    have htable := initSequence_dstate d leading.length (by simp [hinit]) (by simp [hinit])
    rw [hinit, List.take_left] at htable
    rw [runOps_dstate leading s t hrun, hresetting, htable]
  · next hi =>
    have hsets : ∀ op ∈ leading, op.sets ≠ some .dstate := fun op hop hset => by
      obtain rfl | rfl := dstate_writers (opsOf_sets i op (hops ▸ List.mem_append_left _ hop) .dstate hset)
      · have hcs : Element.cs d ∈ elementsOf .dispReset :=
          opsOf_sets .dispReset (.cs d true) (hops ▸ List.mem_append_right _ List.mem_cons_self) _ rfl
        simp [elementsOf] at hcs
      · exact hi rfl
    have hkept := runOps_element leading s .dstate hsets
    rwa [hrun] at hkept

@[simp] theorem State.enter_history (s : State) (i : Instr) : (s.enter i).history = s.history ++ opening i := by
  cases i <;> simp [State.enter, opening, Instr.layer]

theorem State.enter_respPort (s : State) (i : Instr) : (s.enter i).respPort = s.respPort := by
  obtain ⟨port, made, work, m, reads, h⟩ := s.enter_frame i
  rw [h]

/-- A request is held at the port, a wire frame is not (R37). -/
theorem State.enter_ports (s : State) (i : Instr) :
    (s.enter i).ports = (if i.layer = .request then some (encode i) else s.reqPort, s.respPort) := by
  rw [State.ports, s.enter_respPort]
  split
  · next hl =>
    obtain ⟨m, reads, h⟩ := s.take_cases i
    rw [s.enter_request i hl, h]
  · next hl => rw [s.enter_reqPort i hl]

/-- The instruction `i` that `s` is given runs undisturbed to `u`, where the window of its transfer `n` begins, which sends
`tx` to the device. -/
structure Approaches (s : State) (i : Instr) (n : Nat) (d : Device) (tx : Bytes) (u : State) : Prop where
  run : ∃ op after, op.Sends u d tx ∧ runOps (opsOf i) (s.enter i) = runOps (.cs d true :: op :: after) u
  busy : ∃ k, u.phase = .busy i k
  quiet : Quiet u
  free : BusFree u
  ports : u.ports = (if i.layer = .request then some (encode i) else s.reqPort, s.respPort)
  dstate : u.dstate = if i = .dispInit then initState n else s.dstate
  sent : Sent ((transfersOf i s.fb).take n) (s.enter i) u

/-- With the transfers before it answered, an instruction comes to the window of each of its transfers. -/
theorem approaches (s : State) (i : Instr) (before : List Bytes) (rest : List Reply) (d : Device) (tx : Bytes) (hq : Quiet s)
    (hfree : BusFree s) (hp : precheck i s.dstate = none) (htx : (transfersOf i s.fb)[before.length]? = some (d, tx))
    (hr : s.env.replies = before.map Reply.ok ++ rest) :
    ∃ u, Approaches s i before.length d tx u ∧ u.env.replies = rest := by
  obtain ⟨leading, op, after, hops, hop, hleading⟩ := opsOf_split i s.fb before.length d tx htx
  obtain ⟨hn, -⟩ := List.getElem?_eq_some_iff.1 htx
  have hasks : leading.countP Op.asks = before.length := by
    have hlen := congrArg List.length hleading
    rw [List.length_filterMap_eq_countP, List.length_take, Nat.min_eq_left hn.le] at hlen
    simpa only [Op.transfer_isSome] using hlen
  have hfb : (s.enter i).fb = s.fb := by
    rw [s.enter_fb, hq.1]
    rfl
  have hquiet : Quiet (s.enter i) := by rwa [Quiet, s.enter_env]
  obtain ⟨u, hrun, hreplies⟩ := runOps_answered leading (s.enter i) before rest hquiet.2 (by rw [s.enter_env, hr]) hasks
  have hsets : ∀ o ∈ leading, o.sets ≠ some .fb := fun o ho hset => by
    obtain ⟨color, rfl⟩ := fb_writers (opsOf_sets i o (hops ▸ List.mem_append_left _ ho) .fb hset)
    exact absurd hn (Nat.not_lt_zero _)
  obtain ⟨hsent, hqu⟩ := runOps_sent leading (s.enter i) u hquiet hsets hrun
  rw [hfb, hleading] at hsent
  have hbusy := runOps_runs leading _ i (s.enter_runs i hq.2)
  have hkept := runOps_element leading (s.enter i) .fb hsets
  have hports := runOps_ports leading (s.enter i)
  have hwindow := runOps_windowed leading _ none none (s.enter_disciplined i (s.opens_busFree.2 hfree)).opens
    (opsWindow_before_assert leading (op :: after) d (hops ▸ opsOf_window i))
  rw [hrun] at hbusy hkept hports hwindow
  have hufb : u.fb = s.fb := Eq.trans hkept hfb
  refine ⟨u, ⟨⟨op, after, op.transfer_sends u d tx hqu.1 (hufb ▸ hop), ?_⟩, hbusy.busy, hqu,
    u.opens_busFree.1 (Disciplined.opens hwindow), hports.trans (s.enter_ports i), ?_, hsent⟩, hreplies⟩
  · rw [hops, runOps_append, hrun]
  · have hdstate : (s.enter i).dstate = s.dstate := s.enter_element i .dstate nofun nofun
    have hend := runOps_dstate_before_assert hops (hdstate ▸ hp) hrun
    rwa [hasks, hdstate] at hend

/-! ### The window of a transfer that fails or hangs -/

/-- The state a window of the device sends its transfer from. -/
def State.sending (s : State) (d : Device) : State := (s.tick.setCs d true).tick

section
variable {u : State} {d : Device} {tx : Bytes} {rest : List Reply} {op : Op} {after : List Op}

/-- A window ends a micro-sequence where its transfer does. -/
theorem runOps_selected_stop {why : Stop} {t : State} (hq : u.env.resetIn = none) (hop : op.Sends u d tx)
    (hstop : (u.sending d).xfer d tx = .stop why t) : runOps (.cs d true :: op :: after) u = .stop why t := by
  have henv : (u.sending d).env = u.env := by
    rw [State.sending, State.tick_quiet _ (by simp [hq]), State.setCs_env, u.tick_quiet hq]
  rw [runOps_done _ _ u _ hq rfl, runOps_cons _ _ _ (by simp [hq]), ← State.sending, hop _ (by simp [State.sending]) henv, hstop]

theorem runOps_selected_failed (hq : Quiet u) (hfree : BusFree u) (hop : op.Sends u d tx) (hr : u.env.replies = .fail :: rest) :
    runOps (.cs d true :: op :: after) u = .stop .bus (u.afterFailedWindow d tx) := by
  have hfail := State.xfer_fail (u.sending d) d tx (State.answer_listed _ d tx _ rest (by simpa [State.sending] using hr))
    (by simp [State.sending, hq.2])
  have hwindow : runOps [.cs d true, .xfer d tx, .cs d false] u = _ := runOps_failedWindow d tx hq.2 hfree hr
  rw [runOps_selected_stop hq.2 (Op.xfer_sends u d tx) hfail] at hwindow
  exact (runOps_selected_stop hq.2 hop hfail).trans hwindow

/-- `s` in a window whose transfer hangs: the chip-select asserted, one reply used up. -/
def State.hanging (s : State) (d : Device) : State :=
  { s.sending d with env := { (s.sending d).env with replies := (s.sending d).env.replies.tail } }

theorem runOps_selected_hung (hq : Quiet u) (hop : op.Sends u d tx) (hr : u.env.replies = .hang :: rest) :
    runOps (.cs d true :: op :: after) u = .stop .hung (u.hanging d) :=
  runOps_selected_stop hq.2 hop
    (State.xfer_hang _ d tx (State.answer_listed _ d tx _ rest (by simpa [State.sending] using hr)))

theorem State.hanging_openWindow (hfree : BusFree u) : (u.hanging d).openWindow = some d := by
  obtain ⟨hdisp, hadc⟩ := hfree
  cases d <;> simp [State.hanging, State.sending, State.openWindow, hdisp]

/-- After a failed transfer a wire frame ends without a response, a request with the one it has for that. -/
theorem State.abandon_quiet (i : Instr) (hq : Quiet u) :
    (failureResponse i = none ∧ u.abandon i = { u with phase := .idle }) ∨
    ∃ status r, failureResponse i = some r ∧ u.abandon i = ({ u with dstate := status } : State).respond r := by
  unfold State.abandon failureResponse
  split
  · exact .inl ⟨rfl, u.retire_quiet hq⟩
  · split
    · exact .inr ⟨u.dstate, _, rfl, State.conclude_quiet u _ hq⟩
    · obtain ⟨status, habort⟩ := u.abortRule_frame .bus
      rw [State.raise, habort]
      exact .inr ⟨status, _, rfl, State.conclude_quiet _ _ hq⟩

end

/-- Settles O45: the window of the failed transfer is recorded with its chip-select released, and the request ends with the
response it has for a failure. -/
theorem busFailureEndsTheRequest : Obligations.BusFailureEndsTheRequest := by
  intro s i before rest d tx hq hfree hp htx hr
  obtain ⟨u, hu, hreplies⟩ := approaches s i before _ d tx hq hfree hp htx hr
  obtain ⟨op, after, hop, hrun⟩ := hu.run
  obtain ⟨made, hmade, hsent, hresp⟩ := hu.sent
  obtain ⟨-, hport⟩ := Prod.mk.inj hu.ports
  have hexec := exec_free i s hp fun _ => hfree
  rw [hrun, runOps_selected_failed hu.quiet hu.free hop hreplies, Ran.finish] at hexec
  refine ⟨_, made, hexec, ?_⟩
  obtain ⟨hnone, hend⟩ | ⟨status, r, hsome, hend⟩ := (u.afterFailedWindow d tx).abandon_quiet i hu.quiet <;> rw [hend]
  · rw [hnone]
    refine ⟨congrArg List.tail hreplies, rfl, hu.free, hport, hsent, hresp, ?_⟩
    simp [State.afterFailedWindow, failedWindow, hmade]
  · rw [hsome]
    refine ⟨congrArg List.tail hreplies, rfl, hu.free, rfl, hsent, hresp, ?_⟩
    simp [State.afterFailedWindow, failedWindow, hmade]

/-- Settles O46: the request rests in the window of its hung transfer, with the ports and `DSTATE` it had where that began. -/
theorem hangKeepsChipSelectAsserted : Obligations.HangKeepsChipSelectAsserted := by
  intro s i before rest d tx hq hfree hp htx hr
  obtain ⟨u, hu, hreplies⟩ := approaches s i before _ d tx hq hfree hp htx hr
  obtain ⟨op, after, hop, hrun⟩ := hu.run
  obtain ⟨k, hk⟩ := hu.busy
  obtain ⟨made, hmade, hsent, hresp⟩ := hu.sent
  obtain ⟨hreq, hport⟩ := Prod.mk.inj hu.ports
  have hexec := exec_free i s hp fun _ => hfree
  rw [hrun, runOps_selected_hung hu.quiet hop hreplies, Ran.finish] at hexec
  refine ⟨_, k + 2, made, hexec, ?_, ?_, ?_, State.hanging_openWindow hu.free, ?_, hsent, hresp, ?_⟩
  · simp [State.hanging, State.sending, hk, SeqPhase.next]
  · simpa [State.hanging, State.sending] using hreq
  · simpa [State.hanging, State.sending] using hport
  · simpa [State.hanging, State.sending] using hu.dstate
  · simp [State.hanging, State.sending, hmade]

end Sys2Proof.Machine
end

section
/-! SUPPORT. The block at rest with nothing presented, and the host taking a response (spec/70_reset_and_hazards.md R301,
spec/10_state.md R37). -/

namespace Sys2Proof.Machine

open Sys2Proof

theorem SeqPhase.idle_or_busy (p : SeqPhase) : p = .idle ∨ ∃ i k, p = .busy i k := by
  cases p with
  | idle => exact .inl rfl
  | busy i k => exact .inr ⟨i, k, rfl⟩

/-- Settles O9: with an empty agenda the idle block keeps its state, and the move that takes the response does the same to an
idle block as to a hung one. -/
theorem idleBlockRunsNothing : Obligations.IdleBlockRunsNothing := by
  refine ⟨fun s hp ha => ?_, fun s rest ha => ?_⟩
  · rw [step, State.advance, hp, ha]
  · obtain hp | ⟨i, k, hp⟩ := s.phase.idle_or_busy
    · exact step_idle s _ rest hp ha
    · exact step_hung s i k _ rest hp ha

end Sys2Proof.Machine
end

section
/-! SUPPORT. Hazards that the events of a history show (spec/70_reset_and_hazards.md): the addresses the multiplexer sees while
its lines change one after the other (R313), and the waits of the power-up (R320). -/

namespace Sys2Proof.Machine

open Sys2Proof

/-! ### The multiplexer's addresses (R313) -/

/-- An address with the lines below `n` driven to the bits of a channel. -/
def drivenAddress (a : BitVec 4) (ch : Byte) (n : Nat) : BitVec 4 :=
  match n with
  | 0 => a
  | n + 1 => withBit 4 (drivenAddress a ch n) n (channelBit ch n)

theorem drivenAddress_getLsbD (a : BitVec 4) (ch : Byte) (n b : Nat) (hn : n ≤ 4) :
    (drivenAddress a ch n).getLsbD b = if b < n then ch.getLsbD b else a.getLsbD b := by
  induction n with
  | zero => rfl
  | succ n ih =>
    rw [drivenAddress, withBit_getLsbD 4 _ n _ b hn, ih (Nat.le_of_succ_le hn)]
    obtain hb | rfl | hb := Nat.lt_trichotomy b n
    · rw [if_neg (Nat.ne_of_lt hb), if_pos hb, if_pos (Nat.lt_succ_of_lt hb)]
    · rw [if_pos rfl, if_pos (Nat.lt_succ_self b), channelBit]
    · rw [if_neg (Nat.ne_of_gt hb), if_neg (Nat.not_lt_of_gt hb), if_neg (Nat.not_lt_of_ge hb)]

theorem drivenAddress_four (a : BitVec 4) (ch : Byte) : drivenAddress a ch 4 = ch.setWidth 4 := address_of_lines a ch

/-- Settles O37: `REQ` and `RESP` keep the address, and each of the four events between them drives one more line. -/
theorem muxGlitchAddresses : Obligations.MuxGlitchAddresses := by
  intro s t ch hq hch h
  obtain rfl := Host.Outcome.next.inj ((muxSelectDrivesAddress s ch hq hch).symm.trans h)
  refine ⟨(List.range 4).map fun j => drivenAddress s.muxA ch (j + 1), ?_, rfl, fun j b hj _ => ?_⟩
  · simp only [State.served, List.drop_left, ← drivenAddress_four s.muxA ch]
    rfl
  · have htrail : ((List.range 4).map fun j => drivenAddress s.muxA ch (j + 1)).getD j 0 =
        drivenAddress s.muxA ch (j + 1) := by
      simp [List.getD_eq_getElem?_getD, hj]
    rw [htrail, drivenAddress_getLsbD s.muxA ch (j + 1) b hj]
    simp only [Nat.lt_succ_iff]

/-! ### The waits of the power-up (R320) -/

theorem waitTotal_append (a b : List Event) : waitTotal (a ++ b) = waitTotal a + waitTotal b := by
  induction a with
  | nil => exact (Nat.zero_add _).symm
  | cons e a ih => cases e <;> simp [waitTotal, ih, Nat.add_assoc]

/-- Settles O58: the reset pulse waits 50 ms twice, and the power-up sequence that follows it 150, 10 and 100 ms. -/
theorem bringUpWaitsSumTo360 : Obligations.BringUpWaitsSumTo360 := by
  intro s t u r1 r2 r3 r4 r5 r6 r7 rest hq hfree hr hreset hinit
  obtain rfl := Host.Outcome.next.inj ((dispResetPulsesAndWaits s hq).symm.trans hreset)
  rw [dispInitRunsThePowerUpSequence _ r1 r2 r3 r4 r5 r6 r7 rest] at hinit
  · obtain rfl := Host.Outcome.next.inj hinit
    refine ⟨rfl, ?_⟩
    simp only [State.served, State.afterReplies, waitTotal_append]
    rfl
  · exact hq
  · exact hfree
  · rfl
  · exact hr

end Sys2Proof.Machine
end

section
/-! SUPPORT. Block reset inside an instruction (spec/70_reset_and_hazards.md R302), said once for all 26 of them, and what it
leaves of a request cut after a known part of its micro-sequence. -/

namespace Sys2Proof.Machine

open Sys2Proof

/-! ### A block reset at any moment -/

theorem State.enter_coming (s : State) (i : Instr) (k : Option Nat) : (s.coming k).enter i = (s.enter i).coming k := by
  cases i with
  | adcResponse rx0 rx1 rx2 => exact State.begin_coming { s with work := { s.work with rx := [rx0, rx1, rx2] } } _ k
  | dispReset | dispInit | dispSetWindow | dispWriteFrame | dispClear | dispSetBacklight | btnRead | ledWrite | adcRead
  | adcReadAll | adcSelftest | muxSelect | muxEnable | muxDisable => exact s.take_coming _ k
  | dcsSwreset | dcsSlpout | dcsColmod | dcsMadctl | dcsDispon | dcsCaset | dcsRaset | dcsRamwr | adcFrame
  | adcSelftestFrame | muxAddress => exact s.begin_coming _ k

theorem opsOf_leavesBuffer (i : Instr) (hi : ∀ color, i ≠ .dispClear color) (op : Op) (hop : op ∈ opsOf i) :
    op.leavesBuffer := by
  rintro n c rfl
  obtain ⟨color, rfl⟩ := fb_writers (opsOf_sets i _ hop .fb rfl)
  exact hi color rfl

theorem answerOf_coming (i : Instr) (t : State) (k : Option Nat) : answerOf i (t.coming k) = answerOf i t := by
  cases i <;> rfl

theorem State.close_closing (i : Instr) : Closing i (State.close i) := by
  by_cases hl : i.layer = .request
  · have hclose : State.close i = fun t => t.conclude (answerOf i t) := funext fun _ => if_pos hl
    exact hclose ▸ State.conclude_closing i (answerOf i) hl (answerOf_coming i)
  · have hclose : State.close i = State.retire := funext fun _ => if_neg hl
    exact hclose ▸ State.retire_closing i hl

theorem State.abandon_closing (i : Instr) : Closing i (State.abandon i) := by
  by_cases hl : i.layer = .request
  · by_cases hadc : i = .adcSelftest
    · have habandon : State.abandon i = fun t => t.conclude (verdict false) :=
        funext fun _ => (if_neg (not_not.2 hl)).trans (if_pos hadc)
      exact habandon ▸ State.conclude_closing i _ hl fun _ _ => rfl
    · have habandon : State.abandon i = fun t => t.raise .bus :=
        funext fun _ => (if_neg (not_not.2 hl)).trans (if_neg hadc)
      exact habandon ▸ State.raise_closing i .bus hl
  · have habandon : State.abandon i = State.retire := funext fun _ => if_pos hl
    exact habandon ▸ State.retire_closing i hl

/-- What an instruction leaves that its checks let through. -/
def State.runInstr (i : Instr) (s : State) : State :=
  (runOps (opsOf i) (s.enter i)).finish (State.close i) (State.abandon i)

theorem State.runInstr_cut (s : State) (i : Instr) (h : s.env.resetIn = none) : CutAnywhereFrom s i (State.runInstr i) := by
  obtain ⟨hbusy, hreset⟩ := s.enter_runs i h
  have hresp : ∀ e ∈ opening i, ∀ r, e ≠ Event.resp r := by
    unfold opening
    split <;> simp
  have hrequest : i.layer = .request → (opening i).length = 1 := fun hl => by simp [opening, hl]
  have hframe : i.layer ≠ .request → opening i = [] := fun hl => if_neg hl
  have hcut := Ran.finish_cut i (opsOf i) s (s.enter i) (opening i) _ _ (opsOf_leavesBuffer i) hreset hbusy
    (by rw [s.enter_env]) (s.enter_history i) hresp hrequest hframe (State.close_closing i) (State.abandon_closing i)
  rw [s.enter_fb] at hcut
  simpa only [CutAnywhereFrom, State.runInstr, State.enter_coming] using hcut

/-- On a free bus an instruction has one meaning, whether a block reset comes or not, and a block reset cuts it anywhere. -/
theorem exec_cutAnywhere (s : State) (i : Instr) (hfree : BusFree s) (h : s.env.resetIn = none) :
    ∃ g, exec i s = .next (g s) ∧ (∀ k, exec i (s.coming k) = .next (g (s.coming k))) ∧ CutAnywhereFrom s i g := by
  cases hp : precheck i s.dstate with
  | some e =>
    exact ⟨_, exec_refused i s e hp, fun k => exec_refused i (s.coming k) e hp,
      s.reject_cut i e h (precheck_request i s.dstate e hp)⟩
  | none =>
    exact ⟨State.runInstr i, exec_free i s hp fun _ => hfree, fun k => exec_free i (s.coming k) hp fun _ => hfree,
      s.runInstr_cut i h⟩

/-! ### A block reset after a known part of a request -/

/-- A block reset that comes no earlier than the end of a micro-sequence leaves it alone. -/
theorem runOps_coming_done (ops : List Op) (s t : State) (n : Nat) (h : s.env.resetIn = none) (hrun : runOps ops s = .done t) :
    runOps ops (s.coming (some (ops.length + n))) = .done (t.coming (some n)) := by
  induction ops generalizing s with
  | nil =>
    obtain rfl : s = t := Ran.done.inj hrun
    simp
  | cons op ops ih =>
    have htick : (s.coming (some ((op :: ops).length + n))).tick = s.tick.coming (some (ops.length + n)) := by
      rw [State.tick_coming, List.length_cons]
      congr 2
      omega
    rw [runOps_cons op ops s (by simp [h])] at hrun
    rw [runOps_cons op ops _ (by simp [Nat.add_right_comm]), htick]
    obtain ⟨made, -, ⟨u, hop, hu, -, -, -, hcoming⟩ | ⟨u, hop, -⟩ | ⟨u, hop, -⟩⟩ := op.run_coming s.tick (by simp [h])
    · rw [hop] at hrun
      rw [hcoming]
      exact ih u hu hrun
    all_goals
      rw [hop] at hrun
      cases hrun

/-- A block reset that comes now cuts whatever is left of a request, its response too. -/
theorem runOps_finish_cut (i : Instr) (ops : List Op) (s : State) (hl : i.layer = .request) (h : s.env.resetIn = some 0) :
    (runOps ops s).finish (State.close i) (State.abandon i) = s.settleRaces.blockReset := by
  cases ops with
  | nil => rw [runOps_nil, Ran.finish, State.close, if_pos hl, State.conclude, if_pos h]
  | cons op ops => rw [runOps_cut op ops s h, Ran.finish]

theorem Quiet.env_eq {s : State} (h : Quiet s) : ({ s.env with racing := [], resetIn := none } : Env) = s.env := by
  rw [← h.1, ← h.2]

/-- A request cut where its first micro-operations have run: the state of R43, with what those left of the history, the frame
buffer and the outside. -/
theorem Reaches.exec_cut {s t : State} {i : Instr} {ops : List Op} {made : List Event} (h : Reaches s i ops t made)
    (rest : List Op) (hops : opsOf i = ops ++ rest) (hq : Quiet s) (hl : i.layer = .request)
    (hp : precheck i s.dstate = none) (hfree : transfersOf i s.fb ≠ [] → BusFree s) :
    exec i (s.coming (some ops.length)) = .next { State.reset with
      fb := t.fb
      history := t.history ++ (Event.req (encode i) :: made ++ [Event.reset])
      fbReads := t.fbReads
      env := t.env } := by
  obtain ⟨k, hrun⟩ := h.run
  have hreached := runOps_coming_done ops (s.take i) _ 0 (by rw [s.take_env, hq.2]) hrun
  rw [Nat.add_zero] at hreached
  have hend := runOps_finish_cut i rest ((t.amid i k made).coming (some 0)) hl rfl
  rw [((t.amid i k made).coming (some 0)).settleRaces_quiet h.quiet.1] at hend
  rw [exec_free i (s.coming (some ops.length)) hp hfree, State.enter_request _ i hl, State.take_coming, hops, runOps_append,
    hreached]
  refine congrArg Host.Outcome.next (hend.trans ?_)
  simp [State.blockReset, State.amid, State.beside, h.quiet.env_eq]

/-- A state with a block reset coming is what is left when it is put off, with it coming again. -/
theorem State.coming_none_coming (s : State) (k : Nat) (h : s.env.resetIn = some k) :
    (s.coming none).coming (some k) = s := by
  rw [← h]
  rfl

/-- Settles O13: the meaning of the instruction is cut anywhere; `ADC_READ` after two micro-operations has recorded its
chip-select. -/
theorem resetCutsAnyInstruction : Obligations.ResetCutsAnyInstruction := by
  refine ⟨fun s u i hfree hreset h => ?_, fun s ch hch hfree hracing hreset => ?_⟩
  · obtain ⟨g, hexec, hcoming, made, hmade, hcut, hevery⟩ := exec_cutAnywhere s i hfree hreset
    obtain rfl : g s = u := Host.Outcome.next.inj (hexec.symm.trans h)
    refine ⟨made, hmade, fun k => ⟨_, hcoming (some k), hcut k⟩, fun before after hsplit hmoment => ?_⟩
    obtain ⟨k, hk⟩ := hevery before after hsplit hmoment
    exact ⟨k, _, hcoming (some k), hk⟩
  · have hq : Quiet (s.coming none) := ⟨hracing, rfl⟩
    have hselected : Reaches (s.coming none) (.adcRead ch) [.channel ch, .cs .adc true]
        { s.coming none with csAdc := true, work := { ch := ch } } [.cs .adc true] :=
      ((Reaches.start hq (.adcRead ch)).next (op := .channel ch) (u := { s.coming none with work := { ch := ch } }) hq
        fun _ => rfl).next hq fun _ => by simp [Op.run, State.setCs, State.select, State.record, State.amid]
    have hp : precheck (.adcRead ch) s.dstate = none := by simp [precheck, adcChannelOk, hch]
    have hcut := hselected.exec_cut _ rfl hq rfl hp fun _ => hfree
    rw [List.length_cons, List.length_singleton, s.coming_none_coming 2 hreset] at hcut
    exact hcut

/-! ### Block reset inside `DISP_CLEAR` -/

/-- Filling pixels leaves every offset behind them alone. -/
theorem Memory.read_fill_behind (m : Memory) (color : U16) (pixels : List Nat) (a : Nat) (hm : Memory.wf m)
    (h : ∀ i ∈ pixels, 2 * i + 2 ≤ a) : Memory.read (Memory.fill m color pixels) a = Memory.read m a := by
  induction pixels generalizing m with
  | nil => rfl
  | cons i pixels ih =>
    exact (ih _ (Memory.wf_writeList m _ _ hm) fun j hj => h j (List.mem_cons_of_mem i hj)).trans
      (Memory.read_writeList_other m _ _ a hm (.inr (h i List.mem_cons_self)))

theorem clearSequence_split (color : U16) (k : Nat) (h : k ≤ Config.pixels) : clearSequence color =
    ((List.range' 0 k).map fun i => .pixel i color) ++ (List.range' k (Config.pixels - k)).map fun i => .pixel i color := by
  have hrange := List.range'_append_1 (s := 0) (m := k) (n := Config.pixels - k)
  rw [Nat.zero_add, Nat.add_sub_cancel' h] at hrange
  rw [clearSequence, ← hrange, List.map_append]

/-- Settles O14: cut after `k` micro-operations, `DISP_CLEAR` has filled the first `k` pixels. -/
theorem resetCutsAClearAfterAnyPixel : Obligations.ResetCutsAClearAfterAnyPixel := by
  intro s color k hk hracing hreset hwf
  have hq : Quiet (s.coming none) := ⟨hracing, rfl⟩
  have hfilled := (Reaches.start hq (.dispClear color)).pixels color (List.range' 0 k)
  have hcut := hfilled.exec_cut _ (clearSequence_split color k hk) hq rfl rfl (absurd rfl)
  rw [List.nil_append, List.length_map, List.length_range', s.coming_none_coming k hreset] at hcut
  have hpixels : ∀ i, i ∈ List.range' 0 k ↔ i < k := by simp [List.mem_range'_1]
  refine ⟨Memory.fill s.fb color (List.range' 0 k), ?_, Memory.wf_fill _ _ _ hwf, fun i hi => ?_, fun a ha => ?_⟩
  · exact hcut
  · exact Memory.holds_fill s.fb color _ i hwf (Nat.lt_of_lt_of_le hi hk) (.inl ((hpixels i).2 hi))
  · refine Memory.read_fill_behind s.fb color _ a hwf fun i hi => ?_
    have := (hpixels i).1 hi
    omega

end Sys2Proof.Machine
end
